-- ==== Sys2Proof/Word.lean ====
section
/-! DEFINITION. The word types of the block (00_scope.md R6 `W`, R7). -/

namespace Sys2Proof

/-- A host register, a command word or one delay-RAM word: 32 bits (R6, R31). -/
abbrev Word := BitVec 32

/-- One byte lane of a word (R84). -/
abbrev Byte := BitVec 8

/-- A byte offset in the host register space, 0x000 to 0xFFF (R6 `ABUS`, R80). -/
abbrev Offset := BitVec 12

end Sys2Proof
end

