-- ==== Sys2Proof/Syntax.lean ====
section
/-! DEFINITION. What the block is told: its sixteen commands (30_encoding.md R121), the names of its
host registers (10_state.md R31, R51), the host's bus transactions (20_memory.md R81, R82) and the turns
the agents take (R79, R360). -/

namespace Sys2Proof

/-- The channel a command of class channel acts on (R122): 0 = left, 1 = right. -/
inductive Channel where
  | left
  | right
deriving DecidableEq, Repr

/-- The smoothed parameter and follower a command of class param acts on (R58, R122):
0 = delay left, 1 = delay right, 2 = depth, 3 = rate. -/
inductive Param where
  | delayLeft
  | delayRight
  | depth
  | rate
deriving DecidableEq, Repr

/-- The commands, one constructor per row of spec/opcode_table.json (R121). -/
inductive Instr where
  | nop
  | prepare
  | release
  | blockStart
  | frame
  | dlConfigure (c : Channel)
  | dlWrite (c : Channel)
  | dlRead (c : Channel)
  | spReset (k : Param)
  | spInit (k : Param)
  | spSetTarget (k : Param)
  | spNext (k : Param)
  | opStep (k : Param)
  | lfoAdvance (c : Channel)
  | sinEval
  | mix
deriving DecidableEq, Repr

/-- How `UNIT` is decoded (R121, R122). -/
inductive UnitClass where
  | none
  | channel
  | param
deriving DecidableEq, Repr

/-- The number of a channel: the value of its `UNIT` field (R122). -/
def Channel.index : Channel → Nat
  | .left => 0
  | .right => 1

/-- The number `k` of a smoothed parameter: the value of its `UNIT` field (R58, R122). -/
def Param.index : Param → Nat
  | .delayLeft => 0
  | .delayRight => 1
  | .depth => 2
  | .rate => 3

/-- The words of the state view (R51). The words that read 0 are named too: `gap` is 0x138 and 0x13C,
`spGap k` is 0x140 + 0x20·k + 0x1C. -/
inductive ViewWord where
  | sr
  | maxBlock
  | coefDelay
  | coefMod
  | blockIdx
  | snapSwitches
  | snapDryWet
  | snapDepthScale
  | cap (c : Channel)
  | cursor (c : Channel)
  | phase (c : Channel)
  | gap (c : Channel)
  | spCur (k : Param)
  | spTgt (k : Param)
  | spStep (k : Param)
  | spCnt (k : Param)
  | spN (k : Param)
  | ops (k : Param)
  | snapT (k : Param)
  | spGap (k : Param)
deriving DecidableEq, Repr

/-- The host registers by name (R31), the state view (R51) among them. -/
inductive Reg where
  | id
  | version
  | cmd
  | status
  | arg0
  | arg1
  | arg2
  | result
  | paramDelayL
  | paramDelayR
  | paramDepth
  | paramRate
  | paramSwitches
  | cfgSampleRate
  | cfgMaxBlock
  | cfgRampDelay
  | cfgRampMod
  | cfgTauDelay
  | cfgTauMod
  | cfgDryWet
  | cfgDepthScale
  | cfgMode
  | cfgPhase0L
  | cfgPhase0R
  | inL
  | inR
  | outL
  | outR
  | view (v : ViewWord)
deriving DecidableEq, Repr

/-- The width of a bus access. Only `word` exists on this bus (R83); the others are here so that a
transaction the spec refuses can be written down. -/
inductive AccessSize where
  | byte
  | half
  | word
  | wide
deriving DecidableEq, Repr

/-- One host transaction (R81, R82): `BusWrite(off, v)` or `BusRead(off)`, with the access width (R83). -/
inductive Transaction where
  | write (size : AccessSize) (off : Offset) (v : Word)
  | read (size : AccessSize) (off : Offset)
deriving DecidableEq, Repr

/-- Whose turn it is (R79): a host transaction, the engine (executing the pending command, if there is
one), or the system's reset event (R360), with the `CMD` word that is written at the same time as the
reset, if any, and is lost (R362). -/
inductive Turn where
  | host (t : Transaction)
  | engine
  | reset (lostCmd : Option Word)
deriving DecidableEq, Repr

end Sys2Proof
end

