-- ==== Sys2Proof/WellFormed.lean ====
section
/-! DEFINITION. What a command word's `UNIT` field and a bus transaction must satisfy (30_encoding.md R122,
R123; 20_memory.md R83). A term of `Instr` names its unit by a constructor, so it always fits its class; the
checks that can fail are the ones on raw fields. -/

namespace Sys2Proof

/-- The class of each command (R121, third column). -/
def Instr.unitClass : Instr → UnitClass
  | .nop => .none
  | .prepare => .none
  | .release => .none
  | .blockStart => .none
  | .frame => .none
  | .dlConfigure _ => .channel
  | .dlWrite _ => .channel
  | .dlRead _ => .channel
  | .spReset _ => .param
  | .spInit _ => .param
  | .spSetTarget _ => .param
  | .spNext _ => .param
  | .opStep _ => .param
  | .lfoAdvance _ => .channel
  | .sinEval => .none
  | .mix => .none

/-- The value of each command's `UNIT` field (R122). -/
def Instr.unit : Instr → Nat
  | .nop => 0
  | .prepare => 0
  | .release => 0
  | .blockStart => 0
  | .frame => 0
  | .dlConfigure c => c.index
  | .dlWrite c => c.index
  | .dlRead c => c.index
  | .spReset k => k.index
  | .spInit k => k.index
  | .spSetTarget k => k.index
  | .spNext k => k.index
  | .opStep k => k.index
  | .lfoAdvance c => c.index
  | .sinEval => 0
  | .mix => 0

/-- The units each class accepts (R122). -/
def UnitClass.accepts : UnitClass → Nat → Bool
  | .none, u => u == 0
  | .channel, u => decide (u ≤ 1)
  | .param, u => decide (u ≤ 3)

/-- A command is well formed when its unit is one its class accepts (R122). -/
def Instr.wellFormed (i : Instr) : Bool := i.unitClass.accepts i.unit

/-- An access that exists on this bus (R83): 32 bits wide, at an offset that is a multiple of 4. -/
def accessExists (size : AccessSize) (off : Offset) : Bool :=
  size == .word && off.toNat % 4 == 0

/-- A transaction that is part of the model's input language (R83). -/
def Transaction.wellFormed : Transaction → Bool
  | .write size off _ => accessExists size off
  | .read size off => accessExists size off

end Sys2Proof
end

