-- ==== Sys2Proof/Decode.lean ====
section
/-! DEFINITION. The decoder and the encoder of command words (30_encoding.md), both total. The decoder is the
pseudocode of R130 over the opcode list of R121; the encoder is R131; `opcodeTable` is the match and mask form of
the same table (R130, R131, spec/opcode_table.json). -/

namespace Sys2Proof

/-- Why a word is no command (R126): each way R130's decoder answers ILLEGAL. -/
inductive Illegal where
  /-- Bits 31:10 are not all 0 (R123). -/
  | reservedBits
  /-- `OPC` is not in the table of R121. -/
  | unassignedOpcode
  /-- `OPC` is of class none and `UNIT` is not 0 (R122). -/
  | unitNotZero
  /-- `OPC` is of class channel and `UNIT` is 2 or 3 (R122). -/
  | unitNoChannel
deriving DecidableEq, Repr

/-- Field `OPC`, bits 7:0 (R120). -/
def opcField (v : Word) : BitVec 8 := v.extractLsb' 0 8

/-- Field `UNIT`, bits 9:8 (R120). -/
def unitField (v : Word) : BitVec 2 := v.extractLsb' 8 2

/-- The reserved field, bits 31:10 (R123). -/
def reservedField (v : Word) : BitVec 22 := v.extractLsb' 10 22

/-- A command of class none: `UNIT` must be 0 (R122). -/
def decodeClassNone (unit : BitVec 2) (i : Instr) : Except Illegal Instr :=
  if unit.toNat = 0 then .ok i else .error .unitNotZero

/-- A command of class channel: `UNIT` 0 is left, 1 is right (R122). -/
def decodeClassChannel (unit : BitVec 2) (f : Channel → Instr) : Except Illegal Instr :=
  match unit.toNat with
  | 0 => .ok (f .left)
  | 1 => .ok (f .right)
  | _ => .error .unitNoChannel

/-- The parameter a `UNIT` field selects (R58, R122). -/
def Param.ofUnit (unit : BitVec 2) : Param :=
  match unit.toNat with
  | 0 => .delayLeft
  | 1 => .delayRight
  | 2 => .depth
  | _ => .rate

/-- A command of class param: every `UNIT` selects a parameter (R122). -/
def decodeClassParam (unit : BitVec 2) (f : Param → Instr) : Except Illegal Instr :=
  .ok (f (Param.ofUnit unit))

/-- The table of R121: the operation of each `OPC`, with its class deciding how `UNIT` is read. -/
def decodeFields (opc : BitVec 8) (unit : BitVec 2) : Except Illegal Instr :=
  match opc.toNat with
  | 0x00 => decodeClassNone unit .nop
  | 0x01 => decodeClassNone unit .prepare
  | 0x02 => decodeClassNone unit .release
  | 0x03 => decodeClassNone unit .blockStart
  | 0x04 => decodeClassNone unit .frame
  | 0x10 => decodeClassChannel unit .dlConfigure
  | 0x11 => decodeClassChannel unit .dlWrite
  | 0x12 => decodeClassChannel unit .dlRead
  | 0x20 => decodeClassParam unit .spReset
  | 0x21 => decodeClassParam unit .spInit
  | 0x22 => decodeClassParam unit .spSetTarget
  | 0x23 => decodeClassParam unit .spNext
  | 0x28 => decodeClassParam unit .opStep
  | 0x30 => decodeClassChannel unit .lfoAdvance
  | 0x31 => decodeClassNone unit .sinEval
  | 0x38 => decodeClassNone unit .mix
  | _ => .error .unassignedOpcode

/-- R130: the decoder, total on every 32-bit word. -/
def decode (v : Word) : Except Illegal Instr :=
  if reservedField v = 0 then decodeFields (opcField v) (unitField v) else .error .reservedBits

/-- The `OPC` of each command (R121). -/
def Instr.opc : Instr → Nat
  | .nop => 0x00
  | .prepare => 0x01
  | .release => 0x02
  | .blockStart => 0x03
  | .frame => 0x04
  | .dlConfigure _ => 0x10
  | .dlWrite _ => 0x11
  | .dlRead _ => 0x12
  | .spReset _ => 0x20
  | .spInit _ => 0x21
  | .spSetTarget _ => 0x22
  | .spNext _ => 0x23
  | .opStep _ => 0x28
  | .lfoAdvance _ => 0x30
  | .sinEval => 0x31
  | .mix => 0x38

/-- R131: the encoding of a command is `(u << 8) | OPC(m)`. -/
def encode (i : Instr) : Word :=
  (BitVec.ofNat 32 i.unit <<< 8) ||| BitVec.ofNat 32 i.opc

/-- One row of the opcode table: a word selects it exactly when `word & mask = pattern` (R130). -/
structure OpcodeRow where
  mnemonic : String
  pattern : Word
  mask : Word
deriving DecidableEq, Repr

/-- spec/opcode_table.json, row by row (R121, R131). -/
def opcodeTable : List OpcodeRow := [
  ⟨"NOP", 0x00000000#32, 0xFFFFFFFF#32⟩,
  ⟨"PREPARE", 0x00000001#32, 0xFFFFFFFF#32⟩,
  ⟨"RELEASE", 0x00000002#32, 0xFFFFFFFF#32⟩,
  ⟨"BLOCK_START", 0x00000003#32, 0xFFFFFFFF#32⟩,
  ⟨"FRAME", 0x00000004#32, 0xFFFFFFFF#32⟩,
  ⟨"DL_CONFIGURE", 0x00000010#32, 0xFFFFFEFF#32⟩,
  ⟨"DL_WRITE", 0x00000011#32, 0xFFFFFEFF#32⟩,
  ⟨"DL_READ", 0x00000012#32, 0xFFFFFEFF#32⟩,
  ⟨"SP_RESET", 0x00000020#32, 0xFFFFFCFF#32⟩,
  ⟨"SP_INIT", 0x00000021#32, 0xFFFFFCFF#32⟩,
  ⟨"SP_SETTARGET", 0x00000022#32, 0xFFFFFCFF#32⟩,
  ⟨"SP_NEXT", 0x00000023#32, 0xFFFFFCFF#32⟩,
  ⟨"OP_STEP", 0x00000028#32, 0xFFFFFCFF#32⟩,
  ⟨"LFO_ADVANCE", 0x00000030#32, 0xFFFFFEFF#32⟩,
  ⟨"SIN_EVAL", 0x00000031#32, 0xFFFFFFFF#32⟩,
  ⟨"MIX", 0x00000038#32, 0xFFFFFFFF#32⟩]

/-- A word selects a row (R130). -/
def OpcodeRow.selectedBy (r : OpcodeRow) (v : Word) : Bool := v &&& r.mask == r.pattern

/-- The mnemonic of each command (R121). -/
def Instr.mnemonic : Instr → String
  | .nop => "NOP"
  | .prepare => "PREPARE"
  | .release => "RELEASE"
  | .blockStart => "BLOCK_START"
  | .frame => "FRAME"
  | .dlConfigure _ => "DL_CONFIGURE"
  | .dlWrite _ => "DL_WRITE"
  | .dlRead _ => "DL_READ"
  | .spReset _ => "SP_RESET"
  | .spInit _ => "SP_INIT"
  | .spSetTarget _ => "SP_SETTARGET"
  | .spNext _ => "SP_NEXT"
  | .opStep _ => "OP_STEP"
  | .lfoAdvance _ => "LFO_ADVANCE"
  | .sinEval => "SIN_EVAL"
  | .mix => "MIX"

/-- The command word whose bits are `w`, of which the table numbers the lowest `nbits`; the bits above are 0.
A command is one 32-bit word (R120), so a number that needs more is no command word. -/
def tableWord (nbits w : Nat) : Option Word :=
  let v := w % 2 ^ nbits
  if v < 2 ^ 32 then some (BitVec.ofNat 32 v) else none

/-- The host's question: the instruction the decoder reads from a table row's bits. -/
def decodeTableWord (nbits w : Nat) : Option Instr :=
  match tableWord nbits w with
  | none => none
  | some v =>
    match decode v with
    | .ok i => some i
    | .error _ => none

end Sys2Proof
end

