-- ==== Sys2Proof/Config.lean ====
section
/-! DEFINITION. What an implementation fixes and the spec leaves open (00_scope.md R6, R16): the sine and
exponential units and the free draws, as constants with no body, and the numbers R6 gives. -/

namespace Sys2Proof

/-- The sine unit's raw result (R224). It is a total function of its argument alone; nothing else is assumed,
no accuracy `SIN_ERR` either. Read it through `Machine.sin32`, which gives the NaN pattern of R10. -/
opaque Config.sin32Raw : Word → Word

/-- The exponential's raw result (R196): a total function of its argument alone. Read it through
`Machine.exp32`, which gives the NaN pattern of R10. -/
opaque Config.exp32Raw : Word → Word

/-- The free draws (R93, R156, R334): draw number `n` is any word. -/
opaque Config.freeWord : Nat → Word

/-- The default of `MEM_DEPTH` (R6, D14): 2^18 words per channel. -/
def Config.defaultMemDepth : Nat := 262144

/-- The value `ID` reads (R32). -/
def Config.idValue : Word := 0x43484F52#32

/-- The value `VERSION` reads (R32). -/
def Config.versionValue : Word := 0x00000007#32

end Sys2Proof
end

