-- ==== Sys2Proof/Machine/State.lean ====
section
/-! DEFINITION. The state of the block as plain data (10_state.md), the state after reset
(70_reset_and_hazards.md R360, R361), and the reasons a step can stop. -/

namespace Sys2Proof.Machine

/-- One value for each channel (R55, R59, R62). -/
structure PerChannel (α : Type) where
  left : α
  right : α
deriving DecidableEq, Repr

/-- One value for each smoothed parameter `k` = 0 to 3 (R56, R57, R58). -/
structure PerParam (α : Type) where
  delayLeft : α
  delayRight : α
  depth : α
  rate : α
deriving DecidableEq, Repr

/-- The delay RAM of one channel as (byte address, byte) pairs: word index `i` is the four bytes 4·i to 4·i + 3,
low lane first (R84, R86; log 6). Addresses rise strictly, and a byte that reads as an unlisted one does
(`Machine.unlistedByte`) is not listed. -/
abbrev Memory := List Host.Cell

/-- The host registers that hold a value (R31, R35 to R50), by their names in R31. -/
structure HostRegs where
  arg0 : Word
  arg1 : Word
  arg2 : Word
  result : Word
  paramDelayL : Word
  paramDelayR : Word
  paramDepth : Word
  paramRate : Word
  paramSwitches : Word
  cfgSampleRate : Word
  cfgMaxBlock : Word
  cfgRampDelay : Word
  cfgRampMod : Word
  cfgTauDelay : Word
  cfgTauMod : Word
  cfgDryWet : Word
  cfgDepthScale : Word
  cfgMode : Word
  cfgPhase0L : Word
  cfgPhase0R : Word
  inL : Word
  inR : Word
  outL : Word
  outR : Word
deriving DecidableEq, Repr

/-- One delay line `c` (R55): capacity (0 = unconfigured), write cursor and delay RAM. -/
structure DelayLine where
  cap : Word
  cursor : Word
  ram : Memory
deriving DecidableEq, Repr

/-- One smoothed parameter `k` (R56): current value, target, per-step increment, steps left, ramp length. -/
structure Smoothed where
  cur : Word
  tgt : Word
  step : Word
  cnt : Word
  n : Word
deriving DecidableEq, Repr

/-- The snapshot (R54). -/
structure Snapshot where
  targets : PerParam Word
  dual : Bool
  chorus : Bool
  idxTerm : Bool
  dryWet : Word
  depthScale : Word
deriving DecidableEq, Repr

/-- The command in flight (R61, R89): the command word and the copy of every host register taken at its issue,
`STATUS` among them (log 15). -/
structure Pending where
  word : Word
  regs : HostRegs
  status : Word
deriving DecidableEq, Repr

/-- The state of the block: the host registers (10_state.md section 2), the engine state `S` (section 3), and the
model's own fields `memDepth` (log 4), `draws` (log 9), `agenda` (log 2) and `reads` (log 13). -/
structure State where
  /-- The implementation parameter `MEM_DEPTH` (R6): words of delay RAM per channel. No step changes it. -/
  memDepth : Nat
  regs : HostRegs
  /-- The sticky error bits, `STATUS` bits 14:8 (R34): bit `i` here is `STATUS` bit 8 + `i`. -/
  errors : BitVec 7
  busy : Bool
  prepared : Bool
  /-- `S.SR` (R53), read as an int32. -/
  sampleRate : Word
  /-- `S.SRf` (R53), binary32. -/
  sampleRateF : Word
  maxBlock : Word
  coefD : Word
  coefM : Word
  snap : Snapshot
  lines : PerChannel DelayLine
  sp : PerParam Smoothed
  ops : PerParam Word
  phase : PerChannel Word
  blockIdx : Word
  pending : Option Pending
  /-- How many free draws have been taken (R93, R334). -/
  draws : Nat
  /-- The turns to come, first one first (R79). With none listed the engine has the turn. -/
  agenda : List Turn
  /-- What the bus reads returned, oldest first (R82). -/
  reads : List Word
deriving DecidableEq, Repr

/-- The reasons the machine stops with a fault. -/
inductive Fault where
  /-- Raised by a delay-RAM access at a word index that is not below `MEM_DEPTH` (R86: such a word does not
  exist). R55's invariant excludes it, so no run from reset meets it. Safe (log 12). -/
  | delayRamIndex
  /-- Raised by a write into a delay line of capacity 0 (R152 defines it for `S.cap[c] > 0`; D41: a modulus by 0
  has no meaning). `DL_WRITE` and `FRAME` check before they write, so no run from reset meets it. Safe (log 12). -/
  | lineUnconfigured
deriving DecidableEq, Repr

/-- The reasons the machine refuses. -/
inductive Refusal where
  /-- Raised by `exec`'s arm of an instruction with no meaning yet; no arm raises it. Safe. -/
  | notModelled (mnemonic : String)
  /-- Raised by a bus access that is not 32 bits wide at a multiple of 4 (R83: "a model refuses the transaction").
  No command raises it. Safe (log 10). -/
  | busAccessUnsupported
deriving DecidableEq, Repr

/-- The host registers right after reset (R31, R360). -/
def HostRegs.reset : HostRegs where
  arg0 := 0x00000000#32
  arg1 := 0x00000000#32
  arg2 := 0x00000000#32
  result := 0x00000000#32
  paramDelayL := 0x00000019#32
  paramDelayR := 0x0000000F#32
  paramDepth := 0x3E800000#32
  paramRate := 0x3FC00000#32
  paramSwitches := 0x00000001#32
  cfgSampleRate := 0x00000000#32
  cfgMaxBlock := 0x00000000#32
  cfgRampDelay := 0x3D4CCCCD#32
  cfgRampMod := 0x3D4CCCCD#32
  cfgTauDelay := 0x3DCCCCCD#32
  cfgTauMod := 0x3C23D70A#32
  cfgDryWet := 0x3F800000#32
  cfgDepthScale := 0x3F800000#32
  cfgMode := 0x00000001#32
  cfgPhase0L := 0x00000000#32
  cfgPhase0R := 0x00000000#32
  inL := 0x00000000#32
  inR := 0x00000000#32
  outL := 0x00000000#32
  outR := 0x00000000#32

/-- A delay line right after reset (R55), with no byte of its RAM listed (log 5). -/
def DelayLine.reset : DelayLine where
  cap := 0#32
  cursor := 0#32
  ram := []

/-- A smoothed parameter right after reset (R56). -/
def Smoothed.reset : Smoothed where
  cur := 0#32
  tgt := 0#32
  step := 0#32
  cnt := 0#32
  n := 1#32

/-- The snapshot right after reset (R54). -/
def Snapshot.reset : Snapshot where
  targets := ⟨0x41C80000#32, 0x41700000#32, 0x3E800000#32, 0x3FC00000#32⟩
  dual := true
  chorus := false
  idxTerm := true
  dryWet := 0x3F800000#32
  depthScale := 0x3F800000#32

/-- The block right after reset (R360, R361; 10_state.md section 4). -/
def State.reset : State where
  memDepth := Config.defaultMemDepth
  regs := HostRegs.reset
  errors := 0#7
  busy := false
  prepared := false
  sampleRate := 0#32
  sampleRateF := 0#32
  maxBlock := 0#32
  coefD := 0#32
  coefM := 0#32
  snap := Snapshot.reset
  lines := ⟨DelayLine.reset, DelayLine.reset⟩
  sp := ⟨Smoothed.reset, Smoothed.reset, Smoothed.reset, Smoothed.reset⟩
  ops := ⟨0#32, 0#32, 0#32, 0#32⟩
  phase := ⟨0#32, 0#32⟩
  blockIdx := 0#32
  pending := none
  draws := 0
  agenda := []
  reads := []

end Sys2Proof.Machine
end

