-- ==== Sys2Proof/Machine/Flags.lean ====
section
/-! DEFINITION. The status register (10_state.md R34) and the error causes (60_exceptions.md R320): which bit each
error has, what `STATUS` reads, and which bits a host write clears. -/

namespace Sys2Proof.Machine

/-- The block's errors (R320). -/
inductive Error where
  | illegalCmd
  | overrun
  | notPrepared
  | unconfigured
  | invalidCapacity
  | invalidRamp
  | range
deriving DecidableEq, Repr

/-- An error's code is its bit number in `STATUS` (R320). -/
def Error.code : Error → Nat
  | .illegalCmd => 8
  | .overrun => 9
  | .notPrepared => 10
  | .unconfigured => 11
  | .invalidCapacity => 12
  | .invalidRamp => 13
  | .range => 14

/-- An error's bit in the field `errors`, whose bit 0 is `STATUS` bit 8 (R34). -/
def Error.mask (e : Error) : BitVec 7 := 1#7 <<< (e.code - 8)

/-- The value of `STATUS` (R34): `BUSY`, `PREPARED`, the error bits, and 0 everywhere else. -/
def statusWord (busy prepared : Bool) (errors : BitVec 7) : Word :=
  (errors.setWidth 32 <<< 8) ||| ((BitVec.ofBool prepared).setWidth 32 <<< 1) |||
    (BitVec.ofBool busy).setWidth 32

/-- Raising an error sets its bit and no other (R323). -/
def raiseBit (errors : BitVec 7) (e : Error) : BitVec 7 := errors ||| e.mask

/-- A host write of `v` clears each error bit `i` in 8 to 14 with `v[i] = 1` (R34, R324). -/
def clearBits (errors : BitVec 7) (v : Word) : BitVec 7 := errors &&& ~~~(v.extractLsb' 8 7)

end Sys2Proof.Machine
end

