-- ==== Sys2Proof/Machine/Operands.lean ====
section
/-! DEFINITION. How a command reads its operands (30_encoding.md R124; 00_scope.md R8): from the copy of the host
registers taken at its issue, as an int32, a uint32 or a binary32 pattern. -/

namespace Sys2Proof.Machine

/-- `sint(v)` (R8). -/
abbrev sint (v : Word) : Int := v.toInt

/-- A register read as a uint32 (R8). -/
abbrev uint (v : Word) : Nat := v.toNat

/-- A uint32 from a number below 2^32 (R8). -/
abbrev toWord (n : Nat) : Word := BitVec.ofNat 32 n

/-- The copy of the host registers a command reads (R61, R92). With no command in flight (a state `step` never runs
a command from) it is the registers as they stand, the copy an issue would take now (log 11). -/
def State.operands (s : State) : HostRegs :=
  match s.pending with
  | some p => p.regs
  | none => s.regs

/-- `CFG_PHASE0_L` and `CFG_PHASE0_R` by channel (R50). -/
def HostRegs.phase0 (r : HostRegs) : Channel → Word
  | .left => r.cfgPhase0L
  | .right => r.cfgPhase0R

/-- `IN_L` and `IN_R` by channel (R37). -/
def HostRegs.input (r : HostRegs) : Channel → Word
  | .left => r.inL
  | .right => r.inR

/-- The ramp-time register of `k` (R45, R58). -/
def HostRegs.rampTime (r : HostRegs) : Param → Word
  | .delayLeft => r.cfgRampDelay
  | .delayRight => r.cfgRampDelay
  | .depth => r.cfgRampMod
  | .rate => r.cfgRampMod

/-- `PARAM_SWITCHES` bit 0, `DUAL_DELAY` (R42). -/
def HostRegs.dualDelay (r : HostRegs) : Bool := r.paramSwitches.getLsbD 0

/-- `PARAM_SWITCHES` bit 1, `CHORUS` (R42). -/
def HostRegs.chorusOn (r : HostRegs) : Bool := r.paramSwitches.getLsbD 1

/-- `CFG_MODE` bit 0, `LFO_IDX_TERM` (R49). -/
def HostRegs.lfoIdxTerm (r : HostRegs) : Bool := r.cfgMode.getLsbD 0

end Sys2Proof.Machine
end

