-- ==== Sys2Proof/Machine/Ops.lean ====
section
/-! DEFINITION. The named operations every meaning is made of: the banks of per-channel and per-parameter state, the
delay RAM (20_memory.md R86), raising an error (60_exceptions.md R321, R323: the block's one exception mechanism; it has
no trap and no return from one, R325), free draws, and the completion of a command (R92). -/

namespace Sys2Proof.Machine

/-! ### Banks -/

/-- The value of channel `c`. -/
def PerChannel.get {α : Type} (p : PerChannel α) : Channel → α
  | .left => p.left
  | .right => p.right

/-- The bank with channel `c`'s value replaced. -/
def PerChannel.set {α : Type} (p : PerChannel α) (c : Channel) (v : α) : PerChannel α :=
  match c with
  | .left => { p with left := v }
  | .right => { p with right := v }

/-- The value of parameter `k`. -/
def PerParam.get {α : Type} (p : PerParam α) : Param → α
  | .delayLeft => p.delayLeft
  | .delayRight => p.delayRight
  | .depth => p.depth
  | .rate => p.rate

/-- The bank with parameter `k`'s value replaced. -/
def PerParam.set {α : Type} (p : PerParam α) (k : Param) (v : α) : PerParam α :=
  match k with
  | .delayLeft => { p with delayLeft := v }
  | .delayRight => { p with delayRight := v }
  | .depth => { p with depth := v }
  | .rate => { p with rate := v }

/-- The parameter that is channel `c`'s delay time (R58: 0 = delay time left, 1 = delay time right). -/
def delayParam : Channel → Param
  | .left => .delayLeft
  | .right => .delayRight

/-! ### The delay RAM -/

/-- What a byte that is not listed reads as (log 5): R363 lets a model give the RAM any contents at reset. -/
def unlistedByte : Byte := 0#8

/-- The byte at an address. -/
def Memory.readByte : Memory → Nat → Byte
  | [], _ => unlistedByte
  | (a, b) :: rest, x => if a = x then b else Memory.readByte rest x

/-- The byte at an address replaced, keeping the canonical form: addresses rise strictly and no listed byte is
`unlistedByte`. -/
def Memory.writeByte : Memory → Nat → Byte → Memory
  | [], x, v => if v = unlistedByte then [] else [(x, v)]
  | (a, b) :: rest, x, v =>
    if x < a then (if v = unlistedByte then (a, b) :: rest else (x, v) :: (a, b) :: rest)
    else if a = x then (if v = unlistedByte then rest else (x, v) :: rest)
    else (a, b) :: Memory.writeByte rest x v

/-- Every listed address is at least `lo`, addresses rise strictly, and no listed byte is `unlistedByte`. -/
def Memory.wfFrom : Memory → Nat → Bool
  | [], _ => true
  | (a, b) :: rest, lo => decide (lo ≤ a) && b != unlistedByte && Memory.wfFrom rest (a + 1)

/-- The canonical form: equal memories are equal lists. -/
def Memory.wf (m : Memory) : Bool := Memory.wfFrom m 0

/-- The word at index `i`: its four byte lanes, lane `j` in bits 8j+7 : 8j (R84). -/
def Memory.readWord (m : Memory) (i : Nat) : Word :=
  m.readByte (4 * i + 3) ++ m.readByte (4 * i + 2) ++ m.readByte (4 * i + 1) ++ m.readByte (4 * i)

/-- Byte lane `j` of a word (R84). -/
def lane (v : Word) (j : Nat) : Byte := v.extractLsb' (8 * j) 8

/-- The word at index `i` replaced, bit for bit (R86). -/
def Memory.writeWord (m : Memory) (i : Nat) (v : Word) : Memory :=
  (((m.writeByte (4 * i) (lane v 0)).writeByte (4 * i + 1) (lane v 1)).writeByte
    (4 * i + 2) (lane v 2)).writeByte (4 * i + 3) (lane v 3)

/-- Words 0 to `n` - 1 made 0x00000000 (R151's loop), in one pass: their bytes are no longer listed (log 17). -/
def Memory.zeroFill (m : Memory) (n : Nat) : Memory :=
  m.filter (fun cell => decide (4 * n ≤ cell.1))

/-- `MemRead((c, i), 4)` (R86), defined only for `i < MEM_DEPTH`. -/
def memRead (depth : Nat) (m : Memory) (i : Nat) : Except Fault Word :=
  if i < depth then .ok (m.readWord i) else .error .delayRamIndex

/-- `MemWrite((c, i), 4, v)` (R86), defined only for `i < MEM_DEPTH`. -/
def memWrite (depth : Nat) (m : Memory) (i : Nat) (v : Word) : Except Fault Memory :=
  if i < depth then .ok (m.writeWord i v) else .error .delayRamIndex

/-! ### Errors, draws, results, completion -/

/-- `raise Error(E)` (R15, R323): the sticky bit of `e` is set. A blocking error's command has this as its only
effect (R321); after a non-blocking one the command goes on. -/
def State.raise (s : State) (e : Error) : State := { s with errors := raiseBit s.errors e }

/-- Raise `e` if `b` holds. -/
def State.raiseIf (s : State) (b : Bool) (e : Error) : State := if b then s.raise e else s

/-- A free draw (R93, R156): the word is unspecified, and the next draw is another one. -/
def State.draw (s : State) : State × Word :=
  ({ s with draws := s.draws + 1 }, Config.freeWord s.draws)

/-- `x[RESULT] <- v` (R36). -/
def State.setResult (s : State) (v : Word) : State := { s with regs := { s.regs with result := v } }

/-- `x[OUT_L] <- v` or `x[OUT_R] <- v` (R37). -/
def State.setOut (s : State) (c : Channel) (v : Word) : State :=
  match c with
  | .left => { s with regs := { s.regs with outL := v } }
  | .right => { s with regs := { s.regs with outR := v } }

/-- `S.sp[k] <- p` (R56). -/
def State.setSp (s : State) (k : Param) (p : Smoothed) : State := { s with sp := s.sp.set k p }

/-- `S.ops[k] <- v` (R57). -/
def State.setOps (s : State) (k : Param) (v : Word) : State := { s with ops := s.ops.set k v }

/-- `S.phase[c] <- v` (R59). -/
def State.setPhase (s : State) (c : Channel) (v : Word) : State := { s with phase := s.phase.set c v }

/-- Delay line `c` replaced (R55). -/
def State.setLine (s : State) (c : Channel) (l : DelayLine) : State := { s with lines := s.lines.set c l }

/-- The value of `STATUS` in a state (R34). -/
def State.status (s : State) : Word := statusWord s.busy s.prepared s.errors

/-- A command's issue (R89) when the engine is free: the word is latched with the copy of the host registers. -/
def State.latch (s : State) (v : Word) : State :=
  { s with pending := some ⟨v, s.regs, s.status⟩, busy := true }

/-- A command's completion (R92). -/
def State.complete (s : State) : State := { s with pending := none, busy := false }

/-- The command the engine would execute (R92, R130): the pending word, decoded when it is executed and not before
(R96). -/
def State.fetch (s : State) : Option (Except Illegal Instr) :=
  match s.pending with
  | none => none
  | some p => some (decode p.word)

/-- A procedure's answer as the outcome of a step. -/
def outcomeOf (r : Except Fault State) : Host.Outcome State Fault Refusal :=
  match r with
  | .ok s => .next s
  | .error f => .fault f

end Sys2Proof.Machine
end

