-- ==== Sys2Proof/Machine/Bus.lean ====
section
/-! DEFINITION. The host's bus (20_memory.md R80 to R89, R93): the register map of 10_state.md R31 and R51, bus write,
bus read, and the issue of a command. -/

namespace Sys2Proof.Machine

/-- The parameters in the order of their numbers (R58). -/
def allParams : List Param := [.delayLeft, .delayRight, .depth, .rate]

/-- The byte offset of a state-view word (R51). -/
def viewOffset : ViewWord → Nat
  | .sr => 0x100
  | .maxBlock => 0x104
  | .coefDelay => 0x108
  | .coefMod => 0x10C
  | .blockIdx => 0x110
  | .snapSwitches => 0x114
  | .snapDryWet => 0x118
  | .snapDepthScale => 0x11C
  | .cap c => 0x120 + 8 * c.index
  | .cursor c => 0x124 + 8 * c.index
  | .phase c => 0x130 + 4 * c.index
  | .gap c => 0x138 + 4 * c.index
  | .spCur k => 0x140 + 0x20 * k.index
  | .spTgt k => 0x144 + 0x20 * k.index
  | .spStep k => 0x148 + 0x20 * k.index
  | .spCnt k => 0x14C + 0x20 * k.index
  | .spN k => 0x150 + 0x20 * k.index
  | .ops k => 0x154 + 0x20 * k.index
  | .snapT k => 0x158 + 0x20 * k.index
  | .spGap k => 0x15C + 0x20 * k.index

/-- The byte offset of a host register (R31). -/
def regOffset : Reg → Nat
  | .id => 0x000
  | .version => 0x004
  | .cmd => 0x008
  | .status => 0x00C
  | .arg0 => 0x010
  | .arg1 => 0x014
  | .arg2 => 0x018
  | .result => 0x01C
  | .paramDelayL => 0x020
  | .paramDelayR => 0x024
  | .paramDepth => 0x028
  | .paramRate => 0x02C
  | .paramSwitches => 0x030
  | .cfgSampleRate => 0x040
  | .cfgMaxBlock => 0x044
  | .cfgRampDelay => 0x048
  | .cfgRampMod => 0x04C
  | .cfgTauDelay => 0x050
  | .cfgTauMod => 0x054
  | .cfgDryWet => 0x058
  | .cfgDepthScale => 0x05C
  | .cfgMode => 0x060
  | .cfgPhase0L => 0x064
  | .cfgPhase0R => 0x068
  | .inL => 0x080
  | .inR => 0x084
  | .outL => 0x088
  | .outR => 0x08C
  | .view v => viewOffset v

/-- The host registers of R31 but for the state view. -/
def plainRegs : List Reg :=
  [.id, .version, .cmd, .status, .arg0, .arg1, .arg2, .result,
    .paramDelayL, .paramDelayR, .paramDepth, .paramRate, .paramSwitches,
    .cfgSampleRate, .cfgMaxBlock, .cfgRampDelay, .cfgRampMod, .cfgTauDelay, .cfgTauMod, .cfgDryWet, .cfgDepthScale,
    .cfgMode, .cfgPhase0L, .cfgPhase0R, .inL, .inR, .outL, .outR]

/-- The state-view words that belong to no smoothed parameter (R51). -/
def commonViews : List ViewWord :=
  [.sr, .maxBlock, .coefDelay, .coefMod, .blockIdx, .snapSwitches, .snapDryWet, .snapDepthScale,
    .cap .left, .cursor .left, .cap .right, .cursor .right, .phase .left, .phase .right, .gap .left, .gap .right]

/-- The state-view words of one smoothed parameter (R51). -/
def paramViews (k : Param) : List ViewWord :=
  [.spCur k, .spTgt k, .spStep k, .spCnt k, .spN k, .ops k, .snapT k, .spGap k]

/-- Every word of the state view (R51). -/
def allViews : List ViewWord := List.append commonViews (allParams.flatMap paramViews)

/-- Every host register, the state view included. -/
def allRegs : List Reg := List.append plainRegs (allViews.map Reg.view)

/-- `reg_at(off)` (R81): the register at an offset; none where the offset is unmapped (R85). -/
def regAt (off : Offset) : Option Reg := allRegs.find? (fun r => regOffset r == off.toNat)

/-- The non-reserved bits of `PARAM_SWITCHES` (R42). -/
def switchesMask : Word := 0x00000003#32

/-- The non-reserved bits of `CFG_MODE` (R49). -/
def modeMask : Word := 0x00000001#32

/-- `x[R] <- v` for a read-write register, reserved bits forced to 0 (R63, R81). A register that is not read-write
keeps its value: the two with effects of their own, `CMD` and `STATUS`, are `busWrite`'s. -/
def HostRegs.store (h : HostRegs) : Reg → Word → HostRegs
  | .arg0, v => { h with arg0 := v }
  | .arg1, v => { h with arg1 := v }
  | .arg2, v => { h with arg2 := v }
  | .paramDelayL, v => { h with paramDelayL := v }
  | .paramDelayR, v => { h with paramDelayR := v }
  | .paramDepth, v => { h with paramDepth := v }
  | .paramRate, v => { h with paramRate := v }
  | .paramSwitches, v => { h with paramSwitches := v &&& switchesMask }
  | .cfgSampleRate, v => { h with cfgSampleRate := v }
  | .cfgMaxBlock, v => { h with cfgMaxBlock := v }
  | .cfgRampDelay, v => { h with cfgRampDelay := v }
  | .cfgRampMod, v => { h with cfgRampMod := v }
  | .cfgTauDelay, v => { h with cfgTauDelay := v }
  | .cfgTauMod, v => { h with cfgTauMod := v }
  | .cfgDryWet, v => { h with cfgDryWet := v }
  | .cfgDepthScale, v => { h with cfgDepthScale := v }
  | .cfgMode, v => { h with cfgMode := v &&& modeMask }
  | .cfgPhase0L, v => { h with cfgPhase0L := v }
  | .cfgPhase0R, v => { h with cfgPhase0R := v }
  | .inL, v => { h with inL := v }
  | .inR, v => { h with inR := v }
  | .id, _ => h
  | .version, _ => h
  | .cmd, _ => h
  | .status, _ => h
  | .result, _ => h
  | .outL, _ => h
  | .outR, _ => h
  | .view _, _ => h

/-- What a state-view word shows (R51). -/
def State.viewValue (s : State) : ViewWord → Word
  | .sr => s.sampleRate
  | .maxBlock => s.maxBlock
  | .coefDelay => s.coefD
  | .coefMod => s.coefM
  | .blockIdx => s.blockIdx
  | .snapSwitches =>
    ((BitVec.ofBool s.snap.idxTerm).setWidth 32 <<< 2) ||| ((BitVec.ofBool s.snap.chorus).setWidth 32 <<< 1) |||
      (BitVec.ofBool s.snap.dual).setWidth 32
  | .snapDryWet => s.snap.dryWet
  | .snapDepthScale => s.snap.depthScale
  | .cap c => (s.lines.get c).cap
  | .cursor c => (s.lines.get c).cursor
  | .phase c => s.phase.get c
  | .gap _ => 0#32
  | .spCur k => (s.sp.get k).cur
  | .spTgt k => (s.sp.get k).tgt
  | .spStep k => (s.sp.get k).step
  | .spCnt k => (s.sp.get k).cnt
  | .spN k => (s.sp.get k).n
  | .ops k => s.ops.get k
  | .snapT k => s.snap.targets.get k
  | .spGap _ => 0#32

/-- The current value of a register, reserved bits 0 (R32, R33, R63, R82). -/
def State.regValue (s : State) : Reg → Word
  | .id => Config.idValue
  | .version => Config.versionValue
  | .cmd => 0#32
  | .status => s.status
  | .arg0 => s.regs.arg0
  | .arg1 => s.regs.arg1
  | .arg2 => s.regs.arg2
  | .result => s.regs.result
  | .paramDelayL => s.regs.paramDelayL
  | .paramDelayR => s.regs.paramDelayR
  | .paramDepth => s.regs.paramDepth
  | .paramRate => s.regs.paramRate
  | .paramSwitches => s.regs.paramSwitches &&& switchesMask
  | .cfgSampleRate => s.regs.cfgSampleRate
  | .cfgMaxBlock => s.regs.cfgMaxBlock
  | .cfgRampDelay => s.regs.cfgRampDelay
  | .cfgRampMod => s.regs.cfgRampMod
  | .cfgTauDelay => s.regs.cfgTauDelay
  | .cfgTauMod => s.regs.cfgTauMod
  | .cfgDryWet => s.regs.cfgDryWet
  | .cfgDepthScale => s.regs.cfgDepthScale
  | .cfgMode => s.regs.cfgMode &&& modeMask
  | .cfgPhase0L => s.regs.cfgPhase0L
  | .cfgPhase0R => s.regs.cfgPhase0R
  | .inL => s.regs.inL
  | .inR => s.regs.inR
  | .outL => s.regs.outL
  | .outR => s.regs.outR
  | .view v => s.viewValue v

/-- The registers whose reads are unspecified while the engine is busy (R93). -/
def unstableWhileBusy : Reg → Bool
  | .result => true
  | .outL => true
  | .outR => true
  | .view _ => true
  | .id => false
  | .version => false
  | .cmd => false
  | .status => false
  | .arg0 => false
  | .arg1 => false
  | .arg2 => false
  | .paramDelayL => false
  | .paramDelayR => false
  | .paramDepth => false
  | .paramRate => false
  | .paramSwitches => false
  | .cfgSampleRate => false
  | .cfgMaxBlock => false
  | .cfgRampDelay => false
  | .cfgRampMod => false
  | .cfgTauDelay => false
  | .cfgTauMod => false
  | .cfgDryWet => false
  | .cfgDepthScale => false
  | .cfgMode => false
  | .cfgPhase0L => false
  | .cfgPhase0R => false
  | .inL => false
  | .inR => false

/-- The issue of command word `v` (R89): dropped with `OVERRUN` while busy, latched otherwise. -/
def State.issue (s : State) (v : Word) : State := if s.busy then s.raise .overrun else s.latch v

/-- `BusWrite(off, v)` at an offset that is a multiple of 4 (R81). -/
def State.busWrite (s : State) (off : Offset) (v : Word) : State :=
  match regAt off with
  | none => s
  | some .cmd => s.issue v
  | some .status => { s with errors := clearBits s.errors v }
  | some r => { s with regs := s.regs.store r v }

/-- `BusRead(off)` at an offset that is a multiple of 4 (R82, R93), with the state after it: only a free draw counts
itself. -/
def State.busRead (s : State) (off : Offset) : State × Word :=
  match regAt off with
  | none => (s, 0#32)
  | some r => if s.busy && unstableWhileBusy r then s.draw else (s, s.regValue r)

/-- The host's turn (R79): one transaction. A read's word is added to what the host has read. An access that is not
an aligned 32-bit word is refused (R83). -/
def hostTurn (t : Transaction) (s : State) : Host.Outcome State Fault Refusal :=
  match t with
  | .write size off v =>
    if accessExists size off then .next (s.busWrite off v) else .refused .busAccessUnsupported
  | .read size off =>
    if accessExists size off then
      let r := s.busRead off
      .next { r.1 with reads := r.1.reads ++ [r.2] }
    else .refused .busAccessUnsupported

end Sys2Proof.Machine
end

