-- ==== Sys2Proof/Machine/Float.lean ====
section
/-! DEFINITION. IEEE 754 binary32 as the block uses it (00_scope.md R9 to R13): each operation is computed exactly on
integers, and rounded once at the end (nearest, ties to even, gradual underflow, overflow to infinity, every NaN
result 0x7FC00000). Magnitudes are counted in units of 2^-149, the smallest positive binary32 value: every finite
binary32 value is a whole number of them. -/

namespace Sys2Proof.Machine

/-- The one NaN every operation gives (R10). -/
def quietNaN : Word := 0x7FC00000#32

/-- The pattern of +infinity (R9). -/
def posInf : Word := 0x7F800000#32

/-- The pattern of -0 (R9). -/
def negZero : Word := 0x80000000#32

/-- Sign `v[31]` (R9). -/
def signBit (v : Word) : Bool := v.msb

/-- Biased exponent `v[30:23]` (R9). -/
def expField (v : Word) : Nat := (v.extractLsb' 23 8).toNat

/-- Fraction `v[22:0]` (R9). -/
def fracField (v : Word) : Nat := (v.extractLsb' 0 23).toNat

/-- A NaN pattern (R9). -/
def isNaN (v : Word) : Bool := expField v == 255 && fracField v != 0

/-- An infinity pattern (R9). -/
def isInf (v : Word) : Bool := expField v == 255 && fracField v == 0

/-- A zero, subnormal or normal pattern (R9). -/
def isFinite (v : Word) : Bool := expField v != 255

/-- The magnitude of a finite pattern in units of 2^-149 (R9). On an infinity it is 2^277, above every finite one, so
that comparisons need no case of their own. -/
def magnitude (v : Word) : Nat :=
  if expField v = 0 then fracField v else (2 ^ 23 + fracField v) * 2 ^ (expField v - 1)

/-- The value of a finite pattern in units of 2^-149, with its sign (R9). -/
def scaled (v : Word) : Int := if signBit v then -(magnitude v : Int) else (magnitude v : Int)

/-- A zero of either sign (R9). -/
def isZero (v : Word) : Bool := magnitude v == 0

/-- How many units of 2^-149 make 1. -/
def unitsPerOne : Nat := 2 ^ 149

/-- `num / den` to the nearest whole number, ties to the even one. -/
def divNearestEven (num den : Nat) : Nat :=
  let q := num / den
  let r := num % den
  if 2 * r < den then q
  else if den < 2 * r then q + 1
  else q + q % 2

/-- Bits 30:0 of the binary32 value nearest to `num / den` units of 2^-149 (R10). `k` places the last kept bit: 0
for subnormals and the first binade, so that significand and exponent field come out of one sum; a carry out of the
significand moves into the exponent, and past the last finite value the result is infinity. -/
def roundUnits (num den : Nat) : Nat :=
  let k := Nat.log2 (num / den) - 23
  min (k * 2 ^ 23 + divNearestEven num (den * 2 ^ k)) 0x7F800000

/-- A pattern from its sign and its bits 30:0 (R9). -/
def packFloat (neg : Bool) (bits : Nat) : Word :=
  BitVec.ofNat 32 (if neg then 2 ^ 31 + bits else bits)

/-- The sign flipped (R9). -/
def fneg (v : Word) : Word := v ^^^ negZero

/-- `fadd` (R10). An exact sum of 0 is +0, but for two -0. -/
def fadd (a b : Word) : Word :=
  if isNaN a || isNaN b then quietNaN
  else if isInf a then (if isInf b && signBit a != signBit b then quietNaN else a)
  else if isInf b then b
  else
    let n := scaled a + scaled b
    if n = 0 then packFloat (signBit a && signBit b) 0
    else packFloat (decide (n < 0)) (roundUnits n.natAbs 1)

/-- `fsub` (R10): the sum with the second operand's sign flipped. -/
def fsub (a b : Word) : Word := fadd a (fneg b)

/-- `fmul` (R10). Zero times infinity is NaN. -/
def fmul (a b : Word) : Word :=
  if isNaN a || isNaN b then quietNaN
  else if isInf a || isInf b then
    (if isZero a || isZero b then quietNaN else packFloat (signBit a != signBit b) 0x7F800000)
  else packFloat (signBit a != signBit b) (roundUnits (magnitude a * magnitude b) unitsPerOne)

/-- `fdiv` (R10). Zero over zero and infinity over infinity are NaN; anything else over zero is an infinity. -/
def fdiv (a b : Word) : Word :=
  if isNaN a || isNaN b then quietNaN
  else if isInf a then (if isInf b then quietNaN else packFloat (signBit a != signBit b) 0x7F800000)
  else if isInf b then packFloat (signBit a != signBit b) 0
  else if isZero b then (if isZero a then quietNaN else packFloat (signBit a != signBit b) 0x7F800000)
  else packFloat (signBit a != signBit b) (roundUnits (magnitude a * unitsPerOne) (magnitude b))

/-- `feq` (R11): quiet, and +0 equals -0. -/
def feq (a b : Word) : Bool := !isNaN a && !isNaN b && decide (scaled a = scaled b)

/-- `flt` (R11). -/
def flt (a b : Word) : Bool := !isNaN a && !isNaN b && decide (scaled a < scaled b)

/-- `fle` (R11). -/
def fle (a b : Word) : Bool := !isNaN a && !isNaN b && decide (scaled a ≤ scaled b)

/-- `fgt` (R11). -/
def fgt (a b : Word) : Bool := flt b a

/-- `fge` (R11). -/
def fge (a b : Word) : Bool := fle b a

/-- `i2f(n)` (R12): the binary32 value nearest to the integer `n`, ties to even. -/
def i2f (n : Int) : Word :=
  packFloat (decide (n < 0)) (roundUnits (n.natAbs * unitsPerOne) 1)

/-- `floorToInt(v)` (R12), for a finite `v >= 0`. -/
def floorToInt (v : Word) : Nat := magnitude v / unitsPerOne

/-- `fromInt(n)` (R12), for an `n` that is exactly representable: there nearest is exact. -/
def fromInt (n : Nat) : Word := i2f n

/-- A result of a configuration function with every NaN made 0x7FC00000 (R10). -/
def canonicalNaN (v : Word) : Word := if isNaN v then quietNaN else v

/-- `SIN32` (R16, R224), its NaN results those of R10. -/
def sin32 (v : Word) : Word := canonicalNaN (Config.sin32Raw v)

/-- `EXP32` (R16, R196), its NaN results those of R10. -/
def exp32 (v : Word) : Word := canonicalNaN (Config.exp32Raw v)

/-- The literals of R13. -/
def fOne : Word := 0x3F800000#32
/-- The literal 0.5 (R13). -/
def fHalf : Word := 0x3F000000#32
/-- The literal 1000.0 (R13). -/
def fThousand : Word := 0x447A0000#32
/-- The literal 0 (R13). -/
def fZero : Word := 0x00000000#32
/-- The literal -1.0 of R195. -/
def fMinusOne : Word := 0xBF800000#32
/-- `TWO_PI` (R220). -/
def twoPi : Word := 0x40C90FDB#32

end Sys2Proof.Machine
end

