-- ==== Sys2Proof/Machine/Delay.lean ====
section
/-! DEFINITION. The circular delay buffer and the linear interpolator (41_delay_buffer.md), with the meanings of
`DL_CONFIGURE`, `DL_WRITE` and `DL_READ`. -/

namespace Sys2Proof.Machine

/-- The capacities `DLConfigure` accepts (R151): positive and at most `MEM_DEPTH`. -/
def capacityOk (depth : Nat) (cap : Int) : Bool := decide (0 < cap) && decide (cap ≤ (depth : Int))

/-- `DLConfigure(c, cap)` for an accepted capacity (R151): capacity set, cursor 0, the line's slots zero-filled. -/
def DelayLine.configure (l : DelayLine) (cap : Nat) : DelayLine where
  cap := toWord cap
  cursor := 0#32
  ram := l.ram.zeroFill cap

/-- `DLWrite(c, v)` (R152): store at the cursor, then advance it by one modulo the capacity. -/
def DelayLine.write (depth : Nat) (l : DelayLine) (v : Word) : Except Fault DelayLine :=
  if l.cap = 0#32 then .error .lineUnconfigured
  else
    match memWrite depth l.ram (uint l.cursor) v with
    | .error f => .error f
    | .ok ram => .ok { l with ram := ram, cursor := toWord ((uint l.cursor + 1) % uint l.cap) }

/-- `InRange(d, cap)` (R153): `d` is no NaN and no infinity, and `0 <= d <= cap - 1`, compared exactly. -/
def inRange (d : Word) (cap : Nat) : Bool :=
  isFinite d && decide (0 ≤ scaled d) && decide (scaled d ≤ ((cap : Int) - 1) * unitsPerOne)

/-- The slot at integer delay `n`: `(cursor - n) mod cap` (R154). -/
def DelayLine.slotAt (l : DelayLine) (n : Nat) : Nat :=
  (((uint l.cursor : Int) - (n : Int)) % (uint l.cap : Int)).toNat

/-- `dFrac` (R154). -/
def delayFraction (d : Word) : Word := fsub d (fromInt (floorToInt d))

/-- `Interp(A, B, f)` (R155). -/
def interp (a b f : Word) : Word :=
  if feq f fZero then a else fadd a (fmul f (fsub b a))

/-- The in-range part of `DLRead(c, d)` (R154, R156). -/
def DelayLine.readAt (depth : Nat) (l : DelayLine) (d : Word) : Except Fault Word :=
  match memRead depth l.ram (l.slotAt (floorToInt d)) with
  | .error f => .error f
  | .ok a =>
    match memRead depth l.ram (l.slotAt (floorToInt d + 1)) with
    | .error f => .error f
    | .ok b => .ok (interp a b (delayFraction d))

/-- `DLRead(c, d)` (R156). Out of range it raises `RANGE` and returns a free draw; the run goes on (log 1). -/
def State.dlRead (s : State) (c : Channel) (d : Word) : Except Fault (State × Word) :=
  let l := s.lines.get c
  if inRange d (uint l.cap) then
    match l.readAt s.memDepth d with
    | .error f => .error f
    | .ok y => .ok (s, y)
  else .ok (s.raise .range).draw

/-- `DLWrite(c, v)` on the state (R152). -/
def State.dlWrite (s : State) (c : Channel) (v : Word) : Except Fault State :=
  match (s.lines.get c).write s.memDepth v with
  | .error f => .error f
  | .ok l => .ok (s.setLine c l)

/-- `DL_CONFIGURE.c` (R158). -/
def execDlConfigure (c : Channel) (s : State) : Host.Outcome State Fault Refusal :=
  let cap := sint s.operands.arg0
  if capacityOk s.memDepth cap then
    .next (s.setLine c ((s.lines.get c).configure cap.toNat))
  else .next (s.raise .invalidCapacity)

/-- `DL_WRITE.c` (R159). -/
def execDlWrite (c : Channel) (s : State) : Host.Outcome State Fault Refusal :=
  if (s.lines.get c).cap = 0#32 then .next (s.raise .unconfigured)
  else outcomeOf (s.dlWrite c s.operands.arg0)

/-- `DL_READ.c` (R160). -/
def execDlRead (c : Channel) (s : State) : Host.Outcome State Fault Refusal :=
  if (s.lines.get c).cap = 0#32 then .next (s.raise .unconfigured)
  else
    match s.dlRead c s.operands.arg0 with
    | .error f => .fault f
    | .ok (s', y) => .next (s'.setResult y)

end Sys2Proof.Machine
end

