-- ==== Sys2Proof/Machine/Lfo.lean ====
section
/-! DEFINITION. The chorus LFO and the sine unit (43_lfo.md), with the meanings of `LFO_ADVANCE` and `SIN_EVAL`. -/

namespace Sys2Proof.Machine

/-- `LFOArg(ph, rate, idx, idxTerm)` with the latched `S.SRf` (R221). -/
def lfoArg (srf ph rate idx : Word) (idxTerm : Bool) : Word :=
  if idxTerm then fadd (fdiv (fmul (fmul twoPi rate) (i2f (uint idx))) srf) ph else ph

/-- The phase increment `2π · rate / SR` (R223). -/
def phaseIncrement (srf rate : Word) : Word := fdiv (fmul twoPi rate) srf

/-- A phase at or above 2π loses 2π once (R223). -/
def wrapPhase (p : Word) : Word := if fge p twoPi then fsub p twoPi else p

/-- `PhaseStep(ph, rate)` with the latched `S.SRf` (R223). -/
def phaseStep (srf ph rate : Word) : Word := wrapPhase (fadd ph (phaseIncrement srf rate))

/-- The modulation of R222: the sine takes the phase as it stood before the advance. -/
def modulation (srf ph rate depth scale idx : Word) (idxTerm : Bool) : Word :=
  fmul (fmul depth scale) (sin32 (lfoArg srf ph rate idx idxTerm))

/-- `LFOAdvance(c, rate, depth, idx)` (R222). -/
def State.lfoAdvance (s : State) (c : Channel) (rate depth idx : Word) : State × Word :=
  let ph := s.phase.get c
  let m := modulation s.sampleRateF ph rate depth s.snap.depthScale idx s.snap.idxTerm
  (s.setPhase c (phaseStep s.sampleRateF ph rate), m)

/-- `LFO_ADVANCE.c` (R225): `ARG0` is the rate, `ARG1` the depth, `ARG2` the sample index. -/
def execLfoAdvance (c : Channel) (s : State) : Host.Outcome State Fault Refusal :=
  let r := s.lfoAdvance c s.operands.arg0 s.operands.arg1 s.operands.arg2
  .next (r.1.setResult r.2)

/-- `SIN_EVAL` (R226). -/
def execSinEval (s : State) : Host.Outcome State Fault Refusal :=
  .next (s.setResult (sin32 s.operands.arg0))

end Sys2Proof.Machine
end

