-- ==== Sys2Proof/Machine/Mixer.lean ====
section
/-! DEFINITION. The output mixer (44_mixer.md), with the meaning of `MIX`. -/

namespace Sys2Proof.Machine

/-- `wetScale` (R250). -/
def wetScale (dw : Word) : Word := fadd (fsub fOne dw) (fmul dw fHalf)

/-- `Mix(x, y, dw)` (R250). It neither saturates nor clips (R252). -/
def mixOf (x y dw : Word) : Word := fadd (fmul (wetScale dw) x) (fmul dw y)

/-- `MIX` (R251). -/
def execMix (s : State) : Host.Outcome State Fault Refusal :=
  .next (s.setResult (mixOf s.operands.arg0 s.operands.arg1 s.snap.dryWet))

end Sys2Proof.Machine
end

