-- ==== Sys2Proof/Machine/Smoothing.lean ====
section
/-! DEFINITION. The smoothed parameter and the one-pole follower (42_smoothing.md), with the meanings of `SP_RESET`,
`SP_INIT`, `SP_SETTARGET`, `SP_NEXT` and `OP_STEP`. -/

namespace Sys2Proof.Machine

/-- The ramp length a product `p = T · sr` gives (R181): its floor, saturated at 2^32 - 1, and at least 1. The product
of a positive time and a positive rate has no sign, so its magnitude is its value. -/
def rampLength (p : Word) : Word :=
  if isInf p || decide (2 ^ 32 * unitsPerOne ≤ magnitude p) then 0xFFFFFFFF#32
  else if floorToInt p = 0 then 1#32
  else toWord (floorToInt p)

/-- `RampSteps(T, sr)` (R181): the ramp length, and whether the ramp time or the rate was invalid. -/
def rampSteps (t : Word) (sr : Int) : Word × Bool :=
  if !fgt t fZero || decide (sr ≤ 0) then (1#32, true)
  else (rampLength (fmul t (i2f sr)), false)

/-- `SPReset(k, T, sr)` with the ramp length `RampSteps` gave (R182): a ramp in progress ends at its target. -/
def Smoothed.restart (p : Smoothed) (n : Word) : Smoothed where
  cur := p.tgt
  tgt := p.tgt
  step := fZero
  cnt := 0#32
  n := n

/-- `SPInit(k, v)` (R183). -/
def Smoothed.init (p : Smoothed) (v : Word) : Smoothed where
  cur := v
  tgt := v
  step := fZero
  cnt := 0#32
  n := p.n

/-- `SPSetTarget(k, v)` (R184): an equal target changes nothing, another one starts a ramp of `n` steps. -/
def Smoothed.setTarget (p : Smoothed) (v : Word) : Smoothed :=
  if feq v p.tgt then p
  else
    { p with
      tgt := v
      cnt := p.n
      step := fdiv (fsub v p.cur) (i2f (uint p.n)) }

/-- The value `c = cur + step` is past the target in the direction of the step (R185). -/
def Smoothed.overshoots (p : Smoothed) (c : Word) : Bool :=
  (fgt p.step fZero && fgt c p.tgt) || (flt p.step fZero && flt c p.tgt)

/-- `SPNext(k)` (R185): the parameter after the call. The value the call returns is its `cur`. -/
def Smoothed.next (p : Smoothed) : Smoothed :=
  if p.cnt = 0#32 then p
  else
    let c := fadd p.cur p.step
    let cnt := p.cnt - 1#32
    { p with
      cnt := cnt
      cur := if cnt = 0#32 then p.tgt else if p.overshoots c then p.tgt else c }

/-- The follower formula `s1 + (s2 - prev)·coef` (R197, and R289 for the chorus fold). -/
def follow (s1 s2 prev coef : Word) : Word := fadd s1 (fmul (fsub s2 prev) coef)

/-- `coef(k)` (R58). -/
def State.coef (s : State) : Param → Word
  | .delayLeft => s.coefD
  | .delayRight => s.coefD
  | .depth => s.coefM
  | .rate => s.coefM

/-- `SPReset(k, T, sr)` on the state (R182), raising `INVALID_RAMP` (non-blocking) when it answers invalid. -/
def State.spReset (s : State) (k : Param) (t : Word) (sr : Int) : State :=
  let r := rampSteps t sr
  (s.setSp k ((s.sp.get k).restart r.1)).raiseIf r.2 .invalidRamp

/-- `SPInit(k, v)` on the state (R183). -/
def State.spInit (s : State) (k : Param) (v : Word) : State := s.setSp k ((s.sp.get k).init v)

/-- `SPSetTarget(k, v)` on the state (R184). -/
def State.spSetTarget (s : State) (k : Param) (v : Word) : State := s.setSp k ((s.sp.get k).setTarget v)

/-- `SPNext(k)` on the state, with the value it returns (R185). -/
def State.spNext (s : State) (k : Param) : State × Word :=
  let p := (s.sp.get k).next
  (s.setSp k p, p.cur)

/-- `OPStep(k)` (R197): two calls of `SPNext(k)`, the first one's value leading, the second one's in the
difference. -/
def State.opStep (s : State) (k : Param) : State × Word :=
  let r1 := s.spNext k
  let r2 := r1.1.spNext k
  let v := follow r1.2 r2.2 (s.ops.get k) (s.coef k)
  (r2.1.setOps k v, v)

/-- `Coef(tau, sr)` (R195). -/
def coefOf (tau : Word) (sr : Int) : Word :=
  fsub fOne (exp32 (fdiv fMinusOne (fmul tau (i2f sr))))

/-- `SP_RESET.k` (R187). -/
def execSpReset (k : Param) (s : State) : Host.Outcome State Fault Refusal :=
  .next (s.spReset k s.operands.arg0 (sint s.sampleRate))

/-- `SP_INIT.k` (R188). -/
def execSpInit (k : Param) (s : State) : Host.Outcome State Fault Refusal :=
  .next (s.spInit k s.operands.arg0)

/-- `SP_SETTARGET.k` (R189). -/
def execSpSetTarget (k : Param) (s : State) : Host.Outcome State Fault Refusal :=
  .next (s.spSetTarget k s.operands.arg0)

/-- `SP_NEXT.k` (R190). -/
def execSpNext (k : Param) (s : State) : Host.Outcome State Fault Refusal :=
  let r := s.spNext k
  .next (r.1.setResult r.2)

/-- `OP_STEP.k` (R198). -/
def execOpStep (k : Param) (s : State) : Host.Outcome State Fault Refusal :=
  let r := s.opStep k
  .next (r.1.setResult r.2)

end Sys2Proof.Machine
end

