-- ==== Sys2Proof/Machine/Engine.lean ====
section
/-! DEFINITION. The sequencer (45_engine.md): the snapshot, the per-sample channel pipeline, and the meanings of `NOP`,
`PREPARE`, `RELEASE`, `BLOCK_START` and `FRAME`. -/

namespace Sys2Proof.Machine

/-- `Snapshot()` (R281) from a copy of the host registers; with `DUAL_DELAY` = 0 the right target mirrors the left
one. -/
def snapshotOf (r : HostRegs) : Snapshot where
  targets :=
    { delayLeft := i2f (sint r.paramDelayL)
      delayRight := if r.dualDelay then i2f (sint r.paramDelayR) else i2f (sint r.paramDelayL)
      depth := r.paramDepth
      rate := r.paramRate }
  dual := r.dualDelay
  chorus := r.chorusOn
  idxTerm := r.lfoIdxTerm
  dryWet := r.cfgDryWet
  depthScale := r.cfgDepthScale

/-- The capacity `PREPARE` asks for: `2 · sr` (R283), a mathematical integer. -/
abbrev prepareCapacity (sr : Int) : Int := 2 * sr

/-- `PREPARE`'s latched configuration, delay lines, coefficients and snapshot (R283, the lines before its loop). -/
def State.prepareConfig (s : State) (r : HostRegs) : State :=
  let sr := sint r.cfgSampleRate
  let cap := (prepareCapacity sr).toNat
  { s with
    sampleRate := r.cfgSampleRate
    sampleRateF := i2f sr
    maxBlock := r.cfgMaxBlock
    lines := ⟨s.lines.left.configure cap, s.lines.right.configure cap⟩
    coefD := coefOf r.cfgTauDelay sr
    coefM := coefOf r.cfgTauMod sr
    snap := snapshotOf r }

/-- One turn of `PREPARE`'s loop over `k` (R283): the parameter and its follower start at the snapshot target. -/
def State.prepareParam (s : State) (r : HostRegs) (k : Param) : State :=
  let v := s.snap.targets.get k
  ((s.spInit k v).spReset k (r.rampTime k) (sint r.cfgSampleRate)).setOps k v

/-- `PREPARE` once its capacity is accepted (R283). -/
def State.prepareAll (s : State) (r : HostRegs) : State :=
  let s := s.prepareConfig r
  let s := (((s.prepareParam r .delayLeft).prepareParam r .delayRight).prepareParam r .depth).prepareParam r .rate
  { s with phase := ⟨r.phase0 .left, r.phase0 .right⟩, blockIdx := 0#32, prepared := true }

/-- `SPSetTarget(k, S.snapT[k])`. -/
def State.retarget (s : State) (k : Param) : State := s.spSetTarget k (s.snap.targets.get k)

/-- The chorus fold (R288 step 2, R289): the modulated delay time passed through the follower formula. -/
def chorusFold (d m coef : Word) : Word :=
  let xm := fadd d m
  follow xm xm d coef

/-- The fold is applied when chorus is on and the delay time is not equal to 0; a NaN counts as non-zero (R289). -/
def State.folds (s : State) (d : Word) : Bool := s.snap.chorus && !feq d fZero

/-- Delay time in milliseconds to samples (R290). -/
def delaySamples (d srf : Word) : Word := fdiv (fmul d srf) fThousand

/-- Steps 1 and 2 of `ChannelStep` (R288): the delay time in milliseconds, followed, and folded with the modulation.
The phase advances on every frame. -/
def State.delayTime (s : State) (c : Channel) (depthF rateF : Word) : State × Word :=
  let r := s.opStep (delayParam c)
  let l := r.1.lfoAdvance c rateF depthF r.1.blockIdx
  if s.folds r.2 then
    let d := chorusFold r.2 l.2 s.coefD
    (l.1.setOps (delayParam c) d, d)
  else (l.1, r.2)

/-- The output word of a channel (R288 step 6, R286): the mix of the input with the sample read. Where the delay is out of
range the word itself is unspecified (R286, R334, 93_implementation_defined.md U1), so it is the free draw `y` as it
stands and not a mix of it, as R288's pseudocode read alone would have it. DESIGN CHOICE (log 1). -/
def channelOutput (ok : Bool) (x y dw : Word) : Word := if ok then mixOf x y dw else y

/-- `ChannelStep(c, in, depthF, rateF)` (R288): the delay read precedes the delay write. -/
def State.channelStep (s : State) (c : Channel) (x depthF rateF : Word) : Except Fault (State × Word) :=
  let r := s.delayTime c depthF rateF
  let dS := delaySamples r.2 s.sampleRateF
  match r.1.dlRead c dS with
  | .error f => .error f
  | .ok (s2, y) =>
    match s2.dlWrite c x with
    | .error f => .error f
    | .ok s3 => .ok (s3, channelOutput (inRange dS (uint (s.lines.get c).cap)) x y s.snap.dryWet)

/-- One channel of a `FRAME`, its output word written (R286). -/
def State.frameChannel (s : State) (c : Channel) (x depthF rateF : Word) : Except Fault State :=
  match s.channelStep c x depthF rateF with
  | .error f => .error f
  | .ok (s', y) => .ok (s'.setOut c y)

/-- The part of a `FRAME` before the channels (R286, R287): the delay-time targets of both channels, then one step
of the depth follower, then one of the rate follower. -/
def State.frameShared (s : State) : State × Word × Word :=
  let s := (s.retarget .delayLeft).retarget .delayRight
  let d := s.opStep .depth
  let r := d.1.opStep .rate
  (r.1, d.2, r.2)

/-- `FRAME` on a prepared block (R286): left before right, then the sample index. -/
def State.frame (s : State) (r : HostRegs) : Except Fault State :=
  let sh := s.frameShared
  match sh.1.frameChannel .left (r.input .left) sh.2.1 sh.2.2 with
  | .error f => .error f
  | .ok s1 =>
    match s1.frameChannel .right (r.input .right) sh.2.1 sh.2.2 with
    | .error f => .error f
    | .ok s2 => .ok { s2 with blockIdx := s2.blockIdx + 1#32 }

/-- `NOP` (R282). -/
def execNop (s : State) : Host.Outcome State Fault Refusal := .next s

/-- `PREPARE` (R283). -/
def execPrepare (s : State) : Host.Outcome State Fault Refusal :=
  if capacityOk s.memDepth (prepareCapacity (sint s.operands.cfgSampleRate)) then
    .next (s.prepareAll s.operands)
  else .next (s.raise .invalidCapacity)

/-- `RELEASE` (R284). -/
def execRelease (s : State) : Host.Outcome State Fault Refusal := .next { s with prepared := false }

/-- `BLOCK_START` (R285). -/
def execBlockStart (s : State) : Host.Outcome State Fault Refusal :=
  if s.prepared then
    let s := { s with snap := snapshotOf s.operands }
    let s := (((s.retarget .delayLeft).retarget .delayRight).retarget .depth).retarget .rate
    .next { s with blockIdx := 0#32 }
  else .next (s.raise .notPrepared)

/-- `FRAME` (R286). -/
def execFrame (s : State) : Host.Outcome State Fault Refusal :=
  if s.prepared then outcomeOf (s.frame s.operands) else .next (s.raise .notPrepared)

end Sys2Proof.Machine
end

