-- ==== Sys2Proof/Machine/Dispatch.lean ====
section
/-! DEFINITION. One arm per command (30_encoding.md R121). -/

namespace Sys2Proof.Machine

def exec (i : Instr) (s : State) : Host.Outcome State Fault Refusal :=
  match i with
  | .nop => Sys2Proof.Machine.execNop s
  | .prepare => Sys2Proof.Machine.execPrepare s
  | .release => Sys2Proof.Machine.execRelease s
  | .blockStart => Sys2Proof.Machine.execBlockStart s
  | .frame => Sys2Proof.Machine.execFrame s
  | .dlConfigure c => Sys2Proof.Machine.execDlConfigure c s
  | .dlWrite c => Sys2Proof.Machine.execDlWrite c s
  | .dlRead c => Sys2Proof.Machine.execDlRead c s
  | .spReset k => Sys2Proof.Machine.execSpReset k s
  | .spInit k => Sys2Proof.Machine.execSpInit k s
  | .spSetTarget k => Sys2Proof.Machine.execSpSetTarget k s
  | .spNext k => Sys2Proof.Machine.execSpNext k s
  | .opStep k => Sys2Proof.Machine.execOpStep k s
  | .lfoAdvance c => Sys2Proof.Machine.execLfoAdvance c s
  | .sinEval => Sys2Proof.Machine.execSinEval s
  | .mix => Sys2Proof.Machine.execMix s

end Sys2Proof.Machine
end

