-- ==== Sys2Proof/Machine/Turn.lean ====
section
/-! DEFINITION. The turns of the engine (20_memory.md R92) and of the system reset (70_reset_and_hazards.md R360,
R362), and how a command is placed for the engine. -/

namespace Sys2Proof.Machine

/-- What the engine does with the decoded pending command (R92, R126, R321): an illegal word raises `ILLEGAL_CMD`
and changes nothing else; a command runs; either way it completes. -/
def executePending (d : Except Illegal Instr) (s : State) : Host.Outcome State Fault Refusal :=
  match d with
  | .error _ => .next (s.raise .illegalCmd).complete
  | .ok i =>
    match exec i s with
    | .next t => .next t.complete
    | .fault f => .fault f
    | .refused r => .refused r

/-- The engine's turn (R92): it executes the pending command as one atomic step; with none pending it is idle. -/
def engineTurn (s : State) : Host.Outcome State Fault Refusal :=
  match s.fetch with
  | none => .next s
  | some d => executePending d s

/-- A delay line after a reset event: unconfigured, with the RAM's words left as they are (R363: not cleared, and a
model may give them any contents; log 5). -/
def DelayLine.resetKeepingRam (l : DelayLine) : DelayLine := { DelayLine.reset with ram := l.ram }

/-- The reset event (R360, R362): every register and every engine field at its reset value, the command in flight
abandoned. The parameter `MEM_DEPTH`, the RAM's words and the model's own fields stay. -/
def State.resetBlock (s : State) : State :=
  { State.reset with
    memDepth := s.memDepth
    lines := ⟨s.lines.left.resetKeepingRam, s.lines.right.resetKeepingRam⟩
    draws := s.draws
    agenda := s.agenda
    reads := s.reads }

/-- One turn (R79). The `CMD` word written at the same time as a reset is lost (R362). -/
def takeTurn (t : Turn) (s : State) : Host.Outcome State Fault Refusal :=
  match t with
  | .host x => hostTurn x s
  | .engine => engineTurn s
  | .reset _ => .next s.resetBlock

/-- The next turn: the first of the agenda; with none listed the engine's (log 2). -/
def nextTurn (s : State) : Host.Outcome State Fault Refusal :=
  match s.agenda with
  | [] => engineTurn s
  | t :: rest => takeTurn t { s with agenda := rest }

/-- The command word in flight, as an issue would have latched it (R89), with the engine's turn next. -/
def State.withPendingWord (s : State) (v : Word) : State :=
  { s.latch v with agenda := .engine :: s.agenda }

end Sys2Proof.Machine
end

