-- ==== Sys2Proof/Machine/Step.lean ====
section
/-! DEFINITION. One step of the block: one turn of one agent (20_memory.md R79). -/

namespace Sys2Proof.Machine

/-- One step (R79): the host's next transaction, the engine's execution of the pending command, or a reset. -/
def step (s : State) : Host.Outcome State Fault Refusal := nextTurn s

/-- The state with a command word placed where the engine takes its next command from: latched with a copy of the
host registers, as a `CMD` write of it latches it (R89), and the engine's turn next. A number that is no command word
places nothing. -/
def State.withFetchWord (s : State) (nbits w : Nat) : State :=
  match tableWord nbits w with
  | none => s
  | some v => s.withPendingWord v

end Sys2Proof.Machine
end

