-- ==== Sys2Proof/Machine/HostProgram.lean ====
section
/-! DEFINITION. Host programs (30_encoding.md R128, R129): notation for sequences of bus transactions, given here as the
turns they stand for. -/

namespace Sys2Proof.Machine

/-- One line of a host program (R128). `wait` is the polling loop of R129 with the number of polls that still see
`BUSY` = 1; how many there are is the schedule's choice (R79). -/
inductive HostLine where
  | wr (r : Reg) (v : Word)
  | rd (r : Reg)
  | cmd (i : Instr)
  | wait (early : Nat)
deriving DecidableEq, Repr

/-- The offset of a register on the bus (R31, R51). -/
def busOffset (r : Reg) : Offset := BitVec.ofNat 12 (regOffset r)

/-- `WR <REG>, <value>` (R128). -/
def writeTurn (r : Reg) (v : Word) : Turn := .host (.write .word (busOffset r) v)

/-- `RD <REG>` (R128). -/
def readTurn (r : Reg) : Turn := .host (.read .word (busOffset r))

/-- The turns of a line (R128, R129): `wait` polls, the engine completes, and a last poll sees `BUSY` = 0. -/
def HostLine.turns : HostLine → List Turn
  | .wr r v => [writeTurn r v]
  | .rd r => [readTurn r]
  | .cmd i => [writeTurn .cmd (encode i)]
  | .wait early => List.replicate early (readTurn .status) ++ [.engine, readTurn .status]

/-- The turns of a program, line by line (R128). -/
def programTurns (p : List HostLine) : List Turn := p.flatMap HostLine.turns

/-- `EXEC <cmd>` (R129): the command, then `WAIT`. -/
def execLines (i : Instr) (early : Nat) : List HostLine := [.cmd i, .wait early]

/-- `CLRERR` (R129). -/
def clearErrorsLine : HostLine := .wr .status 0x00007F00#32

/-- `FRAMEIO <l>, <r>` (R129). -/
def frameIoLines (l r : Word) (early : Nat) : List HostLine :=
  [.wr .inL l, .wr .inR r] ++ execLines .frame early ++ [.rd .outL, .rd .outR]

/-- `REPEAT <n>` (R128): the lines `n` times. -/
def repeatLines (n : Nat) (p : List HostLine) : List HostLine := (List.replicate n p).flatten

/-- A state in which the host is about to run a program. -/
def State.withProgram (s : State) (p : List HostLine) : State :=
  { s with agenda := s.agenda ++ programTurns p }

end Sys2Proof.Machine
end

