-- ==== Sys2Proof/Safety.lean ====
section
/-! DEFINITION. What a good state is (the invariants the rules state) and what a safe step is, in the terms the
statements use. -/

namespace Sys2Proof.Machine

/-- R55's invariant of a delay line with `MEM_DEPTH` = `depth`, and the RAM's form: canonical, and holding nothing
past the last word (R80, R86). -/
structure LineOk (depth : Nat) (l : DelayLine) : Prop where
  /-- "when `S.cap[c] > 0`, `0 <= S.cursor[c] < S.cap[c]`" (R55). -/
  cursor_lt : l.cap ≠ 0#32 → l.cursor.toNat < l.cap.toNat
  /-- "`S.cap[c] <= MEM_DEPTH`" (R55). -/
  cap_le : l.cap.toNat ≤ depth
  /-- The RAM's list is in its canonical form. -/
  ram_wf : l.ram.wf = true
  /-- No byte past the last word of the RAM is listed (R80). -/
  ram_lt : ∀ cell ∈ l.ram, cell.1 < 4 * depth

/-- A smoothed parameter whose ramp length is not 0 (R56), with no more steps left than that. -/
structure SmoothedOk (p : Smoothed) : Prop where
  n_ne : p.n ≠ 0#32
  cnt_le : p.cnt.toNat ≤ p.n.toNat

/-- Reserved bits of the two registers that have some are 0 (R42, R49, R63). -/
structure ReservedOk (h : HostRegs) : Prop where
  switches : h.paramSwitches &&& ~~~switchesMask = 0#32
  mode : h.cfgMode &&& ~~~modeMask = 0#32

/-- A good state. -/
structure State.Inv (s : State) : Prop where
  /-- `MEM_DEPTH` is at least 1 (R6). -/
  depth_pos : 0 < s.memDepth
  lines : ∀ c, LineOk s.memDepth (s.lines.get c)
  params : ∀ k, SmoothedOk (s.sp.get k)
  reserved : ReservedOk s.regs
  reserved_copy : ∀ p, s.pending = some p → ReservedOk p.regs
  /-- `S.busy` is true from the issue of a command until its completion (R52, R61). -/
  busy_iff : s.busy = s.pending.isSome
  /-- A prepared block has both lines configured (R283). -/
  prepared_lines : s.prepared = true → ∀ c, (s.lines.get c).cap ≠ 0#32
  /-- `S.SRf` is `i2f(S.SR)` (R53). -/
  rate : s.sampleRateF = i2f (sint s.sampleRate)
  /-- With `S.snapDual` = 0 the right target mirrors the left one (R281). -/
  mirror : s.snap.dual = false → s.snap.targets.delayRight = s.snap.targets.delayLeft

/-- A line a command may read and write: configured and within the RAM (R55). -/
structure LineReady (depth : Nat) (l : DelayLine) : Prop where
  cap_ne : l.cap ≠ 0#32
  cursor_lt : l.cursor.toNat < l.cap.toNat
  cap_le : l.cap.toNat ≤ depth

/-- The step does not stop the machine with a fault. -/
def State.StepsSafely (s : State) : Prop := ∀ f, step s ≠ .fault f

/-- The byte of channel `c`'s delay RAM at a byte address. -/
def State.ramByte (s : State) (c : Channel) (a : Nat) : Byte := (s.lines.get c).ram.readByte a

/-- The byte addresses of the word a write to line `l` stores to: the slot at its cursor (R152). -/
def DelayLine.cursorBytes (l : DelayLine) (a : Nat) : Prop :=
  4 * uint l.cursor ≤ a ∧ a < 4 * uint l.cursor + 4

/-- The value of a finite binary32 pattern as IEEE 754 writes it (R9): sign, significand and a power of two, with
the subnormals at exponent 1. -/
def floatValue (v : Word) : ℚ :=
  (if signBit v then -1 else 1) *
    (if expField v = 0 then (fracField v : ℚ) / 2 ^ 23 * (2 : ℚ) ^ (-126 : ℤ)
     else (1 + (fracField v : ℚ) / 2 ^ 23) * (2 : ℚ) ^ ((expField v : ℤ) - 127))

/-- `r` is the real number `x` rounded as R10 and R12 say: to a nearest finite pattern, to the even one of two, and from
halfway past the largest finite value on to an infinity. -/
structure RoundsTo (x : ℚ) (r : Word) : Prop where
  finite : |x| < 2 ^ 128 - 2 ^ 103 → isFinite r = true
  overflow : 2 ^ 128 - 2 ^ 103 ≤ |x| → r = if x < 0 then 0xFF800000#32 else 0x7F800000#32
  nearest : isFinite r = true → ∀ c, isFinite c = true → |floatValue r - x| ≤ |floatValue c - x|
  even : isFinite r = true → ∀ c, isFinite c = true → |floatValue r - x| = |floatValue c - x| →
    floatValue c ≠ floatValue r → r.getLsbD 0 = false
  /-- A result keeps the sign of a number that is not 0, also where it is a zero. -/
  sign : x ≠ 0 → signBit r = decide (x < 0)

/-- What a read of each host register with storage gives, by the offset R31 gives it, but for the three whose reads are
unspecified while busy (R93). -/
def State.hostReads (s : State) : List (Offset × Word) := [
  (0x010#12, s.regs.arg0), (0x014#12, s.regs.arg1), (0x018#12, s.regs.arg2),
  (0x020#12, s.regs.paramDelayL), (0x024#12, s.regs.paramDelayR), (0x028#12, s.regs.paramDepth),
  (0x02C#12, s.regs.paramRate), (0x030#12, s.regs.paramSwitches &&& 0x00000003#32),
  (0x040#12, s.regs.cfgSampleRate), (0x044#12, s.regs.cfgMaxBlock),
  (0x048#12, s.regs.cfgRampDelay), (0x04C#12, s.regs.cfgRampMod),
  (0x050#12, s.regs.cfgTauDelay), (0x054#12, s.regs.cfgTauMod),
  (0x058#12, s.regs.cfgDryWet), (0x05C#12, s.regs.cfgDepthScale), (0x060#12, s.regs.cfgMode &&& 0x00000001#32),
  (0x064#12, s.regs.cfgPhase0L), (0x068#12, s.regs.cfgPhase0R), (0x080#12, s.regs.inL), (0x084#12, s.regs.inR)]

/-- What a read of `RESULT`, `OUT_L` and `OUT_R` (R31) and of each state-view word that belongs to no smoothed parameter
(R51) gives on an idle block, by offset. -/
def State.resultReads (s : State) : List (Offset × Word) := [
  (0x01C#12, s.regs.result), (0x088#12, s.regs.outL), (0x08C#12, s.regs.outR),
  (0x100#12, s.sampleRate), (0x104#12, s.maxBlock), (0x108#12, s.coefD), (0x10C#12, s.coefM), (0x110#12, s.blockIdx),
  (0x114#12, BitVec.ofNat 32 (s.snap.dual.toNat + 2 * s.snap.chorus.toNat + 4 * s.snap.idxTerm.toNat)),
  (0x118#12, s.snap.dryWet), (0x11C#12, s.snap.depthScale),
  (0x120#12, s.lines.left.cap), (0x124#12, s.lines.left.cursor),
  (0x128#12, s.lines.right.cap), (0x12C#12, s.lines.right.cursor),
  (0x130#12, s.phase.left), (0x134#12, s.phase.right), (0x138#12, 0#32), (0x13C#12, 0#32)]

/-- What a read of the eight state-view words of one smoothed parameter gives on an idle block, from the offset `base` of
the first one (R51). -/
def paramReads (base : Offset) (p : Smoothed) (ops target : Word) : List (Offset × Word) := [
  (base, p.cur), (base + 0x04#12, p.tgt), (base + 0x08#12, p.step), (base + 0x0C#12, p.cnt), (base + 0x10#12, p.n),
  (base + 0x14#12, ops), (base + 0x18#12, target), (base + 0x1C#12, 0#32)]

/-- Every state-view word of the four smoothed parameters, by offset (R51, R58). -/
def State.allParamReads (s : State) : List (Offset × Word) :=
  paramReads 0x140#12 s.sp.delayLeft s.ops.delayLeft s.snap.targets.delayLeft ++
  paramReads 0x160#12 s.sp.delayRight s.ops.delayRight s.snap.targets.delayRight ++
  paramReads 0x180#12 s.sp.depth s.ops.depth s.snap.targets.depth ++
  paramReads 0x1A0#12 s.sp.rate s.ops.rate s.snap.targets.rate

/-- The registers after a write of `v` to each read-write register, by the offset R31 gives it. -/
def HostRegs.afterWrites (h : HostRegs) (v : Word) : List (Offset × HostRegs) := [
  (0x010#12, { h with arg0 := v }), (0x014#12, { h with arg1 := v }), (0x018#12, { h with arg2 := v }),
  (0x020#12, { h with paramDelayL := v }), (0x024#12, { h with paramDelayR := v }),
  (0x028#12, { h with paramDepth := v }), (0x02C#12, { h with paramRate := v }),
  (0x030#12, { h with paramSwitches := v &&& 0x00000003#32 }),
  (0x040#12, { h with cfgSampleRate := v }), (0x044#12, { h with cfgMaxBlock := v }),
  (0x048#12, { h with cfgRampDelay := v }), (0x04C#12, { h with cfgRampMod := v }),
  (0x050#12, { h with cfgTauDelay := v }), (0x054#12, { h with cfgTauMod := v }),
  (0x058#12, { h with cfgDryWet := v }), (0x05C#12, { h with cfgDepthScale := v }),
  (0x060#12, { h with cfgMode := v &&& 0x00000001#32 }),
  (0x064#12, { h with cfgPhase0L := v }), (0x068#12, { h with cfgPhase0R := v }),
  (0x080#12, { h with inL := v }), (0x084#12, { h with inR := v })]

/-- The offsets whose reads are unspecified while the engine is busy (R93): `RESULT`, `OUT_L`, `OUT_R` and the state
view. -/
def unstableOffset (off : Nat) : Bool :=
  off == 0x01C || off == 0x088 || off == 0x08C || (decide (0x100 ≤ off) && decide (off ≤ 0x1BC))

/-- The read-write registers of R31. -/
def readWriteRegs : List Reg :=
  [.arg0, .arg1, .arg2, .paramDelayL, .paramDelayR, .paramDepth, .paramRate, .paramSwitches,
    .cfgSampleRate, .cfgMaxBlock, .cfgRampDelay, .cfgRampMod, .cfgTauDelay, .cfgTauMod, .cfgDryWet, .cfgDepthScale,
    .cfgMode, .cfgPhase0L, .cfgPhase0R, .inL, .inR]

/-- The non-reserved bits of a read-write register (R42, R49; every other one has no reserved bit). -/
def writableBits (r : Reg) : Word :=
  if r = .paramSwitches then 0x00000003#32 else if r = .cfgMode then 0x00000001#32 else 0xFFFFFFFF#32

/-- The offsets R31 maps (multiples of 4 in these ranges). -/
def mappedOffset (off : Nat) : Bool :=
  decide (off ≤ 0x030) || (decide (0x040 ≤ off) && decide (off ≤ 0x068)) ||
    (decide (0x080 ≤ off) && decide (off ≤ 0x08C)) || (decide (0x100 ≤ off) && decide (off ≤ 0x1BC))

/-- The offsets of the read-only registers R85 names: `ID`, `VERSION`, `RESULT`, `OUT_L`, `OUT_R`, the state view. -/
def readOnlyOffset (off : Nat) : Bool :=
  off == 0x000 || off == 0x004 || off == 0x01C || off == 0x088 || off == 0x08C ||
    (decide (0x100 ≤ off) && decide (off ≤ 0x1BC))

/-- Writes of a list of samples, oldest first, into a delay line (R152). -/
def DelayLine.writeAll (depth : Nat) (l : DelayLine) : List Word → Except Fault DelayLine
  | [] => .ok l
  | v :: vs =>
    match l.write depth v with
    | .error f => .error f
    | .ok l' => l'.writeAll depth vs

/-- `m` calls of `SPNext` (R185). -/
def Smoothed.nextTimes : Nat → Smoothed → Smoothed
  | 0, p => p
  | m + 1, p => (p.nextTimes m).next

/-- Two channels in the same state (R292): parameter, follower, phase, delay line and target of both are equal. -/
structure State.Mirrored (s : State) : Prop where
  sp : s.sp.delayLeft = s.sp.delayRight
  ops : s.ops.delayLeft = s.ops.delayRight
  phase : s.phase.left = s.phase.right
  line : s.lines.left = s.lines.right
  target : s.snap.targets.delayLeft = s.snap.targets.delayRight

/-- The commands that write `RESULT` (R36). -/
def writesResult : Instr → Bool
  | .dlRead _ => true
  | .spNext _ => true
  | .opStep _ => true
  | .lfoAdvance _ => true
  | .sinEval => true
  | .mix => true
  | .nop => false
  | .prepare => false
  | .release => false
  | .blockStart => false
  | .frame => false
  | .dlConfigure _ => false
  | .dlWrite _ => false
  | .spReset _ => false
  | .spInit _ => false
  | .spSetTarget _ => false

end Sys2Proof.Machine
end

