-- ==== Sys2Proof/Certificates/Slice0/Obligations.lean ====
section
/-! DEFINITION. The statements about the model, made from the numbered rules of spec/. -/

open Sys2Proof Sys2Proof.Machine

/-! ### Encoding -/

/-- R130, R131: the decoder reads a command from exactly the word the encoder writes for it, so no word has two
readings and no bit is dropped; and every command is well formed (R122). -/
def Obligations.DecodeIffEncode : Prop :=
  ∀ (w : Word) (i : Instr), i.wellFormed = true ∧ (decode w = .ok i ↔ w = encode i)

/-- R130: a word selects a row of the opcode table by match and mask exactly when the decoder reads that row's command;
at most one row matches any word. -/
def Obligations.OpcodeTableSelectsTheDecodedCommand : Prop :=
  (∀ (w : Word) (r : OpcodeRow), r ∈ opcodeTable →
    (r.selectedBy w = true ↔ ∃ i, decode w = .ok i ∧ i.mnemonic = r.mnemonic)) ∧
  (∀ (w : Word) (r r' : OpcodeRow), r ∈ opcodeTable → r' ∈ opcodeTable →
    r.selectedBy w = true → r'.selectedBy w = true → r = r')

/-- R123: a word with any of bits 31:10 set is illegal, whatever its `OPC`. -/
def Obligations.ReservedBitsMakeAnIllegalWord : Prop :=
  ∀ w : Word, (∃ j, 10 ≤ j ∧ j < 32 ∧ w.getLsbD j = true) → ∃ e, decode w = .error e

/-- Words written out from the encodings of R121 and R131, and illegal ones (95_test_vectors.md 2.1). -/
def Obligations.HandWrittenWordsDecode : Prop :=
  decode 0x00000000#32 = .ok .nop ∧ decode 0x00000004#32 = .ok .frame ∧
  decode 0x00000110#32 = .ok (.dlConfigure .right) ∧ decode 0x00000012#32 = .ok (.dlRead .left) ∧
  decode 0x00000323#32 = .ok (.spNext .rate) ∧ decode 0x00000228#32 = .ok (.opStep .depth) ∧
  decode 0x00000130#32 = .ok (.lfoAdvance .right) ∧ decode 0x00000038#32 = .ok .mix ∧
  decode 0x00000210#32 = .error .unitNoChannel ∧ decode 0x00000131#32 = .error .unitNotZero ∧
  decode 0x000000FF#32 = .error .unassignedOpcode ∧ decode 0x80000004#32 = .error .reservedBits

/-- R126: which words are illegal, and what an illegal command in flight does: it raises `ILLEGAL_CMD` and changes
nothing else (it completes, as every command does). -/
def Obligations.IllegalCommandOnlyRaisesIllegalCmd : Prop :=
  (∀ w : Word,
    let opc := w.toNat % 256
    let unit := w.toNat / 256 % 4
    ((∃ e, decode w = .error e) ↔
      (1024 ≤ w.toNat ∨
       (0x05 ≤ opc ∧ opc ≤ 0x0F) ∨ (0x13 ≤ opc ∧ opc ≤ 0x1F) ∨ (0x24 ≤ opc ∧ opc ≤ 0x27) ∨
       (0x29 ≤ opc ∧ opc ≤ 0x2F) ∨ (0x32 ≤ opc ∧ opc ≤ 0x37) ∨ 0x39 ≤ opc ∨
       ((opc ≤ 0x04 ∨ opc = 0x31 ∨ opc = 0x38) ∧ unit ≠ 0) ∨
       ((opc = 0x10 ∨ opc = 0x11 ∨ opc = 0x12 ∨ opc = 0x30) ∧ 2 ≤ unit)))) ∧
  (∀ (s : State) (p : Pending) (e : Illegal), s.pending = some p → decode p.word = .error e →
    engineTurn s = .next { s with errors := s.errors ||| 0x01#7, pending := none, busy := false })

/-! ### The step -/

/-- R92: when the word in flight decodes to a command and the engine has the turn, the step is that command's
`exec` at the state (with the turn taken off the agenda, which is the model's: log 2), followed by its completion. -/
def Obligations.StepRunsTheDecodedCommand : Prop :=
  ∀ (s : State) (p : Pending) (i : Instr) (rest : List Turn),
    s.pending = some p → decode p.word = .ok i →
    (s.agenda = .engine :: rest ∨ (s.agenda = [] ∧ rest = [])) →
    step s =
      match exec i { s with agenda := rest } with
      | .next t => .next { t with pending := none, busy := false }
      | .fault f => .fault f
      | .refused r => .refused r

/-- R79, R81, R82: the other turns. The agenda is the model's (log 2), and so is the field `reads` that records a read's
word (log 13). A host write or read acts at once; an engine turn with no command in flight changes nothing. -/
def Obligations.StepTakesTheNextTurn : Prop :=
  ∀ (s : State) (rest : List Turn) (off : Offset) (v : Word), off.toNat % 4 = 0 →
    (s.agenda = .host (.write .word off v) :: rest →
      step s = .next (({ s with agenda := rest } : State).busWrite off v)) ∧
    (s.agenda = .host (.read .word off) :: rest →
      ∃ t w, ({ s with agenda := rest } : State).busRead off = (t, w) ∧
        step s = .next { t with reads := t.reads ++ [w] }) ∧
    (s.pending = none → s.agenda = .engine :: rest → step s = .next { s with agenda := rest }) ∧
    (s.pending = none → s.agenda = [] → step s = .next s)

/-! ### The host's bus -/

/-- R32: `ID` and `VERSION` read their constants in every state, the reset state among them, and ignore writes. -/
def Obligations.IdAndVersionAreConstants : Prop :=
  ∀ (s : State) (v : Word),
    s.busRead 0x000#12 = (s, 0x43484F52#32) ∧ s.busRead 0x004#12 = (s, 0x00000007#32) ∧
    s.busWrite 0x000#12 v = s ∧ s.busWrite 0x004#12 v = s

/-- R33, R89: `CMD` reads 0; a write of it latches the word with a copy of the host registers and sets `BUSY`, or,
while busy, is dropped with `OVERRUN`. -/
def Obligations.CmdWriteIssuesOrOverruns : Prop :=
  ∀ (s : State) (v : Word),
    s.busRead 0x008#12 = (s, 0#32) ∧
    (s.busy = false → s.busWrite 0x008#12 v =
      { s with pending := some { word := v, regs := s.regs, status := s.status }, busy := true }) ∧
    (s.busy = true → s.busWrite 0x008#12 v = { s with errors := s.errors ||| 0x02#7 })

/-- R34, R82: what `STATUS` reads, bit by bit, busy or not. -/
def Obligations.StatusReadsItsFields : Prop :=
  ∀ s : State,
    s.busRead 0x00C#12 = (s, s.status) ∧
    s.status.getLsbD 0 = s.busy ∧ s.status.getLsbD 1 = s.prepared ∧
    (∀ j, j < 7 → s.status.getLsbD (8 + j) = s.errors.getLsbD j) ∧
    (∀ j, 2 ≤ j → j < 8 → s.status.getLsbD j = false) ∧ (∀ j, 15 ≤ j → s.status.getLsbD j = false)

/-- R324: a write of `STATUS` clears exactly the error bits it names and changes nothing else, at once, busy or not; an
error raised after the clear sets its bit again. -/
def Obligations.StatusWriteClearsTheNamedErrors : Prop :=
  ∀ (s : State) (v : Word),
    (∀ j, j < 7 → (s.busWrite 0x00C#12 v).errors.getLsbD j = (s.errors.getLsbD j && !v.getLsbD (8 + j))) ∧
    { s.busWrite 0x00C#12 v with errors := s.errors } = s ∧
    (∀ e : Error, ((s.busWrite 0x00C#12 v).raise e).errors.getLsbD (e.code - 8) = true)

/-- R63: a read-write register stores every non-reserved bit as written, its reserved bits read 0, and no other
register and nothing of the engine changes. The last clause gives each register's offset (R31) as a number and the one
field a write there replaces. -/
def Obligations.ReadWriteRegistersStoreWhatIsWritten : Prop :=
  (∀ (s : State) (r : Reg) (v : Word), r ∈ readWriteRegs →
    (s.busWrite (busOffset r) v).regValue r = v &&& writableBits r ∧
    (∀ r', r' ≠ r → (s.busWrite (busOffset r) v).regValue r' = s.regValue r') ∧
    { s.busWrite (busOffset r) v with regs := s.regs } = s) ∧
  (∀ (s : State) (v : Word), ∀ x ∈ s.regs.afterWrites v, s.busWrite x.1 v = { s with regs := x.2 })

/-- R85: an unmapped offset reads 0 and ignores writes, a read-only register ignores writes; none raises an error. -/
def Obligations.UnmappedAndReadOnlyAccessesAreBenign : Prop :=
  ∀ (s : State) (off : Offset) (v : Word), off.toNat % 4 = 0 →
    (mappedOffset off.toNat = false → s.busRead off = (s, 0#32) ∧ s.busWrite off v = s) ∧
    (readOnlyOffset off.toNat = true → s.busWrite off v = s)

/-- R82, R93, R31, R51: while busy, a read of `RESULT`, `OUT_L`, `OUT_R` or a state-view word is a free draw (log 9); every
other read, and every read while idle, gives the register's value and changes nothing. The last three clauses say so
with the offsets of R31 and R51 as numbers and the field each one shows. -/
def Obligations.BusyResultReadsAreFreeDraws : Prop :=
  (∀ (s : State) (r : Reg),
    ((s.busy = true ∧ (r = .result ∨ r = .outL ∨ r = .outR ∨ ∃ v, r = .view v)) →
      s.busRead (busOffset r) = ({ s with draws := s.draws + 1 }, Config.freeWord s.draws)) ∧
    (¬(s.busy = true ∧ (r = .result ∨ r = .outL ∨ r = .outR ∨ ∃ v, r = .view v)) →
      s.busRead (busOffset r) = (s, s.regValue r))) ∧
  (∀ (s : State) (off : Offset), s.busy = true → off.toNat % 4 = 0 → unstableOffset off.toNat = true →
    s.busRead off = ({ s with draws := s.draws + 1 }, Config.freeWord s.draws)) ∧
  (∀ s : State, ∀ x ∈ s.hostReads, s.busRead x.1 = (s, x.2)) ∧
  (∀ s : State, s.busy = false → ∀ x ∈ s.resultReads ++ s.allParamReads, s.busRead x.1 = (s, x.2))

/-- R83: a bus access that is not a 32-bit word at a multiple of 4 is refused (log 10). -/
def Obligations.UnsupportedAccessIsRefused : Prop :=
  ∀ (s : State) (rest : List Turn) (size : AccessSize) (off : Offset) (v : Word),
    (size ≠ .word ∨ off.toNat % 4 ≠ 0) →
    (s.agenda = .host (.write size off v) :: rest ∨ s.agenda = .host (.read size off) :: rest) →
    step s = .refused .busAccessUnsupported

/-! ### The commands -/

/-- R282: `NOP` changes nothing; issued on an idle block it shows `BUSY` = 1 until its completion brings the state
back. -/
def Obligations.NopIsTheIssueHandshake : Prop :=
  ∀ s : State,
    exec .nop s = .next s ∧
    (s.busy = false → s.pending = none →
      (s.busWrite 0x008#12 0x00000000#32).status.getLsbD 0 = true ∧
      engineTurn (s.busWrite 0x008#12 0x00000000#32) = .next s)

/-- R284, R285, R286, R320: `RELEASE` clears `PREPARED` and keeps every other state; in any state that is not prepared
`BLOCK_START` and `FRAME` raise `NOT_PREPARED` and change nothing else. -/
def Obligations.ReleaseStopsStreamingUntilPrepare : Prop :=
  (∀ s : State, exec .release s = .next { s with prepared := false }) ∧
  (∀ s : State, s.prepared = false →
    exec .blockStart s = .next { s with errors := s.errors ||| 0x04#7 } ∧
    exec .frame s = .next { s with errors := s.errors ||| 0x04#7 })

/-- R226, R10: `SIN_EVAL` writes `RESULT` with the sine unit's value of `ARG0`, a NaN as 0x7FC00000. -/
def Obligations.SinEvalWritesTheSine : Prop :=
  ∀ s : State, ∃ y, exec .sinEval s = .next { s with regs := { s.regs with result := y } } ∧
    (isNaN (Config.sin32Raw s.operands.arg0) = false → y = Config.sin32Raw s.operands.arg0) ∧
    (isNaN (Config.sin32Raw s.operands.arg0) = true → y = 0x7FC00000#32)

/-- R250, R251: `MIX` writes `RESULT` with the mix of `ARG0` and `ARG1` at the snapshot's ratio. -/
def Obligations.MixWritesTheMix : Prop :=
  ∀ s : State,
    let dw := s.snap.dryWet
    let ws := fadd (fsub 0x3F800000#32 dw) (fmul dw 0x3F000000#32)
    let y := fadd (fmul ws s.operands.arg0) (fmul dw s.operands.arg1)
    exec .mix s = .next { s with regs := { s.regs with result := y } }

/-- R250: at the reset ratio 1.0 the mix is half the input plus the delayed sample, for every two patterns. -/
def Obligations.MixAtResetRatioIsHalfInputPlusDelayed : Prop :=
  ∀ (s : State), s.snap.dryWet = 0x3F800000#32 →
    let y := fadd (fmul 0x3F000000#32 s.operands.arg0) s.operands.arg1
    exec .mix s = .next { s with regs := { s.regs with result := y } }

/-- R221 to R223, R225: `LFO_ADVANCE.c` writes `RESULT` with the modulation at the phase before the call, then moves
the phase of channel `c`; nothing else changes. -/
def Obligations.LfoAdvanceModulatesThenSteps : Prop :=
  ∀ (s : State) (c : Channel),
    let rate := s.operands.arg0
    let depth := s.operands.arg1
    let idx := s.operands.arg2
    let ph := s.phase.get c
    let a := fdiv (fmul (fmul 0x40C90FDB#32 rate) (i2f idx.toNat)) s.sampleRateF
    let arg := if s.snap.idxTerm = true then fadd a ph else ph
    let p := fadd ph (fdiv (fmul 0x40C90FDB#32 rate) s.sampleRateF)
    let ph' := if fge p 0x40C90FDB#32 = true then fsub p 0x40C90FDB#32 else p
    exec (.lfoAdvance c) s = .next { s with
      regs := { s.regs with result := fmul (fmul depth s.snap.depthScale) (sin32 arg) }
      phase := s.phase.set c ph' }

/-- R183, R188: `SP_INIT.k` sets current value and target together, ends the ramp and keeps its length; nothing else
changes, the follower least of all. -/
def Obligations.SpInitJumpsToTheValue : Prop :=
  ∀ (s : State) (k : Param),
    let v := s.operands.arg0
    let q : Smoothed := { cur := v, tgt := v, step := 0#32, cnt := 0#32, n := (s.sp.get k).n }
    exec (.spInit k) s = .next { s with sp := s.sp.set k q }

/-- R184, R189: `SP_SETTARGET.k` with an equal target (IEEE equality) changes nothing; another one starts a ramp of `n`
steps from the current value. A NaN never compares equal. -/
def Obligations.SpSetTargetStartsARamp : Prop :=
  ∀ (s : State) (k : Param),
    let p := s.sp.get k
    let v := s.operands.arg0
    let q : Smoothed := { cur := p.cur, tgt := v, step := fdiv (fsub v p.cur) (i2f p.n.toNat), cnt := p.n, n := p.n }
    (feq v p.tgt = true → exec (.spSetTarget k) s = .next s) ∧
    (feq v p.tgt = false → exec (.spSetTarget k) s = .next { s with sp := s.sp.set k q }) ∧
    (isNaN v = true → feq v p.tgt = false)

/-- R185, R190: `SP_NEXT.k` writes `RESULT` with the new current value: unchanged when no step is left, the target at
the last step, else the value one increment further, or the target where that overshoots it. -/
def Obligations.SpNextTakesOneStep : Prop :=
  ∀ (s : State) (k : Param), ∃ q : Smoothed,
    exec (.spNext k) s = .next { s with sp := s.sp.set k q, regs := { s.regs with result := q.cur } } ∧
    ((s.sp.get k).cnt = 0#32 → q = s.sp.get k) ∧
    ((s.sp.get k).cnt ≠ 0#32 →
      q.tgt = (s.sp.get k).tgt ∧ q.step = (s.sp.get k).step ∧ q.n = (s.sp.get k).n ∧
      q.cnt.toNat + 1 = (s.sp.get k).cnt.toNat ∧
      ((s.sp.get k).cnt = 1#32 → q.cur = (s.sp.get k).tgt) ∧
      ((s.sp.get k).cnt ≠ 1#32 →
        let p := s.sp.get k
        let c := fadd p.cur p.step
        if (fgt p.step 0#32 = true ∧ fgt c p.tgt = true) ∨ (flt p.step 0#32 = true ∧ flt c p.tgt = true)
        then q.cur = p.tgt else q.cur = c))

/-- R181, R182, R187: `SP_RESET.k` ends the ramp at its target and installs the ramp length: 1 with `INVALID_RAMP` when
`ARG0` is not greater than 0 or the latched rate is not positive; else the floor of the product, at least 1, saturated
at 2^32 - 1. -/
def Obligations.SpResetInstallsTheRampLength : Prop :=
  ∀ (s : State) (k : Param), ∃ n : Word, ∃ e : BitVec 7,
    exec (.spReset k) s = .next { s with
      sp := s.sp.set k { cur := (s.sp.get k).tgt, tgt := (s.sp.get k).tgt, step := 0#32, cnt := 0#32, n := n }
      errors := e } ∧
    (let t := s.operands.arg0
     let p := fmul t (i2f s.sampleRate.toInt)
     (fgt t 0#32 = false ∨ s.sampleRate.toInt ≤ 0 → n = 1#32 ∧ e = s.errors ||| 0x20#7) ∧
     (fgt t 0#32 = true ∧ 0 < s.sampleRate.toInt →
       e = s.errors ∧
       (fge p 0x4F800000#32 = true → n = 0xFFFFFFFF#32) ∧
       (fge p 0x4F800000#32 = false → n.toNat = max 1 (floorToInt p))))

/-- R197, R198: `OP_STEP.k` calls the smoothed parameter twice, puts the first value in the leading term and the second in
the difference, writes the follower and `RESULT`, and changes nothing else. -/
def Obligations.OpStepFollowsTwoCalls : Prop :=
  ∀ (s : State) (k : Param),
    let p1 := (s.sp.get k).next
    let p2 := p1.next
    let coef := if k = .delayLeft ∨ k = .delayRight then s.coefD else s.coefM
    let y := fadd p1.cur (fmul (fsub p2.cur (s.ops.get k)) coef)
    exec (.opStep k) s = .next { s with
      sp := s.sp.set k p2, ops := s.ops.set k y, regs := { s.regs with result := y } }

/-- R151, R158: `DL_CONFIGURE.c` with a capacity in [1, `MEM_DEPTH`] sets it, puts the cursor at 0, zero-fills the line's
slots and leaves every byte past them; any other capacity raises `INVALID_CAPACITY` and changes nothing else. -/
def Obligations.DlConfigureSizesAndZeroFills : Prop :=
  ∀ (s : State) (c : Channel),
    let cap := s.operands.arg0.toInt
    ((s.lines.get c).ram.wf = true → 0 < cap → cap ≤ (s.memDepth : Int) →
      ∃ l : DelayLine, exec (.dlConfigure c) s = .next { s with lines := s.lines.set c l } ∧
        l.cap = s.operands.arg0 ∧ l.cursor = 0#32 ∧
        (∀ i : Nat, (i : Int) < cap → l.ram.readWord i = 0#32) ∧
        (∀ a : Nat, 4 * cap ≤ (a : Int) → l.ram.readByte a = s.ramByte c a)) ∧
    ((cap ≤ 0 ∨ (s.memDepth : Int) < cap) →
      exec (.dlConfigure c) s = .next { s with errors := s.errors ||| 0x10#7 })

/-- R152, R159: `DL_WRITE.c` stores `ARG0` bit for bit in the slot at the cursor, advances the cursor modulo the capacity,
and leaves every byte outside that slot; on an unconfigured line it raises `UNCONFIGURED` and changes nothing else. -/
def Obligations.DlWriteStoresAtTheCursor : Prop :=
  ∀ (s : State) (c : Channel),
    ((s.lines.get c).ram.wf = true → LineReady s.memDepth (s.lines.get c) →
      ∃ l : DelayLine, exec (.dlWrite c) s = .next { s with lines := s.lines.set c l } ∧
        l.cap = (s.lines.get c).cap ∧
        l.cursor.toNat = ((s.lines.get c).cursor.toNat + 1) % (s.lines.get c).cap.toNat ∧
        l.ram.readWord (s.lines.get c).cursor.toNat = s.operands.arg0 ∧
        (∀ a, ¬(s.lines.get c).cursorBytes a → l.ram.readByte a = s.ramByte c a)) ∧
    ((s.lines.get c).cap = 0#32 →
      exec (.dlWrite c) s = .next { s with errors := s.errors ||| 0x08#7 })

/-- R154 to R156, R160: `DL_READ.c` in range writes `RESULT` with the slot at the integer delay, or with the interpolation
toward the slot one sample older; out of range it raises `RANGE` and `RESULT` is a free draw (the run goes on: log 1); on an unconfigured line
it raises `UNCONFIGURED`. Nothing else changes, the RAM and the cursor least of all. -/
def Obligations.DlReadInterpolates : Prop :=
  ∀ (s : State) (c : Channel),
    let l := s.lines.get c
    let d := s.operands.arg0
    let n := floorToInt d
    let f := fsub d (i2f n)
    let a := l.ram.readWord (((l.cursor.toNat : Int) - n) % l.cap.toNat).toNat
    let b := l.ram.readWord (((l.cursor.toNat : Int) - n - 1) % l.cap.toNat).toNat
    (l.cap ≠ 0#32 → l.cap.toNat ≤ s.memDepth → inRange d l.cap.toNat = true →
      let y := if feq f 0#32 = true then a else fadd a (fmul f (fsub b a))
      exec (.dlRead c) s = .next { s with regs := { s.regs with result := y } }) ∧
    (l.cap ≠ 0#32 → inRange d l.cap.toNat = false →
      exec (.dlRead c) s = .next { s with
        regs := { s.regs with result := Config.freeWord s.draws }
        errors := s.errors ||| 0x40#7
        draws := s.draws + 1 }) ∧
    (l.cap = 0#32 → exec (.dlRead c) s = .next { s with errors := s.errors ||| 0x08#7 })

/-- R86: where a delay line's slot does not exist in the RAM, the commands that reach it stop with a fault (log 12; no
state within R55's invariant does). -/
def Obligations.DelayRamAccessOutsideTheRamFaults : Prop :=
  ∀ (s : State) (c : Channel), (s.lines.get c).cap ≠ 0#32 →
    (s.memDepth ≤ (s.lines.get c).cursor.toNat → exec (.dlWrite c) s = .fault .delayRamIndex) ∧
    (inRange s.operands.arg0 (s.lines.get c).cap.toNat = true →
      s.memDepth ≤ (s.lines.get c).slotAt (floorToInt s.operands.arg0) →
      exec (.dlRead c) s = .fault .delayRamIndex)

/-- R283, R281, R195: `PREPARE` with a sample rate it accepts: every field it writes, and the frame. -/
def Obligations.PrepareSetsUpThePipeline : Prop :=
  ∀ s : State,
    let r := s.operands
    let sr := r.cfgSampleRate.toInt
    (∀ c, (s.lines.get c).ram.wf = true) → 0 < sr → 2 * sr ≤ (s.memDepth : Int) →
    ∃ t, exec .prepare s = .next t ∧
      t.sampleRate = r.cfgSampleRate ∧ t.sampleRateF = i2f sr ∧ t.maxBlock = r.cfgMaxBlock ∧
      t.coefD = fsub 0x3F800000#32 (exp32 (fdiv 0xBF800000#32 (fmul r.cfgTauDelay (i2f sr)))) ∧
      t.coefM = fsub 0x3F800000#32 (exp32 (fdiv 0xBF800000#32 (fmul r.cfgTauMod (i2f sr)))) ∧
      (∀ c, ((t.lines.get c).cap.toNat : Int) = 2 * sr ∧ (t.lines.get c).cursor = 0#32 ∧
        (∀ i : Nat, (i : Int) < 2 * sr → (t.lines.get c).ram.readWord i = 0#32) ∧
        (∀ a : Nat, 8 * sr ≤ (a : Int) → t.ramByte c a = s.ramByte c a)) ∧
      t.snap.targets.delayLeft = i2f r.paramDelayL.toInt ∧
      t.snap.targets.delayRight =
        (if r.paramSwitches.getLsbD 0 = true then i2f r.paramDelayR.toInt else i2f r.paramDelayL.toInt) ∧
      t.snap.targets.depth = r.paramDepth ∧ t.snap.targets.rate = r.paramRate ∧
      t.snap.dual = r.paramSwitches.getLsbD 0 ∧ t.snap.chorus = r.paramSwitches.getLsbD 1 ∧
      t.snap.idxTerm = r.cfgMode.getLsbD 0 ∧ t.snap.dryWet = r.cfgDryWet ∧ t.snap.depthScale = r.cfgDepthScale ∧
      (∀ k, (t.sp.get k).cur = t.snap.targets.get k ∧ (t.sp.get k).tgt = t.snap.targets.get k ∧
        (t.sp.get k).step = 0#32 ∧ (t.sp.get k).cnt = 0#32 ∧
        (t.sp.get k).n = (rampSteps (if k = .delayLeft ∨ k = .delayRight then r.cfgRampDelay else r.cfgRampMod) sr).1 ∧
        t.ops.get k = t.snap.targets.get k) ∧
      t.phase.left = r.cfgPhase0L ∧ t.phase.right = r.cfgPhase0R ∧ t.blockIdx = 0#32 ∧ t.prepared = true ∧
      t.errors = (if fgt r.cfgRampDelay 0#32 = true ∧ fgt r.cfgRampMod 0#32 = true then s.errors
        else s.errors ||| 0x20#7) ∧
      t.memDepth = s.memDepth ∧ t.regs = s.regs ∧ t.busy = s.busy ∧ t.pending = s.pending ∧ t.draws = s.draws ∧
      t.agenda = s.agenda ∧ t.reads = s.reads

/-- R283: `PREPARE` with a sample rate whose capacity is not in [1, `MEM_DEPTH`] raises `INVALID_CAPACITY` and keeps the
state, prepared or not. -/
def Obligations.PrepareRefusesABadRate : Prop :=
  ∀ s : State,
    (s.operands.cfgSampleRate.toInt ≤ 0 ∨ (s.memDepth : Int) < 2 * s.operands.cfgSampleRate.toInt) →
    exec .prepare s = .next { s with errors := s.errors ||| 0x10#7 }

/-- R285, R281: `BLOCK_START` on a prepared block takes the snapshot, sets the four targets and restarts the sample index;
nothing else changes, the phases, followers and delay lines least of all. -/
def Obligations.BlockStartSnapshotsAndRetargets : Prop :=
  ∀ s : State, s.prepared = true → ∃ t, exec .blockStart s = .next t ∧
    (let r := s.operands
     t.snap.targets.delayLeft = i2f r.paramDelayL.toInt ∧
     t.snap.targets.delayRight =
       (if r.paramSwitches.getLsbD 0 = true then i2f r.paramDelayR.toInt else i2f r.paramDelayL.toInt) ∧
     t.snap.targets.depth = r.paramDepth ∧ t.snap.targets.rate = r.paramRate ∧
     t.snap.dual = r.paramSwitches.getLsbD 0 ∧ t.snap.chorus = r.paramSwitches.getLsbD 1 ∧
     t.snap.idxTerm = r.cfgMode.getLsbD 0 ∧ t.snap.dryWet = r.cfgDryWet ∧ t.snap.depthScale = r.cfgDepthScale) ∧
    (∀ k, let p := s.sp.get k
      let v := t.snap.targets.get k
      (feq v p.tgt = true → t.sp.get k = p) ∧
      (feq v p.tgt = false → t.sp.get k =
        { cur := p.cur, tgt := v, step := fdiv (fsub v p.cur) (i2f p.n.toNat), cnt := p.n, n := p.n })) ∧
    t.blockIdx = 0#32 ∧ { t with snap := s.snap, sp := s.sp, blockIdx := s.blockIdx } = s

/-- R286, R291: `FRAME` on a prepared block with both lines ready completes. Each line stores its input word in the slot
at its cursor and nothing else (no feedback), cursors and phases move, the sample index counts, `OUT_L` and `OUT_R` are
the only registers written, and the only error it can raise is `RANGE`. -/
def Obligations.FrameCompletesAndStoresTheInput : Prop :=
  ∀ s : State, s.prepared = true →
    (∀ c, LineReady s.memDepth (s.lines.get c) ∧ (s.lines.get c).ram.wf = true) →
    ∃ t, exec .frame s = .next t ∧
      (∀ c, (t.lines.get c).cap = (s.lines.get c).cap ∧
        (t.lines.get c).cursor.toNat = ((s.lines.get c).cursor.toNat + 1) % (s.lines.get c).cap.toNat ∧
        (t.lines.get c).ram.readWord (s.lines.get c).cursor.toNat =
          (if c = .left then s.operands.inL else s.operands.inR) ∧
        (∀ a, ¬(s.lines.get c).cursorBytes a → t.ramByte c a = s.ramByte c a)) ∧
      (∀ c, ∃ rate, t.phase.get c = phaseStep s.sampleRateF (s.phase.get c) rate ∧ rate = t.ops.rate) ∧
      t.blockIdx = s.blockIdx + 1#32 ∧ (t.errors = s.errors ∨ t.errors = s.errors ||| 0x40#7) ∧
      { t with
        regs := { t.regs with outL := s.regs.outL, outR := s.regs.outR }
        errors := s.errors, lines := s.lines, sp := s.sp, ops := s.ops, phase := s.phase
        blockIdx := s.blockIdx, draws := s.draws } = s

/-- R286 to R290: what `FRAME` computes: for each channel the retargeted parameter's two steps, the followers, the
modulation, the chorus fold, the delay in samples. In range the output is the mix of the input with the sample read
there, out of range the output word is a free draw (log 1). `RANGE` is raised exactly where a channel is out of range. -/
def Obligations.FrameFollowsThePipeline : Prop :=
  ∀ s t : State, s.prepared = true → (∀ c, LineReady s.memDepth (s.lines.get c)) → exec .frame s = .next t →
    let depthF := follow s.sp.depth.next.cur s.sp.depth.next.next.cur s.ops.depth s.coefM
    let rateF := follow s.sp.rate.next.cur s.sp.rate.next.next.cur s.ops.rate s.coefM
    let p : Channel → Smoothed := fun c => (s.sp.get (delayParam c)).setTarget (s.snap.targets.get (delayParam c))
    let d : Channel → Word := fun c =>
      let d0 := follow (p c).next.cur (p c).next.next.cur (s.ops.get (delayParam c)) s.coefD
      let m := modulation s.sampleRateF (s.phase.get c) rateF depthF s.snap.depthScale s.blockIdx s.snap.idxTerm
      let xm := fadd d0 m
      if s.snap.chorus = true ∧ feq d0 0#32 = false then fadd xm (fmul (fsub xm d0) s.coefD) else d0
    let dS : Channel → Word := fun c => fdiv (fmul (d c) s.sampleRateF) 0x447A0000#32
    let ok : Channel → Bool := fun c => inRange (dS c) (s.lines.get c).cap.toNat
    (∀ c,
      let x := if c = .left then s.operands.inL else s.operands.inR
      let out := if c = .left then t.regs.outL else t.regs.outR
      t.ops.get (delayParam c) = d c ∧ t.sp.get (delayParam c) = (p c).next.next ∧
      (ok c = true → ∃ y, (s.lines.get c).readAt s.memDepth (dS c) = .ok y ∧ out = mixOf x y s.snap.dryWet) ∧
      (ok c = false → out = Config.freeWord (if c = .right ∧ ok .left = false then s.draws + 1 else s.draws))) ∧
    t.ops.depth = depthF ∧ t.ops.rate = rateF ∧ t.sp.depth = s.sp.depth.next.next ∧ t.sp.rate = s.sp.rate.next.next ∧
    (ok .left = true → ok .right = true → t.errors = s.errors ∧ t.draws = s.draws) ∧
    (ok .left = false ∨ ok .right = false → t.errors = s.errors ||| 0x40#7)

/-! ### Delay lines, ramps and the LFO over many commands -/

/-- R161: after a line is configured and receives the writes `ws`, a read at an integer delay `n` in range returns, bit for
bit, the sample written `n` writes ago, the one written `cap` writes ago for `n` = 0, and +0 where there was none. -/
def Obligations.IntegerDelayReadsThePastWrite : Prop :=
  ∀ (depth cap n : Nat) (l0 l : DelayLine) (ws : List Word) (d : Word),
    l0.ram.wf = true → 0 < cap → cap < 2 ^ 32 → cap ≤ depth →
    (l0.configure cap).writeAll depth ws = .ok l →
    isFinite d = true → scaled d = (n : Int) * unitsPerOne → n ≤ cap - 1 →
    let back := if n = 0 then cap else n
    l.readAt depth d = .ok (if back ≤ ws.length then ws.getD (ws.length - back) 0#32 else 0#32)

/-- R151: the one-pass zero-fill (log 17) is the loop of word writes the rule gives. -/
def Obligations.ZeroFillIsTheLoopOfWrites : Prop :=
  ∀ (m : Memory) (cap : Nat), m.wf = true →
    (List.range cap).foldl (fun (m : Memory) i => m.writeWord i 0#32) m = m.zeroFill cap

/-- R153: `InRange` compares the real value of the delay exactly; NaN and the infinities are out of range. -/
def Obligations.InRangeComparesExactly : Prop :=
  ∀ (d : Word) (cap : Nat), 0 < cap →
    (isFinite d = true → (inRange d cap = true ↔ 0 ≤ floatValue d ∧ floatValue d ≤ (cap : ℚ) - 1)) ∧
    (isFinite d = false → inRange d cap = false)

/-- R186: after `m` calls, `m` at least the steps left, the ramp has landed on its target exactly and stays there. -/
def Obligations.RampLandsOnItsTarget : Prop :=
  ∀ (p : Smoothed) (m : Nat), p.cnt ≠ 0#32 → p.cnt.toNat ≤ m →
    (p.nextTimes m).cur = p.tgt ∧ (p.nextTimes m).cnt = 0#32 ∧ (p.nextTimes m).tgt = p.tgt

/-- R185, R186: a call that takes a step never returns a value beyond the target in the direction of the step. -/
def Obligations.RampNeverOvershoots : Prop :=
  ∀ (p : Smoothed), p.cnt ≠ 0#32 →
    ¬(fgt p.step 0#32 = true ∧ fgt p.next.cur p.tgt = true) ∧ ¬(flt p.step 0#32 = true ∧ flt p.next.cur p.tgt = true)

/-- R223: with the phase and the increment in [0, 2π), the next phase is in [0, 2π). -/
def Obligations.PhaseStaysBelowTwoPi : Prop :=
  ∀ (srf ph rate : Word),
    fge ph 0#32 = true → flt ph 0x40C90FDB#32 = true →
    fge (phaseIncrement srf rate) 0#32 = true → flt (phaseIncrement srf rate) 0x40C90FDB#32 = true →
    fge (phaseStep srf ph rate) 0#32 = true ∧ flt (phaseStep srf ph rate) 0x40C90FDB#32 = true

/-- R227: with the index term off, a `FRAME` does not depend on where its block began: with any other sample index it
gives the same state but for the index itself. -/
def Obligations.FrameIgnoresTheBlockWithIndexTermOff : Prop :=
  ∀ (s t : State) (b : Word), s.snap.idxTerm = false → s.prepared = true → exec .frame s = .next t →
    exec .frame { s with blockIdx := b } = .next { t with blockIdx := b + 1#32 }

/-- R292: two channels in equal states with equal inputs give equal outputs and stay equal, where no `RANGE` is raised. -/
def Obligations.MirroredChannelsStayMirrored : Prop :=
  ∀ s t : State, s.prepared = true → s.Mirrored → s.operands.inL = s.operands.inR →
    exec .frame s = .next t → t.errors.getLsbD 6 = false →
    t.regs.outL = t.regs.outR ∧ t.Mirrored

/-- R293: right after a `BLOCK_START` the per-frame update of the delay-time targets changes nothing. -/
def Obligations.FrameRetargetAgreesWithBlockStart : Prop :=
  ∀ s t : State, s.prepared = true → exec .blockStart s = .next t →
    t.retarget .delayLeft = t ∧ t.retarget .delayRight = t

/-- R291, R294: with chorus off and a channel settled at a positive delay time whose delay in samples is an integer `n` in
range, the frame's output is the mix of the input with the slot `n` writes back, and the channel stays settled. -/
def Obligations.SettledFrameOutputsTheDelayedSample : Prop :=
  ∀ (s t : State) (c : Channel) (d : Word) (n : Nat),
    s.prepared = true → (∀ c, LineReady s.memDepth (s.lines.get c)) → s.snap.chorus = false →
    isFinite d = true → flt 0#32 d = true → isFinite s.coefD = true →
    s.snap.targets.get (delayParam c) = d → (s.sp.get (delayParam c)).cur = d → (s.sp.get (delayParam c)).tgt = d →
    (s.sp.get (delayParam c)).cnt = 0#32 → s.ops.get (delayParam c) = d →
    isFinite (delaySamples d s.sampleRateF) = true →
    scaled (delaySamples d s.sampleRateF) = (n : Int) * unitsPerOne → n + 1 ≤ (s.lines.get c).cap.toNat →
    exec .frame s = .next t →
    (if c = .left then t.regs.outL else t.regs.outR) =
      mixOf (if c = .left then s.operands.inL else s.operands.inR)
        ((s.lines.get c).ram.readWord ((((s.lines.get c).cursor.toNat : Int) - n) % (s.lines.get c).cap.toNat).toNat)
        s.snap.dryWet ∧
    t.ops.get (delayParam c) = d ∧ t.sp.get (delayParam c) = s.sp.get (delayParam c)

/-! ### binary32 -/

/-- R10: every NaN result is 0x7FC00000. -/
def Obligations.NaNResultsAreCanonical : Prop :=
  ∀ a b : Word,
    (isNaN (fadd a b) = true → fadd a b = 0x7FC00000#32) ∧ (isNaN (fsub a b) = true → fsub a b = 0x7FC00000#32) ∧
    (isNaN (fmul a b) = true → fmul a b = 0x7FC00000#32) ∧ (isNaN (fdiv a b) = true → fdiv a b = 0x7FC00000#32) ∧
    (isNaN (sin32 a) = true → sin32 a = 0x7FC00000#32) ∧ (isNaN (exp32 a) = true → exp32 a = 0x7FC00000#32)

/-- R10, R12: the sum, difference, product and quotient of two finite patterns, and the conversion of an integer, are the
exact real result rounded to nearest, ties to even, with gradual underflow and overflow to a signed infinity
(`RoundsTo`). -/
def Obligations.AddRoundsToNearestEven : Prop :=
  (∀ a b : Word, isFinite a = true → isFinite b = true →
    RoundsTo (floatValue a + floatValue b) (fadd a b) ∧
    RoundsTo (floatValue a - floatValue b) (fsub a b) ∧
    RoundsTo (floatValue a * floatValue b) (fmul a b) ∧
    (floatValue b ≠ 0 → RoundsTo (floatValue a / floatValue b) (fdiv a b))) ∧
  (∀ n : Int, RoundsTo (n : ℚ) (i2f n))

/-- R12: `i2f` is exact below 2^24 in magnitude. -/
def Obligations.IntegersBelow24BitsConvertExactly : Prop :=
  ∀ n : Int, n.natAbs < 2 ^ 24 → isFinite (i2f n) = true ∧ floatValue (i2f n) = (n : ℚ)

/-! ### The whole machine -/

/-- R42, R49, R52, R53, R55, R56, R63, R281, R6: the invariants of the rules hold after every step that has a next
state, from every state in which they hold. -/
def Obligations.StepKeepsTheInvariant : Prop :=
  ∀ s t : State, s.Inv → step s = .next t → t.Inv

/-- R360: the invariants hold at reset. -/
def Obligations.ResetHasTheInvariant : Prop := State.reset.Inv

/-- R86, R155, R321: from a state in which the invariants hold no step faults (the faults are the model's: log 12), and the only thing a step refuses is a bus
access that does not exist (R83). -/
def Obligations.NoFaultWithinTheInvariant : Prop :=
  ∀ s : State, s.Inv → s.StepsSafely ∧
    (∀ r, step s = .refused r → ∃ x rest, s.agenda = .host x :: rest ∧ x.wellFormed = false)

/-- R31, R34, R361: what the host reads right after reset, and that nothing is in flight. -/
def Obligations.ResetReadsTheTable : Prop :=
  State.reset.pending = none ∧ State.reset.prepared = false ∧
  ∀ x ∈ ([(0x000, 0x43484F52), (0x004, 0x00000007), (0x008, 0), (0x00C, 0), (0x010, 0), (0x014, 0), (0x018, 0), (0x01C, 0),
      (0x020, 0x00000019), (0x024, 0x0000000F), (0x028, 0x3E800000), (0x02C, 0x3FC00000), (0x030, 0x00000001),
      (0x040, 0), (0x044, 0), (0x048, 0x3D4CCCCD), (0x04C, 0x3D4CCCCD), (0x050, 0x3DCCCCCD), (0x054, 0x3C23D70A),
      (0x058, 0x3F800000), (0x05C, 0x3F800000), (0x060, 0x00000001), (0x064, 0), (0x068, 0),
      (0x080, 0), (0x084, 0), (0x088, 0), (0x08C, 0), (0x114, 0x00000005), (0x120, 0), (0x128, 0), (0x150, 1),
      (0x158, 0x41C80000), (0x178, 0x41700000), (0x198, 0x3E800000), (0x1B8, 0x3FC00000)] : List (Nat × Nat)),
    (State.reset.busRead (BitVec.ofNat 12 x.1)).2 = BitVec.ofNat 32 x.2

/-- R360, R362: a reset event, whatever command is in flight and whatever `CMD` word is written at the same time, puts
every register and engine field at its reset value. `MEM_DEPTH` stays, and so do the model's own fields and the RAM's
words, which the spec leaves open (log 5, log 19). -/
def Obligations.ResetAbandonsTheCommand : Prop :=
  ∀ (s : State) (x : Option Word) (rest : List Turn), s.agenda = .reset x :: rest →
    ∃ t, step s = .next t ∧
      t.lines.left.cap = 0#32 ∧ t.lines.right.cap = 0#32 ∧ t.lines.left.cursor = 0#32 ∧ t.lines.right.cursor = 0#32 ∧
      { t with memDepth := State.reset.memDepth, lines := State.reset.lines, draws := 0, agenda := [], reads := [] } =
        State.reset

/-- R61, R92, R367: a command reads the copy of the host registers in flight with it, and a host write of a read-write
register meanwhile commutes with the command's execution: the command neither sees the write nor undoes it. -/
def Obligations.HostWritesDoNotAffectTheCommandInFlight : Prop :=
  (∀ (s : State) (p : Pending), s.pending = some p → s.operands = p.regs) ∧
  (∀ (s : State) (r : Reg) (v : Word), r ∈ readWriteRegs → s.pending ≠ none →
    engineTurn (s.busWrite (busOffset r) v) =
      match engineTurn s with
      | .next t => .next (t.busWrite (busOffset r) v)
      | .fault f => .fault f
      | .refused e => .refused e)

/-- R125: a command leaves the result registers R124 does not list for it as they were. -/
def Obligations.ResultRegistersKeepTheirValues : Prop :=
  ∀ (i : Instr) (s t : State), exec i s = .next t →
    (writesResult i = false → t.regs.result = s.regs.result) ∧
    (i ≠ .frame → t.regs.outL = s.regs.outL ∧ t.regs.outR = s.regs.outR)

/-- R35, R64, R92: no command writes a host register but `RESULT`, `OUT_L` and `OUT_R`, the command in flight, or the
host's agenda and reads. -/
def Obligations.CommandsWriteNoInputRegister : Prop :=
  ∀ (i : Instr) (s t : State), exec i s = .next t →
    { t.regs with result := s.regs.result, outL := s.regs.outL, outR := s.regs.outR } = s.regs ∧
    t.pending = s.pending ∧ t.busy = s.busy ∧ t.agenda = s.agenda ∧ t.reads = s.reads ∧ t.memDepth = s.memDepth

/-- R53, R54, R52: only `PREPARE` writes the latched configuration, only `PREPARE` and `BLOCK_START` write the snapshot,
only `PREPARE` and `RELEASE` write `S.prepared`, and only `PREPARE`, `BLOCK_START` and `FRAME` write the sample index. -/
def Obligations.ConfigurationAndSnapshotWriters : Prop :=
  ∀ (i : Instr) (s t : State), exec i s = .next t →
    (i ≠ .prepare → t.sampleRate = s.sampleRate ∧ t.sampleRateF = s.sampleRateF ∧ t.maxBlock = s.maxBlock ∧
      t.coefD = s.coefD ∧ t.coefM = s.coefM) ∧
    (i ≠ .prepare → i ≠ .blockStart → t.snap = s.snap) ∧
    (i ≠ .prepare → i ≠ .release → t.prepared = s.prepared) ∧
    (i ≠ .prepare → i ≠ .blockStart → i ≠ .frame → t.blockIdx = s.blockIdx)

/-- R323, R324: an error bit that is set stays set through every step but a host write of `STATUS` and a reset. -/
def Obligations.ErrorBitsAreSticky : Prop :=
  ∀ s t : State, step s = .next t →
    (∀ x rest, s.agenda ≠ .reset x :: rest) →
    (∀ size off v rest, s.agenda = .host (.write size off v) :: rest → off ≠ 0x00C#12) →
    s.errors &&& t.errors = s.errors

/-- R62, R150: a unit command on one channel neither changes nor reads the other channel's delay line and phase. -/
def Obligations.ChannelsAreIndependent : Prop :=
  ∀ (i : Channel → Instr), i ∈ [Instr.dlConfigure, Instr.dlWrite, Instr.dlRead, Instr.lfoAdvance] →
    ∀ (s t : State) (c o : Channel), o ≠ c → exec (i c) s = .next t →
      t.lines.get o = s.lines.get o ∧ t.phase.get o = s.phase.get o ∧
      ∀ (l : DelayLine) (p : Word),
        exec (i c) { s with lines := s.lines.set o l, phase := s.phase.set o p } =
          .next { t with lines := t.lines.set o l, phase := t.phase.set o p }

/-- R64: no host transaction changes the engine's state: a bus write other than of `CMD` changes only the host registers
or the error bits, and a bus read changes nothing but the count of free draws. -/
def Obligations.HostCannotWriteTheEngineState : Prop :=
  ∀ (s : State) (off : Offset) (v : Word),
    (off ≠ 0x008#12 → { s.busWrite off v with regs := s.regs, errors := s.errors } = s) ∧
    (off ≠ 0x00C#12 → off ≠ 0x008#12 → (s.busWrite off v).errors = s.errors) ∧
    { (s.busRead off).1 with draws := s.draws } = s
end

