-- ==== Sys2Proof/Laws/Float.lean ====
section
/-! SUPPORT. Laws of binary32 rounding: a magnitude as a function of bits 30:0, the fields of a packed pattern, that a
representable value rounds to itself, and that a rounded value is a nearest one, the even one of two. -/

namespace Sys2Proof.Machine

/-- The magnitude, in units of 2^-149, of bits 30:0 of a finite pattern. -/
def magBits (b : Nat) : Nat :=
  if b / 2 ^ 23 = 0 then b % 2 ^ 23 else (2 ^ 23 + b % 2 ^ 23) * 2 ^ (b / 2 ^ 23 - 1)

/-- Bits 30:0 of a pattern. -/
def absBits (v : Word) : Nat := v.toNat % 2 ^ 31

theorem absBits_lt (v : Word) : absBits v < 2 ^ 31 := Nat.mod_lt _ (by norm_num)

theorem expField_eq (v : Word) : expField v = absBits v / 2 ^ 23 := by
  have h := v.isLt
  simp only [expField, absBits, BitVec.extractLsb'_toNat, Nat.shiftRight_eq_div_pow]
  omega

theorem fracField_eq (v : Word) : fracField v = absBits v % 2 ^ 23 := by
  have h := v.isLt
  simp only [fracField, absBits, BitVec.extractLsb'_toNat, Nat.shiftRight_eq_div_pow]
  omega

theorem signBit_eq (v : Word) : signBit v = decide (2 ^ 31 ≤ v.toNat) := by
  simp only [signBit, BitVec.msb_eq_decide]

theorem magnitude_eq (v : Word) : magnitude v = magBits (absBits v) := by
  simp only [magnitude, magBits, expField_eq, fracField_eq]

theorem isFinite_iff (v : Word) : isFinite v = true ↔ absBits v < 0x7F800000 := by
  have := absBits_lt v
  simp only [isFinite, expField_eq, bne_iff_ne, ne_eq]
  omega

theorem isNaN_iff (v : Word) : isNaN v = true ↔ 0x7F800000 < absBits v := by
  have := absBits_lt v
  simp only [isNaN, expField_eq, fracField_eq, Bool.and_eq_true, beq_iff_eq, bne_iff_ne, ne_eq]
  omega

theorem isInf_iff (v : Word) : isInf v = true ↔ absBits v = 0x7F800000 := by
  have := absBits_lt v
  simp only [isInf, expField_eq, fracField_eq, Bool.and_eq_true, beq_iff_eq]
  omega

theorem isNaN_of_isFinite {v : Word} (h : isFinite v = true) : isNaN v = false := by
  rw [isFinite_iff] at h
  rw [Bool.eq_false_iff, ne_eq, isNaN_iff]
  omega

theorem isInf_of_isFinite {v : Word} (h : isFinite v = true) : isInf v = false := by
  rw [isFinite_iff] at h
  rw [Bool.eq_false_iff, ne_eq, isInf_iff]
  omega

theorem isFinite_of_not {v : Word} (hn : isNaN v = false) (hi : isInf v = false) : isFinite v = true := by
  rw [isFinite_iff]
  rw [Bool.eq_false_iff, ne_eq, isNaN_iff] at hn
  rw [Bool.eq_false_iff, ne_eq, isInf_iff] at hi
  omega

theorem packFloat_toNat (neg : Bool) {b : Nat} (h : b < 2 ^ 31) :
    (packFloat neg b).toNat = if neg then 2 ^ 31 + b else b := by
  simp only [packFloat, BitVec.toNat_ofNat]
  split <;> omega

theorem absBits_packFloat (neg : Bool) {b : Nat} (h : b < 2 ^ 31) : absBits (packFloat neg b) = b := by
  rw [absBits, packFloat_toNat _ h]
  split <;> omega

theorem signBit_packFloat (neg : Bool) {b : Nat} (h : b < 2 ^ 31) : signBit (packFloat neg b) = neg := by
  rw [signBit_eq, packFloat_toNat _ h]
  cases neg
  · simp; omega
  · simp

/-- A pattern is its sign and its bits 30:0. -/
theorem packFloat_eta (v : Word) : packFloat (signBit v) (absBits v) = v := by
  have h := v.isLt
  apply BitVec.eq_of_toNat_eq
  rw [packFloat_toNat _ (absBits_lt v), signBit_eq, absBits]
  simp only [decide_eq_true_eq]
  split <;> omega

theorem roundUnits_le (num den : Nat) : roundUnits num den ≤ 0x7F800000 := Nat.min_le_right _ _

theorem roundUnits_lt (num den : Nat) : roundUnits num den < 2 ^ 31 :=
  Nat.lt_of_le_of_lt (roundUnits_le num den) (by norm_num)

/-- Bits 30:0 as a significand and the place `k` of its last bit. -/
theorem magBits_split (b : Nat) :
    ∃ k m, b = k * 2 ^ 23 + m ∧ magBits b = m * 2 ^ k ∧ m < 2 ^ 24 ∧ (k = 0 ∨ 2 ^ 23 ≤ m) := by
  by_cases h : b / 2 ^ 23 = 0
  · exact ⟨0, b, by omega, by simp only [magBits, if_pos h]; omega, by omega, .inl rfl⟩
  · refine ⟨b / 2 ^ 23 - 1, 2 ^ 23 + b % 2 ^ 23, by omega, by simp only [magBits, if_neg h], by omega, .inr (by omega)⟩

/-- The magnitude of a significand at a place, the carry of a full significand into the exponent included. -/
theorem magBits_of_split {k m : Nat} (hm : m ≤ 2 ^ 24) (hk : k = 0 ∨ 2 ^ 23 ≤ m) :
    magBits (k * 2 ^ 23 + m) = m * 2 ^ k := by
  rcases Nat.lt_or_ge m (2 ^ 23) with h | h
  · have h0 : k = 0 := by omega
    subst h0
    rw [magBits, if_pos (by omega), Nat.zero_mul, Nat.zero_add, Nat.mod_eq_of_lt h, Nat.pow_zero, Nat.mul_one]
  · rcases Nat.lt_or_ge m (2 ^ 24) with h24 | h24
    · have hd : (k * 2 ^ 23 + m) / 2 ^ 23 = k + 1 := by omega
      have hr : (k * 2 ^ 23 + m) % 2 ^ 23 = m - 2 ^ 23 := by omega
      rw [magBits, hd, hr, if_neg (by omega), Nat.add_sub_cancel, show 2 ^ 23 + (m - 2 ^ 23) = m by omega]
    · have hd : (k * 2 ^ 23 + m) / 2 ^ 23 = k + 2 := by omega
      have hr : (k * 2 ^ 23 + m) % 2 ^ 23 = 0 := by omega
      have hm2 : m = 2 ^ 23 * 2 := by omega
      rw [magBits, hd, hr, if_neg (by omega), hm2, Nat.add_zero, show k + 2 - 1 = k + 1 by omega, Nat.mul_assoc,
        show 2 ^ (k + 1) = 2 * 2 ^ k by rw [Nat.pow_succ, Nat.mul_comm]]

theorem divNearestEven_mul {m den : Nat} (h : 0 < den) : divNearestEven (m * den) den = m := by
  have h1 : m * den / den = m := Nat.mul_div_cancel _ h
  have h2 : m * den % den = 0 := Nat.mul_mod_left _ _
  simp only [divNearestEven, h1, h2, Nat.mul_zero, if_pos h]

theorem log2_place {q : Nat} : Nat.log2 q - 23 = 0 ∧ q < 2 ^ 24 ∨
    ∃ k, Nat.log2 q - 23 = k ∧ 2 ^ (k + 23) ≤ q ∧ q < 2 ^ (k + 24) := by
  by_cases h0 : q = 0
  · subst h0; left; exact ⟨rfl, by norm_num⟩
  · by_cases h : q < 2 ^ 24
    · left
      have := (Nat.log2_lt h0).2 h
      exact ⟨by omega, h⟩
    · right
      have h1 : 24 ≤ Nat.log2 q := by
        by_contra hc
        exact h ((Nat.log2_lt h0).1 (by omega))
      refine ⟨Nat.log2 q - 23, rfl, ?_, ?_⟩
      · rw [Nat.sub_add_cancel (by omega)]
        exact Nat.log2_self_le h0
      · have : Nat.log2 q - 23 + 24 = Nat.log2 q + 1 := by omega
        rw [this]
        exact Nat.lt_log2_self

/-- A representable magnitude rounds to itself. -/
theorem roundUnits_exact {b den : Nat} (hb : b < 0x7F800000) (hden : 0 < den) :
    roundUnits (magBits b * den) den = b := by
  obtain ⟨k, m, hbk, hmag, hm, hk⟩ := magBits_split b
  have hq : magBits b * den / den = m * 2 ^ k := by rw [Nat.mul_div_cancel _ hden, hmag]
  have hlog : Nat.log2 (m * 2 ^ k) - 23 = k := by
    rcases hk with h0 | h23
    · subst h0
      rcases log2_place (q := m * 2 ^ 0) with h | ⟨k', hk', hle, _⟩
      · exact h.1
      · rw [Nat.pow_zero, Nat.mul_one] at hle hk' ⊢
        rw [hk']
        by_contra hne
        have : (2 : Nat) ^ (1 + 23) ≤ 2 ^ (k' + 23) := Nat.pow_le_pow_right (by norm_num) (by omega)
        omega
    · have hpos : m * 2 ^ k ≠ 0 := by positivity
      have h1 : Nat.log2 (m * 2 ^ k) < k + 24 := (Nat.log2_lt hpos).2 (by
        rw [pow_add, Nat.mul_comm]; exact Nat.mul_lt_mul_of_pos_left hm (by positivity))
      have h2 : k + 23 ≤ Nat.log2 (m * 2 ^ k) := (Nat.le_log2 hpos).2 (by
        rw [pow_add, Nat.mul_comm]; exact Nat.mul_le_mul_right _ h23)
      omega
  simp only [roundUnits, hq, hlog]
  have hd : magBits b * den = m * (den * 2 ^ k) := by rw [hmag]; ring
  rw [hd, divNearestEven_mul (by positivity), ← hbk]
  exact Nat.min_eq_left (Nat.le_of_lt hb)

/-- `divNearestEven` is a nearest whole number. -/
theorem divNearestEven_nearest {num den : Nat} (hden : 0 < den) (j : Int) :
    |(divNearestEven num den : Int) * den - num| ≤ |j * den - num| := by
  have hq := Nat.div_add_mod num den
  have hr := Nat.mod_lt num hden
  set q := num / den with hqd
  set r := num % den with hrd
  have hnum : (num : Int) = q * den + r := by
    have : num = q * den + r := by rw [Nat.mul_comm]; omega
    exact_mod_cast this
  have hd : (0 : Int) < den := by exact_mod_cast hden
  have hrl : (r : Int) < den := by exact_mod_cast hr
  have hr0 : (0 : Int) ≤ r := by positivity
  have key : ∀ j : Int, min (r : Int) (den - r) ≤ |j * den - num| := by
    intro j
    rcases le_or_gt j q with h | h
    · have : j * den ≤ q * den := by nlinarith
      rw [abs_of_nonpos (by rw [hnum]; linarith)]
      exact le_trans (min_le_left _ _) (by rw [hnum]; linarith)
    · have : (q + 1 : Int) * den ≤ j * den := by nlinarith
      rw [abs_of_nonneg (by rw [hnum]; linarith)]
      exact le_trans (min_le_right _ _) (by rw [hnum]; linarith)
  have h := key j
  have hres : |(divNearestEven num den : Int) * den - num| = min (r : Int) (den - r) := by
    simp only [divNearestEven, ← hqd, ← hrd]
    split
    · rename_i h1
      have h1' : 2 * (r : Int) < den := by exact_mod_cast h1
      rw [hnum, min_eq_left (by linarith)]
      rw [show (q : Int) * den - (q * den + r) = -r by ring, abs_neg, abs_of_nonneg hr0]
    · split
      · rename_i h1
        have h1' : (den : Int) < 2 * r := by exact_mod_cast h1
        rw [hnum, min_eq_right (by linarith)]
        push_cast
        rw [show ((q : Int) + 1) * den - (q * den + r) = den - r by ring, abs_of_nonneg (by linarith)]
      · rename_i h1 h2
        have h3 : (den : Int) = 2 * r := by
          have : den = 2 * r := by omega
          exact_mod_cast this
        rcases Nat.mod_two_eq_zero_or_one q with h0 | h0
        · rw [h0, hnum, h3, Nat.add_zero]
          rw [show (q : Int) * (2 * r) - (q * (2 * r) + r) = -r by ring, abs_neg, abs_of_nonneg hr0,
            min_eq_left (by linarith)]
        · rw [h0, hnum, h3]
          push_cast
          rw [show ((q : Int) + 1) * (2 * r) - (q * (2 * r) + r) = r by ring, abs_of_nonneg hr0,
            min_eq_left (by linarith)]
  rw [hres]
  exact h

/-- Where another whole number is as near, `divNearestEven` is the even one. -/
theorem divNearestEven_even {num den : Nat} (hden : 0 < den) {j : Int}
    (h : |(divNearestEven num den : Int) * den - num| = |j * den - num|) (hne : j ≠ divNearestEven num den) :
    divNearestEven num den % 2 = 0 := by
  have hq := Nat.div_add_mod num den
  have hr := Nat.mod_lt num hden
  simp only [divNearestEven] at h hne ⊢
  set q := num / den with hqd
  set r := num % den with hrd
  have hnum : (num : Int) = q * den + r := by
    have : num = q * den + r := by rw [Nat.mul_comm]; omega
    exact_mod_cast this
  have hd : (0 : Int) < den := by exact_mod_cast hden
  have hrl : (r : Int) < den := by exact_mod_cast hr
  have hr0 : (0 : Int) ≤ r := by positivity
  split at h
  · rename_i h1
    have h1' : 2 * (r : Int) < den := by exact_mod_cast h1
    rw [if_pos h1] at hne ⊢
    exfalso
    rw [hnum, show (q : Int) * den - (q * den + r) = -r by ring, abs_neg, abs_of_nonneg hr0] at h
    rcases lt_or_gt_of_ne hne with hj | hj
    · have : j * den ≤ (q - 1) * den := by nlinarith
      rw [abs_of_nonpos (by linarith)] at h
      linarith
    · have : ((q : Int) + 1) * den ≤ j * den := by nlinarith
      rw [abs_of_nonneg (by linarith)] at h
      linarith
  · rename_i h1
    rw [if_neg h1] at hne ⊢
    split at h
    · rename_i h2
      have h2' : (den : Int) < 2 * r := by exact_mod_cast h2
      rw [if_pos h2] at hne ⊢
      exfalso
      push_cast at h hne
      rw [hnum, show ((q : Int) + 1) * den - (q * den + r) = den - r by ring, abs_of_nonneg (by linarith)] at h
      rcases lt_or_gt_of_ne hne with hj | hj
      · have : j * den ≤ q * den := by nlinarith
        rw [abs_of_nonpos (by linarith)] at h
        linarith
      · have : ((q : Int) + 2) * den ≤ j * den := by nlinarith
        rw [abs_of_nonneg (by linarith)] at h
        linarith
    · rename_i h2
      rw [if_neg h2]
      omega

theorem roundUnits_split {num den : Nat} (hden : 0 < den) (hfin : roundUnits num den < 0x7F800000) :
    ∃ k, roundUnits num den = k * 2 ^ 23 + divNearestEven num (den * 2 ^ k) ∧
      magBits (roundUnits num den) = divNearestEven num (den * 2 ^ k) * 2 ^ k ∧
      (k = 0 ∨ 2 ^ (k + 23) * den ≤ num) := by
  have hval : roundUnits num den = (Nat.log2 (num / den) - 23) * 2 ^ 23 +
      divNearestEven num (den * 2 ^ (Nat.log2 (num / den) - 23)) := by
    simp only [roundUnits] at hfin ⊢
    omega
  have hbound : ∀ D : Nat, num / D ≤ divNearestEven num D ∧ divNearestEven num D ≤ num / D + 1 := by
    intro D
    simp only [divNearestEven]
    split
    · omega
    · split <;> omega
  refine ⟨_, hval, ?_, ?_⟩
  · rw [hval]
    refine magBits_of_split ?_ ?_
    · rcases log2_place (q := num / den) with ⟨h0, hlt⟩ | ⟨k, hk, _, hlt⟩
      · rw [h0, Nat.pow_zero, Nat.mul_one]
        have := (hbound den).2
        omega
      · rw [hk]
        have h1 := (hbound (den * 2 ^ k)).2
        have h2 : num / (den * 2 ^ k) < 2 ^ 24 := by
          rw [← Nat.div_div_eq_div_mul, Nat.div_lt_iff_lt_mul (by positivity), ← pow_add, Nat.add_comm 24 k]
          exact hlt
        omega
    · rcases log2_place (q := num / den) with ⟨h0, _⟩ | ⟨k, hk, hle, _⟩
      · exact .inl h0
      · right
        rw [hk]
        refine Nat.le_trans ?_ (hbound (den * 2 ^ k)).1
        rw [← Nat.div_div_eq_div_mul, Nat.le_div_iff_mul_le (by positivity), ← pow_add, Nat.add_comm 23 k]
        exact hle
  · rcases log2_place (q := num / den) with ⟨h0, _⟩ | ⟨k, hk, hle, _⟩
    · exact .inl h0
    · right
      rw [hk]
      exact (Nat.le_div_iff_mul_le hden).1 hle

/-- A finite rounded magnitude is a nearest one, and the even one where another is as near. -/
theorem roundUnits_nearest {num den : Nat} (hden : 0 < den) (hfin : roundUnits num den < 0x7F800000) (b : Nat) :
    |(magBits (roundUnits num den) : Int) * den - num| ≤ |(magBits b : Int) * den - num| ∧
    (|(magBits (roundUnits num den) : Int) * den - num| = |(magBits b : Int) * den - num| →
      magBits b ≠ magBits (roundUnits num den) → roundUnits num den % 2 = 0) := by
  obtain ⟨k, hval, hmag, hk⟩ := roundUnits_split hden hfin
  have hD : 0 < den * 2 ^ k := by positivity
  set m := divNearestEven num (den * 2 ^ k) with hm
  have hl : (magBits (roundUnits num den) : Int) * den = (m : Int) * (den * 2 ^ k : Nat) := by
    rw [hmag]; push_cast; ring
  have hnear := fun j : Int => divNearestEven_nearest (num := num) hD j
  obtain ⟨kb, mb, _, hmagb, hmb, _⟩ := magBits_split b
  by_cases hdvd : 2 ^ k ∣ magBits b
  · obtain ⟨j, hj⟩ := hdvd
    have hr : (magBits b : Int) * den = (j : Int) * (den * 2 ^ k : Nat) := by
      rw [hj]; push_cast; ring
    rw [hl, hr]
    refine ⟨hnear j, ?_⟩
    intro he hne
    have hjm : (j : Int) ≠ (m : Int) := by
      intro hc
      apply hne
      have : j = m := by exact_mod_cast hc
      rw [hmag, hj, this, Nat.mul_comm]
    have := divNearestEven_even hD he hjm
    rw [hval]
    omega
  · have hkpos : k ≠ 0 := by
      intro h0; subst h0; simp at hdvd
    have hle : 2 ^ (k + 23) * den ≤ num := by
      rcases hk with h | h
      · exact absurd h hkpos
      · exact h
    have hkb : kb < k := by
      by_contra hc
      apply hdvd
      rw [hmagb]
      exact Dvd.dvd.mul_left (pow_dvd_pow 2 (by omega)) mb
    have hlt : magBits b < 2 ^ (k + 23) := by
      rw [hmagb]
      calc mb * 2 ^ kb < 2 ^ 24 * 2 ^ kb := Nat.mul_lt_mul_of_pos_right hmb (by positivity)
        _ = 2 ^ (kb + 24) := by rw [← pow_add, Nat.add_comm]
        _ ≤ 2 ^ (k + 23) := Nat.pow_le_pow_right (by norm_num) (by omega)
    have h23 := hnear (2 ^ 23)
    have hc : ((2 ^ 23 : Int)) * (den * 2 ^ k : Nat) = ((2 ^ (k + 23) * den : Nat) : Int) := by
      push_cast; ring
    have hstrict : |((2 ^ 23 : Int)) * (den * 2 ^ k : Nat) - num| < |(magBits b : Int) * den - num| := by
      rw [hc]
      have h1 : ((2 ^ (k + 23) * den : Nat) : Int) ≤ num := by exact_mod_cast hle
      have h2 : (magBits b : Int) * den < ((2 ^ (k + 23) * den : Nat) : Int) := by
        have : magBits b * den < 2 ^ (k + 23) * den := Nat.mul_lt_mul_of_pos_right hlt hden
        exact_mod_cast this
      rw [abs_of_nonpos (by linarith), abs_of_nonpos (by linarith)]
      linarith
    rw [hl]
    exact ⟨le_of_lt (lt_of_le_of_lt h23 hstrict), fun he => absurd he (ne_of_lt (lt_of_le_of_lt h23 hstrict))⟩

/-! ### Values, comparisons and results -/

theorem scaled_natAbs (v : Word) : (scaled v).natAbs = magnitude v := by
  simp only [scaled]; split <;> simp

theorem scaled_of_pos {v : Word} (h : signBit v = false) : scaled v = (magnitude v : Int) := by
  simp [scaled, h]

theorem scaled_of_neg {v : Word} (h : signBit v = true) : scaled v = -(magnitude v : Int) := by
  simp [scaled, h]

/-- A pattern whose value is positive has sign 0 and a non-zero magnitude. -/
theorem signBit_of_scaled_pos {v : Word} (h : 0 < scaled v) : signBit v = false ∧ magnitude v ≠ 0 := by
  cases hs : signBit v
  · rw [scaled_of_pos hs] at h
    exact ⟨rfl, by omega⟩
  · rw [scaled_of_neg hs] at h
    omega

theorem isNaN_packFloat (neg : Bool) {b : Nat} (h : b ≤ 0x7F800000) : isNaN (packFloat neg b) = false := by
  rw [Bool.eq_false_iff, ne_eq, isNaN_iff, absBits_packFloat _ (by omega)]
  omega

theorem magnitude_packFloat (neg : Bool) {b : Nat} (h : b < 2 ^ 31) : magnitude (packFloat neg b) = magBits b := by
  rw [magnitude_eq, absBits_packFloat _ h]

/-- A conversion of an integer is never a NaN (R12). -/
theorem isNaN_i2f (n : Int) : isNaN (i2f n) = false := isNaN_packFloat _ (roundUnits_le _ _)

theorem feq_self {v : Word} (h : isNaN v = false) : feq v v = true := by simp [feq, h]

/-- The sum of two finite patterns (R10). -/
theorem fadd_finite {a b : Word} (ha : isFinite a = true) (hb : isFinite b = true) :
    fadd a b = if scaled a + scaled b = 0 then packFloat (signBit a && signBit b) 0
      else packFloat (decide (scaled a + scaled b < 0)) (roundUnits (scaled a + scaled b).natAbs 1) := by
  simp [fadd, isNaN_of_isFinite ha, isNaN_of_isFinite hb, isInf_of_isFinite ha, isInf_of_isFinite hb]

/-- A rounded exact magnitude, with nothing to divide by. -/
theorem roundUnits_magnitude {v : Word} (h : isFinite v = true) : roundUnits (magnitude v) 1 = absBits v := by
  have := roundUnits_exact (b := absBits v) (den := 1) ((isFinite_iff v).1 h) (by norm_num)
  rwa [Nat.mul_one, ← magnitude_eq] at this

/-- Adding a zero to a finite pattern that is no zero gives the pattern (R10). -/
theorem fadd_zero {a z : Word} (ha : isFinite a = true) (hz : isFinite z = true) (hm : magnitude z = 0)
    (hne : magnitude a ≠ 0) : fadd a z = a := by
  have hs0 : scaled z = 0 := by
    have := scaled_natAbs z
    omega
  have hsa : scaled a ≠ 0 := by
    have := scaled_natAbs a
    omega
  rw [fadd_finite ha hz, hs0, Int.add_zero, if_neg hsa, scaled_natAbs, roundUnits_magnitude ha]
  have : decide (scaled a < 0) = signBit a := by
    cases hs : signBit a
    · rw [scaled_of_pos hs]
      simp
    · have h := scaled_of_neg hs
      simp only [decide_eq_true_eq]
      omega
  rw [this, packFloat_eta]

theorem signBit_fneg (v : Word) : signBit (fneg v) = !signBit v := by
  have : (0x80000000#32 : Word).msb = true := by decide
  rw [signBit, fneg, negZero, BitVec.msb_xor, this, Bool.xor_true, signBit]

theorem absBits_fneg (v : Word) : absBits (fneg v) = absBits v := by
  have h : ∀ w : Word, absBits w = (w.extractLsb' 0 31).toNat := by
    intro w
    simp [absBits, BitVec.extractLsb'_toNat]
  rw [h, h]
  congr 1
  apply BitVec.eq_of_getLsbD_eq
  intro j hj
  simp only [BitVec.getLsbD_extractLsb', fneg, negZero, BitVec.getLsbD_xor, Nat.zero_add, hj, decide_true,
    Bool.true_and]
  have : (0x80000000#32 : Word).getLsbD j = false := by
    simp only [BitVec.getLsbD_ofNat]
    have : (2147483648 : Nat) = 2 ^ 31 := by norm_num
    rw [this, Nat.testBit_two_pow]
    simp only [Bool.and_eq_false_imp, decide_eq_true_eq, decide_eq_false_iff_not]
    omega
  rw [this, Bool.xor_false]

theorem isFinite_fneg (v : Word) : isFinite (fneg v) = isFinite v := by
  rw [Bool.eq_iff_iff, isFinite_iff, isFinite_iff, absBits_fneg]

theorem scaled_fneg (v : Word) : scaled (fneg v) = -scaled v := by
  have hm : magnitude (fneg v) = magnitude v := by rw [magnitude_eq, magnitude_eq, absBits_fneg]
  cases hs : signBit v
  · rw [scaled_of_neg (by rw [signBit_fneg, hs]; rfl), scaled_of_pos hs, hm]
  · rw [scaled_of_pos (by rw [signBit_fneg, hs]; rfl), scaled_of_neg hs, hm, Int.neg_neg]

/-- The difference of two finite patterns of equal value is a zero (R10). -/
theorem fsub_of_eq {a b : Word} (ha : isFinite a = true) (hb : isFinite b = true) (h : scaled a = scaled b) :
    ∃ neg, fsub a b = packFloat neg 0 := by
  refine ⟨signBit a && signBit (fneg b), ?_⟩
  rw [fsub, fadd_finite ha (by rw [isFinite_fneg]; exact hb), scaled_fneg, h, if_pos (by omega)]

/-- A zero of either sign equals 0 (R11). -/
theorem feq_zero_packFloat (neg : Bool) : feq (packFloat neg 0) fZero = true := by
  cases neg <;> decide

/-- An integer whose value is a binary32 value converts to that value exactly (R12). -/
theorem i2f_of_scaled {v : Word} {n : Nat} (hv : isFinite v = true) (h : magnitude v = n * unitsPerOne) :
    isFinite (i2f n) = true ∧ scaled (i2f n) = (n : Int) * unitsPerOne := by
  have hb := (isFinite_iff v).1 hv
  have hr : roundUnits (((n : Int).natAbs) * unitsPerOne) 1 = absBits v := by
    rw [Int.natAbs_natCast, ← h]
    exact roundUnits_magnitude hv
  have hi : i2f (n : Int) = packFloat false (absBits v) := by
    have hneg : decide ((n : Int) < 0) = false := by simp
    rw [i2f, hr, hneg]
  constructor
  · rw [hi, isFinite_iff, absBits_packFloat _ (absBits_lt v)]
    exact hb
  · rw [hi, scaled_of_pos (signBit_packFloat _ (absBits_lt v)), magnitude_packFloat _ (absBits_lt v), ← magnitude_eq, h]
    push_cast
    rfl

/-- The fraction of an integer delay is a zero (R154). -/
theorem delay_fraction_zero {d : Word} {n : Nat} (hd : isFinite d = true) (h : scaled d = (n : Int) * unitsPerOne) :
    feq (fsub d (fromInt n)) fZero = true := by
  have hm : magnitude d = n * unitsPerOne := by
    have := scaled_natAbs d
    rw [h] at this
    rw [← this, ← Nat.cast_mul, Int.natAbs_natCast]
  obtain ⟨hf, hs⟩ := i2f_of_scaled hd hm
  obtain ⟨neg, hz⟩ := fsub_of_eq hd hf (by rw [h, hs])
  rw [fromInt, hz]
  exact feq_zero_packFloat neg

end Sys2Proof.Machine
end

