-- ==== Sys2Proof/Laws/Memory.lean ====
section
/-! SUPPORT. The delay RAM's laws: every operation keeps the canonical form, a read after a write gives what was written,
every other byte reads as before, and memories in canonical form with the same bytes are the same list. -/

namespace Sys2Proof.Machine

theorem Memory.wfFrom_mono {m : Memory} {lo lo' : Nat} (h : m.wfFrom lo = true) (hle : lo' ≤ lo) :
    m.wfFrom lo' = true := by
  cases m with
  | nil => rfl
  | cons cell rest =>
    obtain ⟨a, b⟩ := cell
    simp only [Memory.wfFrom, Bool.and_eq_true, decide_eq_true_eq] at h ⊢
    exact ⟨⟨by omega, h.1.2⟩, h.2⟩

/-- A byte below every listed address is not listed. -/
theorem Memory.readByte_below {m : Memory} {lo x : Nat} (h : m.wfFrom lo = true) (hx : x < lo) :
    m.readByte x = unlistedByte := by
  induction m generalizing lo with
  | nil => rfl
  | cons cell rest ih =>
    obtain ⟨a, b⟩ := cell
    simp only [Memory.wfFrom, Bool.and_eq_true, decide_eq_true_eq] at h
    have hax : a ≠ x := by omega
    simp only [Memory.readByte, if_neg hax]
    exact ih h.2 (by omega)

theorem Memory.wfFrom_writeByte {m : Memory} {lo x : Nat} (v : Byte) (h : m.wfFrom lo = true) (hx : lo ≤ x) :
    (m.writeByte x v).wfFrom lo = true := by
  induction m generalizing lo with
  | nil =>
    by_cases hv : v = unlistedByte
    · simp [Memory.writeByte, hv, Memory.wfFrom]
    · simp [Memory.writeByte, hv, Memory.wfFrom, hx]
  | cons cell rest ih =>
    obtain ⟨a, b⟩ := cell
    simp only [Memory.wfFrom, Bool.and_eq_true, decide_eq_true_eq] at h
    simp only [Memory.writeByte]
    by_cases hlt : x < a
    · rw [if_pos hlt]
      by_cases hv : v = unlistedByte
      · simp [hv, Memory.wfFrom, h.1, h.2]
      · have : Memory.wfFrom ((a, b) :: rest) (x + 1) = true := by
          simp only [Memory.wfFrom, Bool.and_eq_true, decide_eq_true_eq]
          exact ⟨⟨by omega, h.1.2⟩, h.2⟩
        rw [if_neg hv, Memory.wfFrom, this]
        simp [hv, hx]
    · rw [if_neg hlt]
      by_cases hax : a = x
      · subst hax
        by_cases hv : v = unlistedByte
        · rw [if_pos rfl, if_pos hv]
          exact Memory.wfFrom_mono h.2 (by omega)
        · simp [hv, Memory.wfFrom, h.2, hx]
      · rw [if_neg hax]
        simp only [Memory.wfFrom, Bool.and_eq_true, decide_eq_true_eq]
        exact ⟨h.1, ih h.2 (by omega)⟩

/-- Writing a byte keeps the canonical form. -/
theorem Memory.wf_writeByte {m : Memory} (x : Nat) (v : Byte) (h : m.wf = true) :
    (m.writeByte x v).wf = true :=
  Memory.wfFrom_writeByte v h (Nat.zero_le x)

theorem Memory.readByte_writeByte_from {m : Memory} {lo : Nat} (x y : Nat) (v : Byte) (h : m.wfFrom lo = true) :
    (m.writeByte x v).readByte y = if y = x then v else m.readByte y := by
  induction m generalizing lo with
  | nil =>
    by_cases hv : v = unlistedByte
    · subst hv
      simp [Memory.writeByte, Memory.readByte]
    · simp [Memory.writeByte, Memory.readByte, hv, eq_comm]
  | cons cell rest ih =>
    obtain ⟨a, b⟩ := cell
    simp only [Memory.wfFrom, Bool.and_eq_true, decide_eq_true_eq] at h
    simp only [Memory.writeByte]
    by_cases hlt : x < a
    · rw [if_pos hlt]
      have hbelow : Memory.readByte ((a, b) :: rest) x = unlistedByte := by
        have : Memory.wfFrom ((a, b) :: rest) a = true := by
          simp [Memory.wfFrom, h.1.2, h.2]
        exact Memory.readByte_below this hlt
      by_cases hv : v = unlistedByte
      · rw [if_pos hv]
        by_cases hy : y = x
        · rw [if_pos hy, hy, hbelow, hv]
        · rw [if_neg hy]
      · rw [if_neg hv, Memory.readByte]
        by_cases hy : y = x
        · simp [hy]
        · rw [if_neg hy, if_neg (fun e => hy e.symm)]
    · rw [if_neg hlt]
      by_cases hax : a = x
      · subst hax
        rw [if_pos rfl]
        by_cases hv : v = unlistedByte
        · rw [if_pos hv]
          by_cases hy : y = a
          · rw [if_pos hy, hy, hv]
            exact Memory.readByte_below h.2 (by omega)
          · simp [Memory.readByte, hy, Ne.symm hy]
        · rw [if_neg hv]
          by_cases hy : y = a
          · simp [Memory.readByte, hy]
          · simp [Memory.readByte, hy, Ne.symm hy]
      · rw [if_neg hax, Memory.readByte, Memory.readByte, ih h.2]
        by_cases hay : a = y
        · rw [if_pos hay, if_pos hay, if_neg (by omega)]
        · rw [if_neg hay, if_neg hay]

/-- A read after a write: the written byte at its address, every other byte as before. -/
theorem Memory.readByte_writeByte {m : Memory} (x y : Nat) (v : Byte) (h : m.wf = true) :
    (m.writeByte x v).readByte y = if y = x then v else m.readByte y :=
  Memory.readByte_writeByte_from x y v h

theorem Memory.wfFrom_filter {m : Memory} {lo : Nat} (n : Nat) (h : m.wfFrom lo = true) :
    (m.zeroFill n).wfFrom lo = true := by
  induction m generalizing lo with
  | nil => rfl
  | cons cell rest ih =>
    obtain ⟨a, b⟩ := cell
    simp only [Memory.wfFrom, Bool.and_eq_true, decide_eq_true_eq] at h
    have hr := ih h.2
    by_cases hc : 4 * n ≤ a
    · simp only [Memory.zeroFill, List.filter, hc, decide_true, Memory.wfFrom, Bool.and_eq_true, decide_eq_true_eq]
      exact ⟨h.1, hr⟩
    · simp only [Memory.zeroFill, List.filter, hc, decide_false]
      exact Memory.wfFrom_mono hr (by omega)

/-- Zero-filling keeps the canonical form. -/
theorem Memory.wf_zeroFill {m : Memory} (n : Nat) (h : m.wf = true) : (m.zeroFill n).wf = true :=
  Memory.wfFrom_filter n h

theorem Memory.readByte_zeroFill_from {m : Memory} {lo : Nat} (n x : Nat) (h : m.wfFrom lo = true) :
    (m.zeroFill n).readByte x = if x < 4 * n then unlistedByte else m.readByte x := by
  induction m generalizing lo with
  | nil => simp [Memory.zeroFill, Memory.readByte]
  | cons cell rest ih =>
    obtain ⟨a, b⟩ := cell
    simp only [Memory.wfFrom, Bool.and_eq_true, decide_eq_true_eq] at h
    have hr := ih h.2
    by_cases hc : 4 * n ≤ a
    · have : Memory.zeroFill ((a, b) :: rest) n = (a, b) :: Memory.zeroFill rest n := by
        simp [Memory.zeroFill, List.filter, hc]
      rw [this, Memory.readByte, Memory.readByte, hr]
      by_cases hax : a = x
      · rw [if_pos hax, if_pos hax, if_neg (by omega)]
      · rw [if_neg hax, if_neg hax]
    · have : Memory.zeroFill ((a, b) :: rest) n = Memory.zeroFill rest n := by
        simp [Memory.zeroFill, List.filter, hc]
      rw [this, hr, Memory.readByte]
      by_cases hx : x < 4 * n
      · rw [if_pos hx, if_pos hx]
      · rw [if_neg hx, if_neg hx, if_neg (by omega)]

/-- A read after a zero-fill: 0 in the filled words, every other byte as before. -/
theorem Memory.readByte_zeroFill {m : Memory} (n x : Nat) (h : m.wf = true) :
    (m.zeroFill n).readByte x = if x < 4 * n then unlistedByte else m.readByte x :=
  Memory.readByte_zeroFill_from n x h

/-- Writing a word keeps the canonical form. -/
theorem Memory.wf_writeWord {m : Memory} (i : Nat) (v : Word) (h : m.wf = true) :
    (m.writeWord i v).wf = true :=
  Memory.wf_writeByte _ _ (Memory.wf_writeByte _ _ (Memory.wf_writeByte _ _ (Memory.wf_writeByte _ _ h)))

/-- The bytes after a word is written: its lanes in the word's four bytes, every other byte as before. -/
theorem Memory.readByte_writeWord {m : Memory} (i x : Nat) (v : Word) (h : m.wf = true) :
    (m.writeWord i v).readByte x =
      if x = 4 * i + 3 then lane v 3 else if x = 4 * i + 2 then lane v 2
      else if x = 4 * i + 1 then lane v 1 else if x = 4 * i then lane v 0 else m.readByte x := by
  have h0 := Memory.wf_writeByte (4 * i) (lane v 0) h
  have h1 := Memory.wf_writeByte (4 * i + 1) (lane v 1) h0
  have h2 := Memory.wf_writeByte (4 * i + 2) (lane v 2) h1
  simp only [Memory.writeWord]
  rw [Memory.readByte_writeByte _ _ _ h2, Memory.readByte_writeByte _ _ _ h1, Memory.readByte_writeByte _ _ _ h0,
    Memory.readByte_writeByte _ _ _ h]

/-- Every byte outside the written word reads as before. -/
theorem Memory.readByte_writeWord_outside {m : Memory} {i x : Nat} (v : Word) (h : m.wf = true)
    (hx : ¬(4 * i ≤ x ∧ x < 4 * i + 4)) : (m.writeWord i v).readByte x = m.readByte x := by
  rw [Memory.readByte_writeWord _ _ _ h, if_neg (by omega), if_neg (by omega), if_neg (by omega), if_neg (by omega)]

/-- The four lanes of a word make it. -/
theorem lanes_append (v : Word) : lane v 3 ++ lane v 2 ++ lane v 1 ++ lane v 0 = v := by
  apply BitVec.eq_of_getLsbD_eq
  intro j hj
  simp only [lane, BitVec.getLsbD_append, BitVec.getLsbD_extractLsb']
  rcases (by omega : j < 8 ∨ (8 ≤ j ∧ j < 16) ∨ (16 ≤ j ∧ j < 24) ∨ (24 ≤ j ∧ j < 32)) with h | h | h | h
  · simp [h]
  · simp [show ¬ j < 8 by omega, show j - 8 < 8 by omega, show 8 + (j - 8) = j by omega]
  · simp [show ¬ j < 8 by omega, show ¬ j - 8 < 8 by omega, show j - 8 - 8 < 8 by omega,
      show 16 + (j - 8 - 8) = j by omega]
  · simp [show ¬ j < 8 by omega, show ¬ j - 8 < 8 by omega, show ¬ j - 8 - 8 < 8 by omega,
      show j - 8 - 8 - 8 < 8 by omega, show 24 + (j - 8 - 8 - 8) = j by omega]

theorem Memory.readWord_of_bytes {m : Memory} {i : Nat} {v : Word} (h0 : m.readByte (4 * i) = lane v 0)
    (h1 : m.readByte (4 * i + 1) = lane v 1) (h2 : m.readByte (4 * i + 2) = lane v 2)
    (h3 : m.readByte (4 * i + 3) = lane v 3) : m.readWord i = v := by
  rw [Memory.readWord, h0, h1, h2, h3]
  exact lanes_append v

/-- A word read where every byte agrees is the same word. -/
theorem Memory.readWord_congr {m m' : Memory} {i : Nat}
    (h : ∀ x, 4 * i ≤ x → x < 4 * i + 4 → m.readByte x = m'.readByte x) : m.readWord i = m'.readWord i := by
  rw [Memory.readWord, Memory.readWord, h _ (by omega) (by omega), h _ (by omega) (by omega),
    h _ (by omega) (by omega), h _ (by omega) (by omega)]

/-- A memory in canonical form is determined by its bytes. -/
theorem Memory.wfFrom_ext {m m' : Memory} {lo : Nat} (h : m.wfFrom lo = true) (h' : m'.wfFrom lo = true)
    (hr : ∀ x, m.readByte x = m'.readByte x) : m = m' := by
  induction m generalizing m' lo with
  | nil =>
    cases m' with
    | nil => rfl
    | cons cell rest =>
      obtain ⟨a, b⟩ := cell
      simp only [Memory.wfFrom, Bool.and_eq_true, decide_eq_true_eq, bne_iff_ne] at h'
      have := hr a
      simp only [Memory.readByte, if_pos] at this
      exact absurd this.symm h'.1.2
  | cons cell rest ih =>
    obtain ⟨a, b⟩ := cell
    have hw := h
    simp only [Memory.wfFrom, Bool.and_eq_true, decide_eq_true_eq, bne_iff_ne] at h
    cases m' with
    | nil =>
      have := hr a
      simp only [Memory.readByte, if_pos] at this
      exact absurd this h.1.2
    | cons cell' rest' =>
      obtain ⟨a', b'⟩ := cell'
      have hw' := h'
      simp only [Memory.wfFrom, Bool.and_eq_true, decide_eq_true_eq, bne_iff_ne] at h'
      have ha : a = a' := by
        rcases Nat.lt_trichotomy a a' with hlt | heq | hgt
        · have hbelow : Memory.readByte ((a', b') :: rest') a = unlistedByte := by
            refine Memory.readByte_below (lo := a') ?_ hlt
            simp [Memory.wfFrom, h'.1.2, h'.2]
          have := hr a
          rw [hbelow] at this
          simp only [Memory.readByte, if_pos] at this
          exact absurd this h.1.2
        · exact heq
        · have hbelow : Memory.readByte ((a, b) :: rest) a' = unlistedByte := by
            refine Memory.readByte_below (lo := a) ?_ hgt
            simp [Memory.wfFrom, h.1.2, h.2]
          have := hr a'
          rw [hbelow] at this
          simp only [Memory.readByte, if_pos] at this
          exact absurd this.symm h'.1.2
      subst ha
      have hb : b = b' := by
        have := hr a
        simpa [Memory.readByte] using this
      subst hb
      have hrest : rest = rest' := by
        refine ih h.2 h'.2 ?_
        intro x
        by_cases hx : a = x
        · subst hx
          rw [Memory.readByte_below h.2 (by omega), Memory.readByte_below h'.2 (by omega)]
        · have := hr x
          simpa [Memory.readByte, hx] using this
      rw [hrest]

/-- Memories in canonical form with the same bytes are the same list. -/
theorem Memory.wf_ext {m m' : Memory} (h : m.wf = true) (h' : m'.wf = true)
    (hr : ∀ x, m.readByte x = m'.readByte x) : m = m' := Memory.wfFrom_ext h h' hr

/-- Writing a byte lists no address but the written one. -/
theorem Memory.mem_writeByte {m : Memory} {x : Nat} {v : Byte} {cell : Host.Cell}
    (h : cell ∈ m.writeByte x v) : cell ∈ m ∨ cell.1 = x := by
  induction m with
  | nil =>
    by_cases hv : v = unlistedByte
    · simp [Memory.writeByte, hv] at h
    · simp [Memory.writeByte, hv] at h
      exact .inr (by rw [h])
  | cons c rest ih =>
    obtain ⟨a, b⟩ := c
    simp only [Memory.writeByte] at h
    split at h
    · split at h
      · exact .inl h
      · rcases List.mem_cons.1 h with h | h
        · exact .inr (by rw [h])
        · exact .inl h
    · split at h
      · split at h
        · exact .inl (List.mem_cons_of_mem _ h)
        · rcases List.mem_cons.1 h with h | h
          · exact .inr (by rw [h])
          · exact .inl (List.mem_cons_of_mem _ h)
      · rcases List.mem_cons.1 h with h | h
        · exact .inl (by rw [h]; exact List.mem_cons_self)
        · rcases ih h with h | h
          · exact .inl (List.mem_cons_of_mem _ h)
          · exact .inr h

/-- Writing a word lists no address past its four bytes. -/
theorem Memory.mem_writeWord {m : Memory} {i : Nat} {v : Word} {cell : Host.Cell}
    (h : cell ∈ m.writeWord i v) : cell ∈ m ∨ (4 * i ≤ cell.1 ∧ cell.1 < 4 * i + 4) := by
  simp only [Memory.writeWord] at h
  rcases Memory.mem_writeByte h with h | h
  · rcases Memory.mem_writeByte h with h | h
    · rcases Memory.mem_writeByte h with h | h
      · rcases Memory.mem_writeByte h with h | h
        · exact .inl h
        · exact .inr (by omega)
      · exact .inr (by omega)
    · exact .inr (by omega)
  · exact .inr (by omega)

/-- Zero-filling lists nothing new. -/
theorem Memory.mem_zeroFill {m : Memory} {n : Nat} {cell : Host.Cell} (h : cell ∈ m.zeroFill n) : cell ∈ m :=
  (List.mem_filter.1 h).1

/-- A delay-RAM read inside the RAM, and what one outside answers (R86). -/
theorem memRead_of_lt {depth i : Nat} (m : Memory) (h : i < depth) : memRead depth m i = .ok (m.readWord i) :=
  if_pos h

theorem memRead_of_ge {depth i : Nat} (m : Memory) (h : ¬ i < depth) : memRead depth m i = .error .delayRamIndex :=
  if_neg h

theorem memWrite_of_lt {depth i : Nat} (m : Memory) (v : Word) (h : i < depth) :
    memWrite depth m i v = .ok (m.writeWord i v) := if_pos h

theorem memWrite_of_ge {depth i : Nat} (m : Memory) (v : Word) (h : ¬ i < depth) :
    memWrite depth m i v = .error .delayRamIndex := if_neg h

end Sys2Proof.Machine
end

