-- ==== Sys2Proof/Laws/PerInstr.lean ====
section
/-! SUPPORT. One statement per command, proved constructor by constructor: its encoding is the table's. -/

namespace Sys2Proof.Laws

/-- R121, R130, R131: the word the encoder writes for `i` selects the row of `i`'s mnemonic in the opcode table and no
other row, and `i` is well formed (R122). -/
def EncodingMatchesTable.Statement (i : Instr) : Prop :=
  i.wellFormed = true ∧
    (opcodeTable.filter (fun r => r.selectedBy (encode i))).map OpcodeRow.mnemonic = [i.mnemonic]

theorem EncodingMatchesTable.nop : EncodingMatchesTable.Statement .nop := ⟨by decide, by decide⟩
theorem EncodingMatchesTable.prepare : EncodingMatchesTable.Statement .prepare := ⟨by decide, by decide⟩
theorem EncodingMatchesTable.release : EncodingMatchesTable.Statement .release := ⟨by decide, by decide⟩
theorem EncodingMatchesTable.blockStart : EncodingMatchesTable.Statement .blockStart := ⟨by decide, by decide⟩
theorem EncodingMatchesTable.frame : EncodingMatchesTable.Statement .frame := ⟨by decide, by decide⟩

theorem EncodingMatchesTable.dlConfigure (c : Channel) : EncodingMatchesTable.Statement (.dlConfigure c) := by
  cases c <;> exact ⟨by decide, by decide⟩

theorem EncodingMatchesTable.dlWrite (c : Channel) : EncodingMatchesTable.Statement (.dlWrite c) := by
  cases c <;> exact ⟨by decide, by decide⟩

theorem EncodingMatchesTable.dlRead (c : Channel) : EncodingMatchesTable.Statement (.dlRead c) := by
  cases c <;> exact ⟨by decide, by decide⟩

theorem EncodingMatchesTable.spReset (k : Param) : EncodingMatchesTable.Statement (.spReset k) := by
  cases k <;> exact ⟨by decide, by decide⟩

theorem EncodingMatchesTable.spInit (k : Param) : EncodingMatchesTable.Statement (.spInit k) := by
  cases k <;> exact ⟨by decide, by decide⟩

theorem EncodingMatchesTable.spSetTarget (k : Param) : EncodingMatchesTable.Statement (.spSetTarget k) := by
  cases k <;> exact ⟨by decide, by decide⟩

theorem EncodingMatchesTable.spNext (k : Param) : EncodingMatchesTable.Statement (.spNext k) := by
  cases k <;> exact ⟨by decide, by decide⟩

theorem EncodingMatchesTable.opStep (k : Param) : EncodingMatchesTable.Statement (.opStep k) := by
  cases k <;> exact ⟨by decide, by decide⟩

theorem EncodingMatchesTable.lfoAdvance (c : Channel) : EncodingMatchesTable.Statement (.lfoAdvance c) := by
  cases c <;> exact ⟨by decide, by decide⟩

theorem EncodingMatchesTable.sinEval : EncodingMatchesTable.Statement .sinEval := ⟨by decide, by decide⟩
theorem EncodingMatchesTable.mix : EncodingMatchesTable.Statement .mix := ⟨by decide, by decide⟩

end Sys2Proof.Laws
end

