-- ==== Sys2Proof/Laws/State.lean ====
section
/-! SUPPORT. One lemma per field of State per named update of Machine/Ops.lean, so that no proof unfolds a record
update; and the get and set laws of the per-channel and per-parameter banks. -/

namespace Sys2Proof.Machine

/-! ### `State.raise` -/

@[simp] theorem State.raise_memDepth (s : State) (e : Error) : (s.raise e).memDepth = s.memDepth := rfl
@[simp] theorem State.raise_regs (s : State) (e : Error) : (s.raise e).regs = s.regs := rfl
@[simp] theorem State.raise_errors (s : State) (e : Error) : (s.raise e).errors = raiseBit s.errors e := rfl
@[simp] theorem State.raise_busy (s : State) (e : Error) : (s.raise e).busy = s.busy := rfl
@[simp] theorem State.raise_prepared (s : State) (e : Error) : (s.raise e).prepared = s.prepared := rfl
@[simp] theorem State.raise_sampleRate (s : State) (e : Error) : (s.raise e).sampleRate = s.sampleRate := rfl
@[simp] theorem State.raise_sampleRateF (s : State) (e : Error) : (s.raise e).sampleRateF = s.sampleRateF := rfl
@[simp] theorem State.raise_maxBlock (s : State) (e : Error) : (s.raise e).maxBlock = s.maxBlock := rfl
@[simp] theorem State.raise_coefD (s : State) (e : Error) : (s.raise e).coefD = s.coefD := rfl
@[simp] theorem State.raise_coefM (s : State) (e : Error) : (s.raise e).coefM = s.coefM := rfl
@[simp] theorem State.raise_snap (s : State) (e : Error) : (s.raise e).snap = s.snap := rfl
@[simp] theorem State.raise_lines (s : State) (e : Error) : (s.raise e).lines = s.lines := rfl
@[simp] theorem State.raise_sp (s : State) (e : Error) : (s.raise e).sp = s.sp := rfl
@[simp] theorem State.raise_ops (s : State) (e : Error) : (s.raise e).ops = s.ops := rfl
@[simp] theorem State.raise_phase (s : State) (e : Error) : (s.raise e).phase = s.phase := rfl
@[simp] theorem State.raise_blockIdx (s : State) (e : Error) : (s.raise e).blockIdx = s.blockIdx := rfl
@[simp] theorem State.raise_pending (s : State) (e : Error) : (s.raise e).pending = s.pending := rfl
@[simp] theorem State.raise_draws (s : State) (e : Error) : (s.raise e).draws = s.draws := rfl
@[simp] theorem State.raise_agenda (s : State) (e : Error) : (s.raise e).agenda = s.agenda := rfl
@[simp] theorem State.raise_reads (s : State) (e : Error) : (s.raise e).reads = s.reads := rfl

/-! ### `State.setResult` -/

@[simp] theorem State.setResult_memDepth (s : State) (v : Word) : (s.setResult v).memDepth = s.memDepth := rfl
@[simp] theorem State.setResult_regs (s : State) (v : Word) : (s.setResult v).regs = { s.regs with result := v } := rfl
@[simp] theorem State.setResult_errors (s : State) (v : Word) : (s.setResult v).errors = s.errors := rfl
@[simp] theorem State.setResult_busy (s : State) (v : Word) : (s.setResult v).busy = s.busy := rfl
@[simp] theorem State.setResult_prepared (s : State) (v : Word) : (s.setResult v).prepared = s.prepared := rfl
@[simp] theorem State.setResult_sampleRate (s : State) (v : Word) : (s.setResult v).sampleRate = s.sampleRate := rfl
@[simp] theorem State.setResult_sampleRateF (s : State) (v : Word) : (s.setResult v).sampleRateF = s.sampleRateF := rfl
@[simp] theorem State.setResult_maxBlock (s : State) (v : Word) : (s.setResult v).maxBlock = s.maxBlock := rfl
@[simp] theorem State.setResult_coefD (s : State) (v : Word) : (s.setResult v).coefD = s.coefD := rfl
@[simp] theorem State.setResult_coefM (s : State) (v : Word) : (s.setResult v).coefM = s.coefM := rfl
@[simp] theorem State.setResult_snap (s : State) (v : Word) : (s.setResult v).snap = s.snap := rfl
@[simp] theorem State.setResult_lines (s : State) (v : Word) : (s.setResult v).lines = s.lines := rfl
@[simp] theorem State.setResult_sp (s : State) (v : Word) : (s.setResult v).sp = s.sp := rfl
@[simp] theorem State.setResult_ops (s : State) (v : Word) : (s.setResult v).ops = s.ops := rfl
@[simp] theorem State.setResult_phase (s : State) (v : Word) : (s.setResult v).phase = s.phase := rfl
@[simp] theorem State.setResult_blockIdx (s : State) (v : Word) : (s.setResult v).blockIdx = s.blockIdx := rfl
@[simp] theorem State.setResult_pending (s : State) (v : Word) : (s.setResult v).pending = s.pending := rfl
@[simp] theorem State.setResult_draws (s : State) (v : Word) : (s.setResult v).draws = s.draws := rfl
@[simp] theorem State.setResult_agenda (s : State) (v : Word) : (s.setResult v).agenda = s.agenda := rfl
@[simp] theorem State.setResult_reads (s : State) (v : Word) : (s.setResult v).reads = s.reads := rfl

/-! ### `State.setSp` -/

@[simp] theorem State.setSp_memDepth (s : State) (k : Param) (p : Smoothed) : (s.setSp k p).memDepth = s.memDepth := rfl
@[simp] theorem State.setSp_regs (s : State) (k : Param) (p : Smoothed) : (s.setSp k p).regs = s.regs := rfl
@[simp] theorem State.setSp_errors (s : State) (k : Param) (p : Smoothed) : (s.setSp k p).errors = s.errors := rfl
@[simp] theorem State.setSp_busy (s : State) (k : Param) (p : Smoothed) : (s.setSp k p).busy = s.busy := rfl
@[simp] theorem State.setSp_prepared (s : State) (k : Param) (p : Smoothed) : (s.setSp k p).prepared = s.prepared := rfl
@[simp] theorem State.setSp_sampleRate (s : State) (k : Param) (p : Smoothed) : (s.setSp k p).sampleRate = s.sampleRate := rfl
@[simp] theorem State.setSp_sampleRateF (s : State) (k : Param) (p : Smoothed) : (s.setSp k p).sampleRateF = s.sampleRateF := rfl
@[simp] theorem State.setSp_maxBlock (s : State) (k : Param) (p : Smoothed) : (s.setSp k p).maxBlock = s.maxBlock := rfl
@[simp] theorem State.setSp_coefD (s : State) (k : Param) (p : Smoothed) : (s.setSp k p).coefD = s.coefD := rfl
@[simp] theorem State.setSp_coefM (s : State) (k : Param) (p : Smoothed) : (s.setSp k p).coefM = s.coefM := rfl
@[simp] theorem State.setSp_snap (s : State) (k : Param) (p : Smoothed) : (s.setSp k p).snap = s.snap := rfl
@[simp] theorem State.setSp_lines (s : State) (k : Param) (p : Smoothed) : (s.setSp k p).lines = s.lines := rfl
@[simp] theorem State.setSp_sp (s : State) (k : Param) (p : Smoothed) : (s.setSp k p).sp = s.sp.set k p := rfl
@[simp] theorem State.setSp_ops (s : State) (k : Param) (p : Smoothed) : (s.setSp k p).ops = s.ops := rfl
@[simp] theorem State.setSp_phase (s : State) (k : Param) (p : Smoothed) : (s.setSp k p).phase = s.phase := rfl
@[simp] theorem State.setSp_blockIdx (s : State) (k : Param) (p : Smoothed) : (s.setSp k p).blockIdx = s.blockIdx := rfl
@[simp] theorem State.setSp_pending (s : State) (k : Param) (p : Smoothed) : (s.setSp k p).pending = s.pending := rfl
@[simp] theorem State.setSp_draws (s : State) (k : Param) (p : Smoothed) : (s.setSp k p).draws = s.draws := rfl
@[simp] theorem State.setSp_agenda (s : State) (k : Param) (p : Smoothed) : (s.setSp k p).agenda = s.agenda := rfl
@[simp] theorem State.setSp_reads (s : State) (k : Param) (p : Smoothed) : (s.setSp k p).reads = s.reads := rfl

/-! ### `State.setOps` -/

@[simp] theorem State.setOps_memDepth (s : State) (k : Param) (v : Word) : (s.setOps k v).memDepth = s.memDepth := rfl
@[simp] theorem State.setOps_regs (s : State) (k : Param) (v : Word) : (s.setOps k v).regs = s.regs := rfl
@[simp] theorem State.setOps_errors (s : State) (k : Param) (v : Word) : (s.setOps k v).errors = s.errors := rfl
@[simp] theorem State.setOps_busy (s : State) (k : Param) (v : Word) : (s.setOps k v).busy = s.busy := rfl
@[simp] theorem State.setOps_prepared (s : State) (k : Param) (v : Word) : (s.setOps k v).prepared = s.prepared := rfl
@[simp] theorem State.setOps_sampleRate (s : State) (k : Param) (v : Word) : (s.setOps k v).sampleRate = s.sampleRate := rfl
@[simp] theorem State.setOps_sampleRateF (s : State) (k : Param) (v : Word) : (s.setOps k v).sampleRateF = s.sampleRateF := rfl
@[simp] theorem State.setOps_maxBlock (s : State) (k : Param) (v : Word) : (s.setOps k v).maxBlock = s.maxBlock := rfl
@[simp] theorem State.setOps_coefD (s : State) (k : Param) (v : Word) : (s.setOps k v).coefD = s.coefD := rfl
@[simp] theorem State.setOps_coefM (s : State) (k : Param) (v : Word) : (s.setOps k v).coefM = s.coefM := rfl
@[simp] theorem State.setOps_snap (s : State) (k : Param) (v : Word) : (s.setOps k v).snap = s.snap := rfl
@[simp] theorem State.setOps_lines (s : State) (k : Param) (v : Word) : (s.setOps k v).lines = s.lines := rfl
@[simp] theorem State.setOps_sp (s : State) (k : Param) (v : Word) : (s.setOps k v).sp = s.sp := rfl
@[simp] theorem State.setOps_ops (s : State) (k : Param) (v : Word) : (s.setOps k v).ops = s.ops.set k v := rfl
@[simp] theorem State.setOps_phase (s : State) (k : Param) (v : Word) : (s.setOps k v).phase = s.phase := rfl
@[simp] theorem State.setOps_blockIdx (s : State) (k : Param) (v : Word) : (s.setOps k v).blockIdx = s.blockIdx := rfl
@[simp] theorem State.setOps_pending (s : State) (k : Param) (v : Word) : (s.setOps k v).pending = s.pending := rfl
@[simp] theorem State.setOps_draws (s : State) (k : Param) (v : Word) : (s.setOps k v).draws = s.draws := rfl
@[simp] theorem State.setOps_agenda (s : State) (k : Param) (v : Word) : (s.setOps k v).agenda = s.agenda := rfl
@[simp] theorem State.setOps_reads (s : State) (k : Param) (v : Word) : (s.setOps k v).reads = s.reads := rfl

/-! ### `State.setPhase` -/

@[simp] theorem State.setPhase_memDepth (s : State) (c : Channel) (v : Word) : (s.setPhase c v).memDepth = s.memDepth := rfl
@[simp] theorem State.setPhase_regs (s : State) (c : Channel) (v : Word) : (s.setPhase c v).regs = s.regs := rfl
@[simp] theorem State.setPhase_errors (s : State) (c : Channel) (v : Word) : (s.setPhase c v).errors = s.errors := rfl
@[simp] theorem State.setPhase_busy (s : State) (c : Channel) (v : Word) : (s.setPhase c v).busy = s.busy := rfl
@[simp] theorem State.setPhase_prepared (s : State) (c : Channel) (v : Word) : (s.setPhase c v).prepared = s.prepared := rfl
@[simp] theorem State.setPhase_sampleRate (s : State) (c : Channel) (v : Word) : (s.setPhase c v).sampleRate = s.sampleRate := rfl
@[simp] theorem State.setPhase_sampleRateF (s : State) (c : Channel) (v : Word) : (s.setPhase c v).sampleRateF = s.sampleRateF := rfl
@[simp] theorem State.setPhase_maxBlock (s : State) (c : Channel) (v : Word) : (s.setPhase c v).maxBlock = s.maxBlock := rfl
@[simp] theorem State.setPhase_coefD (s : State) (c : Channel) (v : Word) : (s.setPhase c v).coefD = s.coefD := rfl
@[simp] theorem State.setPhase_coefM (s : State) (c : Channel) (v : Word) : (s.setPhase c v).coefM = s.coefM := rfl
@[simp] theorem State.setPhase_snap (s : State) (c : Channel) (v : Word) : (s.setPhase c v).snap = s.snap := rfl
@[simp] theorem State.setPhase_lines (s : State) (c : Channel) (v : Word) : (s.setPhase c v).lines = s.lines := rfl
@[simp] theorem State.setPhase_sp (s : State) (c : Channel) (v : Word) : (s.setPhase c v).sp = s.sp := rfl
@[simp] theorem State.setPhase_ops (s : State) (c : Channel) (v : Word) : (s.setPhase c v).ops = s.ops := rfl
@[simp] theorem State.setPhase_phase (s : State) (c : Channel) (v : Word) : (s.setPhase c v).phase = s.phase.set c v := rfl
@[simp] theorem State.setPhase_blockIdx (s : State) (c : Channel) (v : Word) : (s.setPhase c v).blockIdx = s.blockIdx := rfl
@[simp] theorem State.setPhase_pending (s : State) (c : Channel) (v : Word) : (s.setPhase c v).pending = s.pending := rfl
@[simp] theorem State.setPhase_draws (s : State) (c : Channel) (v : Word) : (s.setPhase c v).draws = s.draws := rfl
@[simp] theorem State.setPhase_agenda (s : State) (c : Channel) (v : Word) : (s.setPhase c v).agenda = s.agenda := rfl
@[simp] theorem State.setPhase_reads (s : State) (c : Channel) (v : Word) : (s.setPhase c v).reads = s.reads := rfl

/-! ### `State.setLine` -/

@[simp] theorem State.setLine_memDepth (s : State) (c : Channel) (l : DelayLine) : (s.setLine c l).memDepth = s.memDepth := rfl
@[simp] theorem State.setLine_regs (s : State) (c : Channel) (l : DelayLine) : (s.setLine c l).regs = s.regs := rfl
@[simp] theorem State.setLine_errors (s : State) (c : Channel) (l : DelayLine) : (s.setLine c l).errors = s.errors := rfl
@[simp] theorem State.setLine_busy (s : State) (c : Channel) (l : DelayLine) : (s.setLine c l).busy = s.busy := rfl
@[simp] theorem State.setLine_prepared (s : State) (c : Channel) (l : DelayLine) : (s.setLine c l).prepared = s.prepared := rfl
@[simp] theorem State.setLine_sampleRate (s : State) (c : Channel) (l : DelayLine) : (s.setLine c l).sampleRate = s.sampleRate := rfl
@[simp] theorem State.setLine_sampleRateF (s : State) (c : Channel) (l : DelayLine) : (s.setLine c l).sampleRateF = s.sampleRateF := rfl
@[simp] theorem State.setLine_maxBlock (s : State) (c : Channel) (l : DelayLine) : (s.setLine c l).maxBlock = s.maxBlock := rfl
@[simp] theorem State.setLine_coefD (s : State) (c : Channel) (l : DelayLine) : (s.setLine c l).coefD = s.coefD := rfl
@[simp] theorem State.setLine_coefM (s : State) (c : Channel) (l : DelayLine) : (s.setLine c l).coefM = s.coefM := rfl
@[simp] theorem State.setLine_snap (s : State) (c : Channel) (l : DelayLine) : (s.setLine c l).snap = s.snap := rfl
@[simp] theorem State.setLine_lines (s : State) (c : Channel) (l : DelayLine) : (s.setLine c l).lines = s.lines.set c l := rfl
@[simp] theorem State.setLine_sp (s : State) (c : Channel) (l : DelayLine) : (s.setLine c l).sp = s.sp := rfl
@[simp] theorem State.setLine_ops (s : State) (c : Channel) (l : DelayLine) : (s.setLine c l).ops = s.ops := rfl
@[simp] theorem State.setLine_phase (s : State) (c : Channel) (l : DelayLine) : (s.setLine c l).phase = s.phase := rfl
@[simp] theorem State.setLine_blockIdx (s : State) (c : Channel) (l : DelayLine) : (s.setLine c l).blockIdx = s.blockIdx := rfl
@[simp] theorem State.setLine_pending (s : State) (c : Channel) (l : DelayLine) : (s.setLine c l).pending = s.pending := rfl
@[simp] theorem State.setLine_draws (s : State) (c : Channel) (l : DelayLine) : (s.setLine c l).draws = s.draws := rfl
@[simp] theorem State.setLine_agenda (s : State) (c : Channel) (l : DelayLine) : (s.setLine c l).agenda = s.agenda := rfl
@[simp] theorem State.setLine_reads (s : State) (c : Channel) (l : DelayLine) : (s.setLine c l).reads = s.reads := rfl

/-! ### `State.latch` -/

@[simp] theorem State.latch_memDepth (s : State) (v : Word) : (s.latch v).memDepth = s.memDepth := rfl
@[simp] theorem State.latch_regs (s : State) (v : Word) : (s.latch v).regs = s.regs := rfl
@[simp] theorem State.latch_errors (s : State) (v : Word) : (s.latch v).errors = s.errors := rfl
@[simp] theorem State.latch_busy (s : State) (v : Word) : (s.latch v).busy = true := rfl
@[simp] theorem State.latch_prepared (s : State) (v : Word) : (s.latch v).prepared = s.prepared := rfl
@[simp] theorem State.latch_sampleRate (s : State) (v : Word) : (s.latch v).sampleRate = s.sampleRate := rfl
@[simp] theorem State.latch_sampleRateF (s : State) (v : Word) : (s.latch v).sampleRateF = s.sampleRateF := rfl
@[simp] theorem State.latch_maxBlock (s : State) (v : Word) : (s.latch v).maxBlock = s.maxBlock := rfl
@[simp] theorem State.latch_coefD (s : State) (v : Word) : (s.latch v).coefD = s.coefD := rfl
@[simp] theorem State.latch_coefM (s : State) (v : Word) : (s.latch v).coefM = s.coefM := rfl
@[simp] theorem State.latch_snap (s : State) (v : Word) : (s.latch v).snap = s.snap := rfl
@[simp] theorem State.latch_lines (s : State) (v : Word) : (s.latch v).lines = s.lines := rfl
@[simp] theorem State.latch_sp (s : State) (v : Word) : (s.latch v).sp = s.sp := rfl
@[simp] theorem State.latch_ops (s : State) (v : Word) : (s.latch v).ops = s.ops := rfl
@[simp] theorem State.latch_phase (s : State) (v : Word) : (s.latch v).phase = s.phase := rfl
@[simp] theorem State.latch_blockIdx (s : State) (v : Word) : (s.latch v).blockIdx = s.blockIdx := rfl
@[simp] theorem State.latch_pending (s : State) (v : Word) : (s.latch v).pending = some ⟨v, s.regs, s.status⟩ := rfl
@[simp] theorem State.latch_draws (s : State) (v : Word) : (s.latch v).draws = s.draws := rfl
@[simp] theorem State.latch_agenda (s : State) (v : Word) : (s.latch v).agenda = s.agenda := rfl
@[simp] theorem State.latch_reads (s : State) (v : Word) : (s.latch v).reads = s.reads := rfl

/-! ### `State.complete` -/

@[simp] theorem State.complete_memDepth (s : State) : (s.complete).memDepth = s.memDepth := rfl
@[simp] theorem State.complete_regs (s : State) : (s.complete).regs = s.regs := rfl
@[simp] theorem State.complete_errors (s : State) : (s.complete).errors = s.errors := rfl
@[simp] theorem State.complete_busy (s : State) : (s.complete).busy = false := rfl
@[simp] theorem State.complete_prepared (s : State) : (s.complete).prepared = s.prepared := rfl
@[simp] theorem State.complete_sampleRate (s : State) : (s.complete).sampleRate = s.sampleRate := rfl
@[simp] theorem State.complete_sampleRateF (s : State) : (s.complete).sampleRateF = s.sampleRateF := rfl
@[simp] theorem State.complete_maxBlock (s : State) : (s.complete).maxBlock = s.maxBlock := rfl
@[simp] theorem State.complete_coefD (s : State) : (s.complete).coefD = s.coefD := rfl
@[simp] theorem State.complete_coefM (s : State) : (s.complete).coefM = s.coefM := rfl
@[simp] theorem State.complete_snap (s : State) : (s.complete).snap = s.snap := rfl
@[simp] theorem State.complete_lines (s : State) : (s.complete).lines = s.lines := rfl
@[simp] theorem State.complete_sp (s : State) : (s.complete).sp = s.sp := rfl
@[simp] theorem State.complete_ops (s : State) : (s.complete).ops = s.ops := rfl
@[simp] theorem State.complete_phase (s : State) : (s.complete).phase = s.phase := rfl
@[simp] theorem State.complete_blockIdx (s : State) : (s.complete).blockIdx = s.blockIdx := rfl
@[simp] theorem State.complete_pending (s : State) : (s.complete).pending = none := rfl
@[simp] theorem State.complete_draws (s : State) : (s.complete).draws = s.draws := rfl
@[simp] theorem State.complete_agenda (s : State) : (s.complete).agenda = s.agenda := rfl
@[simp] theorem State.complete_reads (s : State) : (s.complete).reads = s.reads := rfl

/-! ### `State.setOut` -/

@[simp] theorem State.setOut_memDepth (s : State) (c : Channel) (v : Word) : (s.setOut c v).memDepth = s.memDepth := by cases c <;> rfl
@[simp] theorem State.setOut_errors (s : State) (c : Channel) (v : Word) : (s.setOut c v).errors = s.errors := by cases c <;> rfl
@[simp] theorem State.setOut_busy (s : State) (c : Channel) (v : Word) : (s.setOut c v).busy = s.busy := by cases c <;> rfl
@[simp] theorem State.setOut_prepared (s : State) (c : Channel) (v : Word) : (s.setOut c v).prepared = s.prepared := by cases c <;> rfl
@[simp] theorem State.setOut_sampleRate (s : State) (c : Channel) (v : Word) : (s.setOut c v).sampleRate = s.sampleRate := by cases c <;> rfl
@[simp] theorem State.setOut_sampleRateF (s : State) (c : Channel) (v : Word) : (s.setOut c v).sampleRateF = s.sampleRateF := by cases c <;> rfl
@[simp] theorem State.setOut_maxBlock (s : State) (c : Channel) (v : Word) : (s.setOut c v).maxBlock = s.maxBlock := by cases c <;> rfl
@[simp] theorem State.setOut_coefD (s : State) (c : Channel) (v : Word) : (s.setOut c v).coefD = s.coefD := by cases c <;> rfl
@[simp] theorem State.setOut_coefM (s : State) (c : Channel) (v : Word) : (s.setOut c v).coefM = s.coefM := by cases c <;> rfl
@[simp] theorem State.setOut_snap (s : State) (c : Channel) (v : Word) : (s.setOut c v).snap = s.snap := by cases c <;> rfl
@[simp] theorem State.setOut_lines (s : State) (c : Channel) (v : Word) : (s.setOut c v).lines = s.lines := by cases c <;> rfl
@[simp] theorem State.setOut_sp (s : State) (c : Channel) (v : Word) : (s.setOut c v).sp = s.sp := by cases c <;> rfl
@[simp] theorem State.setOut_ops (s : State) (c : Channel) (v : Word) : (s.setOut c v).ops = s.ops := by cases c <;> rfl
@[simp] theorem State.setOut_phase (s : State) (c : Channel) (v : Word) : (s.setOut c v).phase = s.phase := by cases c <;> rfl
@[simp] theorem State.setOut_blockIdx (s : State) (c : Channel) (v : Word) : (s.setOut c v).blockIdx = s.blockIdx := by cases c <;> rfl
@[simp] theorem State.setOut_pending (s : State) (c : Channel) (v : Word) : (s.setOut c v).pending = s.pending := by cases c <;> rfl
@[simp] theorem State.setOut_draws (s : State) (c : Channel) (v : Word) : (s.setOut c v).draws = s.draws := by cases c <;> rfl
@[simp] theorem State.setOut_agenda (s : State) (c : Channel) (v : Word) : (s.setOut c v).agenda = s.agenda := by cases c <;> rfl
@[simp] theorem State.setOut_reads (s : State) (c : Channel) (v : Word) : (s.setOut c v).reads = s.reads := by cases c <;> rfl

/-! ### `State.raiseIf` -/

@[simp] theorem State.raiseIf_memDepth (s : State) (b : Bool) (e : Error) : (s.raiseIf b e).memDepth = s.memDepth := by cases b <;> rfl
@[simp] theorem State.raiseIf_regs (s : State) (b : Bool) (e : Error) : (s.raiseIf b e).regs = s.regs := by cases b <;> rfl
@[simp] theorem State.raiseIf_errors (s : State) (b : Bool) (e : Error) : (s.raiseIf b e).errors = if b then raiseBit s.errors e else s.errors := by cases b <;> rfl
@[simp] theorem State.raiseIf_busy (s : State) (b : Bool) (e : Error) : (s.raiseIf b e).busy = s.busy := by cases b <;> rfl
@[simp] theorem State.raiseIf_prepared (s : State) (b : Bool) (e : Error) : (s.raiseIf b e).prepared = s.prepared := by cases b <;> rfl
@[simp] theorem State.raiseIf_sampleRate (s : State) (b : Bool) (e : Error) : (s.raiseIf b e).sampleRate = s.sampleRate := by cases b <;> rfl
@[simp] theorem State.raiseIf_sampleRateF (s : State) (b : Bool) (e : Error) : (s.raiseIf b e).sampleRateF = s.sampleRateF := by cases b <;> rfl
@[simp] theorem State.raiseIf_maxBlock (s : State) (b : Bool) (e : Error) : (s.raiseIf b e).maxBlock = s.maxBlock := by cases b <;> rfl
@[simp] theorem State.raiseIf_coefD (s : State) (b : Bool) (e : Error) : (s.raiseIf b e).coefD = s.coefD := by cases b <;> rfl
@[simp] theorem State.raiseIf_coefM (s : State) (b : Bool) (e : Error) : (s.raiseIf b e).coefM = s.coefM := by cases b <;> rfl
@[simp] theorem State.raiseIf_snap (s : State) (b : Bool) (e : Error) : (s.raiseIf b e).snap = s.snap := by cases b <;> rfl
@[simp] theorem State.raiseIf_lines (s : State) (b : Bool) (e : Error) : (s.raiseIf b e).lines = s.lines := by cases b <;> rfl
@[simp] theorem State.raiseIf_sp (s : State) (b : Bool) (e : Error) : (s.raiseIf b e).sp = s.sp := by cases b <;> rfl
@[simp] theorem State.raiseIf_ops (s : State) (b : Bool) (e : Error) : (s.raiseIf b e).ops = s.ops := by cases b <;> rfl
@[simp] theorem State.raiseIf_phase (s : State) (b : Bool) (e : Error) : (s.raiseIf b e).phase = s.phase := by cases b <;> rfl
@[simp] theorem State.raiseIf_blockIdx (s : State) (b : Bool) (e : Error) : (s.raiseIf b e).blockIdx = s.blockIdx := by cases b <;> rfl
@[simp] theorem State.raiseIf_pending (s : State) (b : Bool) (e : Error) : (s.raiseIf b e).pending = s.pending := by cases b <;> rfl
@[simp] theorem State.raiseIf_draws (s : State) (b : Bool) (e : Error) : (s.raiseIf b e).draws = s.draws := by cases b <;> rfl
@[simp] theorem State.raiseIf_agenda (s : State) (b : Bool) (e : Error) : (s.raiseIf b e).agenda = s.agenda := by cases b <;> rfl
@[simp] theorem State.raiseIf_reads (s : State) (b : Bool) (e : Error) : (s.raiseIf b e).reads = s.reads := by cases b <;> rfl

/-! ### `State.draw` -/

@[simp] theorem State.draw_memDepth (s : State) : s.draw.1.memDepth = s.memDepth := rfl
@[simp] theorem State.draw_regs (s : State) : s.draw.1.regs = s.regs := rfl
@[simp] theorem State.draw_errors (s : State) : s.draw.1.errors = s.errors := rfl
@[simp] theorem State.draw_busy (s : State) : s.draw.1.busy = s.busy := rfl
@[simp] theorem State.draw_prepared (s : State) : s.draw.1.prepared = s.prepared := rfl
@[simp] theorem State.draw_sampleRate (s : State) : s.draw.1.sampleRate = s.sampleRate := rfl
@[simp] theorem State.draw_sampleRateF (s : State) : s.draw.1.sampleRateF = s.sampleRateF := rfl
@[simp] theorem State.draw_maxBlock (s : State) : s.draw.1.maxBlock = s.maxBlock := rfl
@[simp] theorem State.draw_coefD (s : State) : s.draw.1.coefD = s.coefD := rfl
@[simp] theorem State.draw_coefM (s : State) : s.draw.1.coefM = s.coefM := rfl
@[simp] theorem State.draw_snap (s : State) : s.draw.1.snap = s.snap := rfl
@[simp] theorem State.draw_lines (s : State) : s.draw.1.lines = s.lines := rfl
@[simp] theorem State.draw_sp (s : State) : s.draw.1.sp = s.sp := rfl
@[simp] theorem State.draw_ops (s : State) : s.draw.1.ops = s.ops := rfl
@[simp] theorem State.draw_phase (s : State) : s.draw.1.phase = s.phase := rfl
@[simp] theorem State.draw_blockIdx (s : State) : s.draw.1.blockIdx = s.blockIdx := rfl
@[simp] theorem State.draw_pending (s : State) : s.draw.1.pending = s.pending := rfl
@[simp] theorem State.draw_draws (s : State) : s.draw.1.draws = s.draws + 1 := rfl
@[simp] theorem State.draw_agenda (s : State) : s.draw.1.agenda = s.agenda := rfl
@[simp] theorem State.draw_reads (s : State) : s.draw.1.reads = s.reads := rfl
@[simp] theorem State.draw_word (s : State) : s.draw.2 = Config.freeWord s.draws := rfl

/-! ### `State.setOut` on the host registers -/

@[simp] theorem State.setOut_regs_left (s : State) (v : Word) :
    (s.setOut .left v).regs = { s.regs with outL := v } := rfl
@[simp] theorem State.setOut_regs_right (s : State) (v : Word) :
    (s.setOut .right v).regs = { s.regs with outR := v } := rfl
@[simp] theorem State.setOut_result (s : State) (c : Channel) (v : Word) :
    (s.setOut c v).regs.result = s.regs.result := by cases c <;> rfl

/-! ### Banks -/

@[simp] theorem PerChannel.get_left {α : Type} (p : PerChannel α) : p.get .left = p.left := rfl
@[simp] theorem PerChannel.get_right {α : Type} (p : PerChannel α) : p.get .right = p.right := rfl
@[simp] theorem PerParam.get_delayLeft {α : Type} (p : PerParam α) : p.get .delayLeft = p.delayLeft := rfl
@[simp] theorem PerParam.get_delayRight {α : Type} (p : PerParam α) : p.get .delayRight = p.delayRight := rfl
@[simp] theorem PerParam.get_depth {α : Type} (p : PerParam α) : p.get .depth = p.depth := rfl
@[simp] theorem PerParam.get_rate {α : Type} (p : PerParam α) : p.get .rate = p.rate := rfl

@[simp] theorem PerChannel.get_set_same {α : Type} (p : PerChannel α) (c : Channel) (v : α) :
    (p.set c v).get c = v := by cases c <;> rfl

theorem PerChannel.get_set_other {α : Type} (p : PerChannel α) {c d : Channel} (v : α) (h : d ≠ c) :
    (p.set c v).get d = p.get d := by
  cases c <;> cases d <;> first | rfl | exact absurd rfl h

theorem PerChannel.get_set {α : Type} (p : PerChannel α) (c d : Channel) (v : α) :
    (p.set c v).get d = if d = c then v else p.get d := by
  cases c <;> cases d <;> rfl

@[simp] theorem PerParam.get_set_same {α : Type} (p : PerParam α) (k : Param) (v : α) :
    (p.set k v).get k = v := by cases k <;> rfl

theorem PerParam.get_set_other {α : Type} (p : PerParam α) {k j : Param} (v : α) (h : j ≠ k) :
    (p.set k v).get j = p.get j := by
  cases k <;> cases j <;> first | rfl | exact absurd rfl h

theorem PerParam.get_set {α : Type} (p : PerParam α) (k j : Param) (v : α) :
    (p.set k v).get j = if j = k then v else p.get j := by
  cases k <;> cases j <;> rfl

@[simp] theorem PerParam.set_get {α : Type} (p : PerParam α) (k : Param) : p.set k (p.get k) = p := by
  cases k <;> rfl

@[simp] theorem PerParam.set_set {α : Type} (p : PerParam α) (k : Param) (v w : α) :
    (p.set k v).set k w = p.set k w := by cases k <;> rfl

@[simp] theorem PerChannel.set_left {α : Type} (p : PerChannel α) (v : α) :
    p.set .left v = ⟨v, p.right⟩ := rfl
@[simp] theorem PerChannel.set_right {α : Type} (p : PerChannel α) (v : α) :
    p.set .right v = ⟨p.left, v⟩ := rfl

theorem PerChannel.ext_get {α : Type} {p q : PerChannel α} (h : ∀ c, p.get c = q.get c) : p = q := by
  have hl := h .left
  have hr := h .right
  cases p; cases q
  simp only [PerChannel.get] at hl hr
  rw [hl, hr]

theorem PerParam.ext_get {α : Type} {p q : PerParam α} (h : ∀ k, p.get k = q.get k) : p = q := by
  have h0 := h .delayLeft
  have h1 := h .delayRight
  have h2 := h .depth
  have h3 := h .rate
  cases p; cases q
  simp only [PerParam.get] at h0 h1 h2 h3
  rw [h0, h1, h2, h3]

@[simp] theorem delayParam_left : delayParam .left = .delayLeft := rfl
@[simp] theorem delayParam_right : delayParam .right = .delayRight := rfl

end Sys2Proof.Machine
end

