-- ==== Sys2Proof/Laws/Procedures.lean ====
section
/-! SUPPORT. What each shared procedure can do, said once: the state it leaves, the value it returns, and when it stops.
Later proofs cite these instead of unfolding the procedures. -/

namespace Sys2Proof.Machine

/-! ### Delay lines -/

theorem DelayLine.slotAt_lt {l : DelayLine} (n : Nat) (h : l.cap ≠ 0#32) : l.slotAt n < l.cap.toNat := by
  have hpos : 0 < l.cap.toNat := by
    rcases Nat.eq_zero_or_pos l.cap.toNat with h0 | h0
    · exact absurd (BitVec.eq_of_toNat_eq (by simpa using h0)) h
    · exact h0
  have h1 := Int.emod_nonneg ((uint l.cursor : Int) - (n : Int)) (b := (uint l.cap : Int)) (by
    simp only [uint]; omega)
  have h2 := Int.emod_lt_of_pos ((uint l.cursor : Int) - (n : Int)) (b := (uint l.cap : Int)) (by
    simp only [uint]; omega)
  simp only [DelayLine.slotAt]
  simp only [uint] at h1 h2 ⊢
  omega

/-- A write to a line that is ready stores at the cursor and advances it (R152). -/
theorem DelayLine.write_of_ready {depth : Nat} {l : DelayLine} (v : Word) (h : LineReady depth l) :
    l.write depth v = .ok { l with
      ram := l.ram.writeWord (uint l.cursor) v
      cursor := toWord ((uint l.cursor + 1) % uint l.cap) } := by
  have hlt : uint l.cursor < depth := Nat.lt_of_lt_of_le h.cursor_lt h.cap_le
  simp only [DelayLine.write, if_neg h.cap_ne, memWrite_of_lt _ _ hlt]

/-- When a write answers a line, this is it (R152). -/
theorem DelayLine.write_ok {depth : Nat} {l l' : DelayLine} {v : Word} (h : l.write depth v = .ok l') :
    l.cap ≠ 0#32 ∧ uint l.cursor < depth ∧
      l' = { l with
        ram := l.ram.writeWord (uint l.cursor) v
        cursor := toWord ((uint l.cursor + 1) % uint l.cap) } := by
  simp only [DelayLine.write] at h
  split at h
  · cases h
  · rename_i hcap
    by_cases hlt : uint l.cursor < depth
    · rw [memWrite_of_lt _ _ hlt] at h
      simp only [Except.ok.injEq] at h
      exact ⟨hcap, hlt, h.symm⟩
    · rw [memWrite_of_ge _ _ hlt] at h
      cases h

/-- An in-range read of a line whose slots are in the RAM interpolates between two of them (R154 to R156). -/
theorem DelayLine.readAt_of_cap {depth : Nat} {l : DelayLine} (d : Word) (hc : l.cap ≠ 0#32)
    (hle : l.cap.toNat ≤ depth) :
    l.readAt depth d = .ok (interp (l.ram.readWord (l.slotAt (floorToInt d)))
      (l.ram.readWord (l.slotAt (floorToInt d + 1))) (delayFraction d)) := by
  have h1 := Nat.lt_of_lt_of_le (DelayLine.slotAt_lt (floorToInt d) hc) hle
  have h2 := Nat.lt_of_lt_of_le (DelayLine.slotAt_lt (floorToInt d + 1) hc) hle
  simp only [DelayLine.readAt, memRead_of_lt _ h1, memRead_of_lt _ h2]

/-- Nothing is in range of an unconfigured line (R153 with capacity 0). -/
theorem inRange_cap_pos {d : Word} {l : DelayLine} (h : inRange d (uint l.cap) = true) : l.cap ≠ 0#32 := by
  intro hc
  simp only [inRange, Bool.and_eq_true, decide_eq_true_eq, uint, hc] at h
  have : (unitsPerOne : Int) > 0 := by norm_num [unitsPerOne]
  simp only [BitVec.toNat_ofNat, Nat.zero_mod, Nat.cast_zero] at h
  nlinarith [h.1.2, h.2]

/-- A delay read of a line within the RAM never stops (R156). -/
theorem State.dlRead_of_cap {s : State} {c : Channel} (d : Word) (hle : (s.lines.get c).cap.toNat ≤ s.memDepth) :
    s.dlRead c d =
      if inRange d (uint (s.lines.get c).cap) then
        .ok (s, interp ((s.lines.get c).ram.readWord ((s.lines.get c).slotAt (floorToInt d)))
          ((s.lines.get c).ram.readWord ((s.lines.get c).slotAt (floorToInt d + 1))) (delayFraction d))
      else .ok ((s.raise .range).draw.1, Config.freeWord s.draws) := by
  simp only [State.dlRead]
  split
  · rename_i hr
    rw [DelayLine.readAt_of_cap d (inRange_cap_pos hr) hle]
  · rfl

/-- What a delay read answers, when it answers (R156). -/
theorem State.dlRead_ok {s t : State} {c : Channel} {d y : Word} (h : s.dlRead c d = .ok (t, y)) :
    (inRange d (uint (s.lines.get c).cap) = true ∧ t = s ∧ (s.lines.get c).readAt s.memDepth d = .ok y) ∨
    (inRange d (uint (s.lines.get c).cap) = false ∧ t = (s.raise .range).draw.1 ∧ y = Config.freeWord s.draws) := by
  simp only [State.dlRead] at h
  split at h
  · rename_i hr
    split at h
    · cases h
    · rename_i w hw
      simp only [Except.ok.injEq, Prod.mk.injEq] at h
      exact .inl ⟨hr, h.1.symm, by rw [hw, h.2]⟩
  · rename_i hr
    simp only [Except.ok.injEq, Prod.ext_iff] at h
    exact .inr ⟨by simpa using hr, h.1.symm, h.2.symm⟩

/-- What a delay write answers, when it answers (R152). -/
theorem State.dlWrite_ok {s t : State} {c : Channel} {v : Word} (h : s.dlWrite c v = .ok t) :
    ∃ l, (s.lines.get c).write s.memDepth v = .ok l ∧ t = s.setLine c l := by
  simp only [State.dlWrite] at h
  split at h
  · cases h
  · rename_i l hl
    simp only [Except.ok.injEq] at h
    exact ⟨l, hl, h.symm⟩

theorem State.dlWrite_of_ready {s : State} {c : Channel} (v : Word) (h : LineReady s.memDepth (s.lines.get c)) :
    s.dlWrite c v = .ok (s.setLine c { s.lines.get c with
      ram := (s.lines.get c).ram.writeWord (uint (s.lines.get c).cursor) v
      cursor := toWord ((uint (s.lines.get c).cursor + 1) % uint (s.lines.get c).cap) }) := by
  simp only [State.dlWrite, DelayLine.write_of_ready v h]

/-! ### Smoothed parameters and followers -/

/-- `OPStep(k)` moves parameter `k` by two calls and writes follower `k`; nothing else changes (R197). -/
theorem State.opStep_state (s : State) (k : Param) :
    (s.opStep k).1 = { s with
      sp := s.sp.set k (s.sp.get k).next.next
      ops := s.ops.set k (s.opStep k).2 } := by
  simp [State.opStep, State.spNext, State.setSp, State.setOps]

/-- The value of `OPStep(k)` (R197). -/
theorem State.opStep_value (s : State) (k : Param) :
    (s.opStep k).2 = follow (s.sp.get k).next.cur (s.sp.get k).next.next.cur (s.ops.get k) (s.coef k) := by
  cases k <;> rfl

/-- `SPReset(k, T, sr)` writes parameter `k` and may raise `INVALID_RAMP`; nothing else changes (R182). -/
theorem State.spReset_state (s : State) (k : Param) (t : Word) (sr : Int) :
    s.spReset k t sr = { s with
      sp := s.sp.set k ((s.sp.get k).restart (rampSteps t sr).1)
      errors := if (rampSteps t sr).2 then raiseBit s.errors .invalidRamp else s.errors } := by
  simp only [State.spReset, State.raiseIf]
  split <;> rfl

/-- A ramp length is never 0 (R56). -/
theorem rampLength_ne_zero (p : Word) : rampLength p ≠ 0#32 := by
  unfold rampLength
  split
  · decide
  · rename_i hbig
    split
    · decide
    · rename_i hne
      intro h0
      have h1 := congrArg BitVec.toNat h0
      simp only [toWord, BitVec.toNat_ofNat, Nat.zero_mod] at h1
      have hdvd : 2 ^ 32 ≤ floorToInt p := by
        by_contra hlt
        rw [Nat.mod_eq_of_lt (by omega)] at h1
        exact hne h1
      simp only [Bool.or_eq_true, decide_eq_true_eq, not_or] at hbig
      have hm : 2 ^ 32 * unitsPerOne ≤ magnitude p := by
        have := Nat.le_div_iff_mul_le (k := unitsPerOne) (by norm_num [unitsPerOne]) |>.1 hdvd
        exact this
      exact hbig.2 hm

theorem rampSteps_ne_zero (t : Word) (sr : Int) : (rampSteps t sr).1 ≠ 0#32 := by
  unfold rampSteps
  split
  · decide
  · exact rampLength_ne_zero _

@[simp] theorem Smoothed.next_tgt (p : Smoothed) : p.next.tgt = p.tgt := by
  unfold Smoothed.next; split <;> rfl
@[simp] theorem Smoothed.next_step (p : Smoothed) : p.next.step = p.step := by
  unfold Smoothed.next; split <;> rfl
@[simp] theorem Smoothed.next_n (p : Smoothed) : p.next.n = p.n := by
  unfold Smoothed.next; split <;> rfl
/-- A parameter with no steps left stands still (R185). -/
theorem Smoothed.next_idle {p : Smoothed} (h : p.cnt = 0#32) : p.next = p := if_pos h
/-- One call uses up one step (R185). -/
theorem Smoothed.next_cnt (p : Smoothed) : p.next.cnt.toNat = p.cnt.toNat - 1 := by
  unfold Smoothed.next
  split
  · rename_i h; simp [h]
  · rename_i h
    have : p.cnt.toNat ≠ 0 := fun h0 => h (BitVec.eq_of_toNat_eq (by simpa using h0))
    have hlt := p.cnt.isLt
    simp only [BitVec.toNat_sub, BitVec.toNat_ofNat]
    omega
/-- The last step lands on the target (R185). -/
theorem Smoothed.next_last {p : Smoothed} (h : p.cnt = 1#32) : p.next.cur = p.tgt := by
  unfold Smoothed.next
  rw [if_neg (by rw [h]; decide)]
  simp [h]

theorem Smoothed.ok_next {p : Smoothed} (h : SmoothedOk p) : SmoothedOk p.next :=
  ⟨by simpa using h.n_ne, by rw [Smoothed.next_cnt, Smoothed.next_n]; have := h.cnt_le; omega⟩
theorem Smoothed.ok_restart (p : Smoothed) {n : Word} (h : n ≠ 0#32) : SmoothedOk (p.restart n) :=
  ⟨h, by simp [Smoothed.restart]⟩
theorem Smoothed.ok_init {p : Smoothed} (v : Word) (h : SmoothedOk p) : SmoothedOk (p.init v) :=
  ⟨h.n_ne, by simp [Smoothed.init]⟩
theorem Smoothed.ok_setTarget {p : Smoothed} (v : Word) (h : SmoothedOk p) : SmoothedOk (p.setTarget v) := by
  unfold Smoothed.setTarget
  split
  · exact h
  · exact ⟨h.n_ne, Nat.le_refl _⟩

/-- `SPSetTarget(k, v)` on the state writes parameter `k` alone (R184). -/
theorem State.retarget_state (s : State) (k : Param) :
    s.retarget k = { s with sp := s.sp.set k ((s.sp.get k).setTarget (s.snap.targets.get k)) } := rfl

/-! ### The LFO and the channel pipeline -/

/-- `LFOAdvance(c, …)` moves phase `c` alone (R222). -/
theorem State.lfoAdvance_state (s : State) (c : Channel) (rate depth idx : Word) :
    (s.lfoAdvance c rate depth idx).1 =
      { s with phase := s.phase.set c (phaseStep s.sampleRateF (s.phase.get c) rate) } := rfl

/-- Steps 1 and 2 of `ChannelStep` (R288) move the channel's smoothed parameter, follower and phase, and nothing
else; the follower ends at the delay time. -/
theorem State.delayTime_state (s : State) (c : Channel) (depthF rateF : Word) :
    (s.delayTime c depthF rateF).1 = { s with
      sp := s.sp.set (delayParam c) (s.sp.get (delayParam c)).next.next
      ops := s.ops.set (delayParam c) (s.delayTime c depthF rateF).2
      phase := s.phase.set c (phaseStep s.sampleRateF (s.phase.get c) rateF) } := by
  simp only [State.delayTime]
  split
  · simp [State.lfoAdvance_state, State.opStep_state, State.setOps]
  · simp [State.lfoAdvance_state, State.opStep_state]

/-- The delay time in milliseconds of `ChannelStep` (R288, R289), from the state before it. -/
theorem State.delayTime_value (s : State) (c : Channel) (depthF rateF : Word) :
    (s.delayTime c depthF rateF).2 =
      if s.folds (s.opStep (delayParam c)).2 then
        chorusFold (s.opStep (delayParam c)).2
          (modulation s.sampleRateF (s.phase.get c) rateF depthF s.snap.depthScale s.blockIdx s.snap.idxTerm) s.coefD
      else (s.opStep (delayParam c)).2 := by
  simp only [State.delayTime]
  split <;> rfl

@[simp] theorem channelOutput_true (x y dw : Word) : channelOutput true x y dw = mixOf x y dw := rfl
@[simp] theorem channelOutput_false (x y dw : Word) : channelOutput false x y dw = y := rfl

/-- What `ChannelStep` answers, when it answers (R288): the pipeline's state, a read that may have raised `RANGE` and
drawn, the line after the write of the input, and the output word. -/
theorem State.channelStep_ok {s t : State} {c : Channel} {x depthF rateF out : Word}
    (h : s.channelStep c x depthF rateF = .ok (t, out)) :
    ∃ s2 y l, (s.delayTime c depthF rateF).1.dlRead c (delaySamples (s.delayTime c depthF rateF).2 s.sampleRateF) =
        .ok (s2, y) ∧
      (s.lines.get c).write s.memDepth x = .ok l ∧ t = s2.setLine c l ∧
      out = channelOutput (inRange (delaySamples (s.delayTime c depthF rateF).2 s.sampleRateF)
        (uint (s.lines.get c).cap)) x y s.snap.dryWet := by
  simp only [State.channelStep] at h
  split at h
  · cases h
  · rename_i s2 y hr
    split at h
    · cases h
    · rename_i s3 hw
      simp only [Except.ok.injEq, Prod.mk.injEq] at h
      obtain ⟨l, hl, hs3⟩ := State.dlWrite_ok hw
      have hs2 : s2.lines = s.lines ∧ s2.memDepth = s.memDepth := by
        rcases State.dlRead_ok hr with ⟨_, h2, _⟩ | ⟨_, h2, _⟩ <;> subst h2 <;>
          simp [State.delayTime_state]
      rw [hs2.1, hs2.2] at hl
      exact ⟨s2, y, l, hr, hl, by rw [← h.1, hs3], h.2.symm⟩

/-- The state `ChannelStep` leaves, field by field: only the channel's own state, the error bits and the draws can
change (R62, R288). -/
theorem State.channelStep_state {s t : State} {c : Channel} {x depthF rateF out : Word}
    (h : s.channelStep c x depthF rateF = .ok (t, out)) :
    ∃ l, (s.lines.get c).write s.memDepth x = .ok l ∧
      t = { (s.delayTime c depthF rateF).1 with
        lines := s.lines.set c l
        errors := if inRange (delaySamples (s.delayTime c depthF rateF).2 s.sampleRateF) (uint (s.lines.get c).cap)
          then s.errors else raiseBit s.errors .range
        draws := if inRange (delaySamples (s.delayTime c depthF rateF).2 s.sampleRateF) (uint (s.lines.get c).cap)
          then s.draws else s.draws + 1 } := by
  obtain ⟨s2, y, l, hr, hw, ht, _⟩ := State.channelStep_ok h
  refine ⟨l, hw, ?_⟩
  have hl : (s.delayTime c depthF rateF).1.lines = s.lines := by rw [State.delayTime_state]
  rcases State.dlRead_ok hr with ⟨hin, h2, _⟩ | ⟨hin, h2, _⟩
  · rw [hl] at hin
    subst h2
    rw [ht, hin]
    simp only [State.setLine, if_pos, hl]
    simp [State.delayTime_state]
  · rw [hl] at hin
    subst h2
    rw [ht, hin]
    simp [State.setLine, State.raise, State.draw, State.delayTime_state]

/-- `ChannelStep` on a ready line always answers (R288). -/
theorem State.channelStep_of_ready {s : State} {c : Channel} (x depthF rateF : Word)
    (h : LineReady s.memDepth (s.lines.get c)) : ∃ r, s.channelStep c x depthF rateF = .ok r := by
  have hl : (s.delayTime c depthF rateF).1.lines = s.lines := by rw [State.delayTime_state]
  have hm : (s.delayTime c depthF rateF).1.memDepth = s.memDepth := by rw [State.delayTime_state]
  have hread := State.dlRead_of_cap (s := (s.delayTime c depthF rateF).1) (c := c)
    (delaySamples (s.delayTime c depthF rateF).2 s.sampleRateF) (by rw [hl, hm]; exact h.cap_le)
  simp only [State.channelStep]
  split at hread
  · rw [hread]
    simp only [State.dlWrite_of_ready x (s := (s.delayTime c depthF rateF).1) (c := c) (by rw [hl, hm]; exact h)]
    exact ⟨_, rfl⟩
  · rw [hread]
    simp only [State.dlWrite_of_ready x
      (s := ((s.delayTime c depthF rateF).1.raise .range).draw.1) (c := c)
      (by simp only [State.draw_memDepth, State.draw_lines, State.raise_memDepth, State.raise_lines, hl, hm]; exact h)]
    exact ⟨_, rfl⟩

/-- What a `FRAME`'s shared stage does (R286, R287): the four smoothed parameters' part of the frame that comes
before the channels. -/
theorem State.frameShared_state (s : State) :
    s.frameShared.1 = { s with
      sp := ⟨s.sp.delayLeft.setTarget s.snap.targets.delayLeft, s.sp.delayRight.setTarget s.snap.targets.delayRight,
        s.sp.depth.next.next, s.sp.rate.next.next⟩
      ops := ⟨s.ops.delayLeft, s.ops.delayRight, s.frameShared.2.1, s.frameShared.2.2⟩ } := by
  simp only [State.frameShared]
  rw [State.opStep_state, State.opStep_state, State.retarget_state, State.retarget_state]
  simp only [PerParam.set, PerParam.get]

/-- What a `FRAME` answers, when it answers (R286): both channels answered, left first. -/
theorem State.frame_ok {s t : State} {r : HostRegs} (h : s.frame r = .ok t) :
    ∃ s1 y1 s2 y2,
      s.frameShared.1.channelStep .left r.inL s.frameShared.2.1 s.frameShared.2.2 = .ok (s1, y1) ∧
      (s1.setOut .left y1).channelStep .right r.inR s.frameShared.2.1 s.frameShared.2.2 = .ok (s2, y2) ∧
      t = { s2.setOut .right y2 with blockIdx := s2.blockIdx + 1#32 } := by
  simp only [State.frame, State.frameChannel, HostRegs.input] at h
  split at h
  · cases h
  · rename_i s1' hl
    split at hl
    · cases hl
    · rename_i s1 y1 h1
      simp only [Except.ok.injEq] at hl
      subst hl
      split at h
      · cases h
      · rename_i s2' hr
        split at hr
        · cases hr
        · rename_i s2 y2 h2
          simp only [Except.ok.injEq] at hr h
          subst hr
          exact ⟨s1, y1, s2, y2, h1, h2, h.symm⟩

/-! ### Setup commands -/

/-- One turn of `PREPARE`'s loop (R283): parameter `k` and its follower at the snapshot target, the ramp length
installed, `INVALID_RAMP` raised where it was invalid. -/
theorem State.prepareParam_state (s : State) (r : HostRegs) (k : Param) :
    s.prepareParam r k = { s with
      sp := s.sp.set k ⟨s.snap.targets.get k, s.snap.targets.get k, 0#32, 0#32,
        (rampSteps (r.rampTime k) (sint r.cfgSampleRate)).1⟩
      ops := s.ops.set k (s.snap.targets.get k)
      errors := if (rampSteps (r.rampTime k) (sint r.cfgSampleRate)).2 then raiseBit s.errors .invalidRamp
        else s.errors } := by
  simp only [State.prepareParam, State.spReset_state, State.spInit, State.setOps, State.setSp]
  simp [Smoothed.restart, Smoothed.init, fZero]

/-- A ramp time is invalid at a positive rate exactly when it is not greater than 0 (R181). -/
theorem rampSteps_invalid {sr : Int} (t : Word) (h : 0 < sr) : (rampSteps t sr).2 = !fgt t 0#32 := by
  unfold rampSteps
  cases ht : fgt t 0#32
  · rw [if_pos (by simp [fZero, ht])]
    rfl
  · rw [if_neg (by simp [fZero, ht]; omega)]
    rfl

/-- What `BLOCK_START` does on a prepared block (R285). -/
theorem execBlockStart_prepared {s : State} (h : s.prepared = true) :
    execBlockStart s = .next { s with
      snap := snapshotOf s.operands
      sp := ⟨s.sp.delayLeft.setTarget (snapshotOf s.operands).targets.delayLeft,
        s.sp.delayRight.setTarget (snapshotOf s.operands).targets.delayRight,
        s.sp.depth.setTarget (snapshotOf s.operands).targets.depth,
        s.sp.rate.setTarget (snapshotOf s.operands).targets.rate⟩
      blockIdx := 0#32 } := by
  simp only [execBlockStart, if_pos h, State.retarget_state, PerParam.get, PerParam.set]

/-- Setting the same target again changes nothing, when it is no NaN (R184, R293). -/
theorem Smoothed.setTarget_again {p : Smoothed} {v : Word} (h : isNaN v = false) :
    (p.setTarget v).setTarget v = p.setTarget v := by
  by_cases hf : feq v p.tgt = true
  · simp only [Smoothed.setTarget, if_pos hf]
  · have hself : feq v v = true := by simp [feq, h]
    simp only [Smoothed.setTarget, if_neg hf, if_pos hself]

end Sys2Proof.Machine
end

