-- ==== Sys2Proof/Laws/Pipeline.lean ====
section
/-! SUPPORT. What a `FRAME` leaves, said once over its start state: the delay times of both channels, the samples read and
the whole next state (45_engine.md R286 to R290). -/

namespace Sys2Proof.Machine

/-- The delay time in milliseconds that a channel of a `FRAME` arrives at when its parameter has been retargeted to
`p` (R288, R289). -/
def channelDelay (s : State) (c : Channel) (p : Smoothed) (depthF rateF : Word) : Word :=
  let d0 := follow p.next.cur p.next.next.cur (s.ops.get (delayParam c)) s.coefD
  let m := modulation s.sampleRateF (s.phase.get c) rateF depthF s.snap.depthScale s.blockIdx s.snap.idxTerm
  if s.folds d0 then chorusFold d0 m s.coefD else d0

theorem State.delayTime_channelDelay (s : State) (c : Channel) (depthF rateF : Word) :
    (s.delayTime c depthF rateF).2 = channelDelay s c (s.sp.get (delayParam c)) depthF rateF := by
  simp only [State.delayTime_value, State.opStep_value]
  cases c <;> rfl

/-- What one channel of a `FRAME` leaves (R286, R288): its line after the write, its parameter, follower, phase and output;
an out-of-range delay raises `RANGE` and takes one free draw. -/
theorem State.frameChannel_ok {s t : State} {c : Channel} {x depthF rateF : Word}
    (h : s.frameChannel c x depthF rateF = .ok t) :
    let d := channelDelay s c (s.sp.get (delayParam c)) depthF rateF
    let ok := inRange (delaySamples d s.sampleRateF) (uint (s.lines.get c).cap)
    ∃ l y, (s.lines.get c).write s.memDepth x = .ok l ∧
      (ok = true → (s.lines.get c).readAt s.memDepth (delaySamples d s.sampleRateF) = .ok y) ∧
      (ok = false → y = Config.freeWord s.draws) ∧
      t = { s.setOut c (channelOutput ok x y s.snap.dryWet) with
        lines := s.lines.set c l
        sp := s.sp.set (delayParam c) (s.sp.get (delayParam c)).next.next
        ops := s.ops.set (delayParam c) d
        phase := s.phase.set c (phaseStep s.sampleRateF (s.phase.get c) rateF)
        errors := if ok then s.errors else raiseBit s.errors .range
        draws := if ok then s.draws else s.draws + 1 } := by
  intro d ok
  simp only [State.frameChannel] at h
  split at h
  · cases h
  rename_i s' out h1
  simp only [Except.ok.injEq] at h
  subst h
  obtain ⟨l, hw, e1⟩ := State.channelStep_state h1
  obtain ⟨_, y, _, hr, _, _, rfl⟩ := State.channelStep_ok h1
  have td : (s.delayTime c depthF rateF).2 = d := State.delayTime_channelDelay ..
  rw [td] at hr e1
  have hread := State.dlRead_ok hr
  simp only [State.delayTime_state] at hread
  refine ⟨l, y, hw, ?_, ?_, ?_⟩
  · intro hok
    rcases hread with ⟨_, _, hh⟩ | ⟨hh, _, _⟩
    · exact hh
    · rw [show ok = false from hh] at hok
      cases hok
  · intro hok
    rcases hread with ⟨hh, _, _⟩ | ⟨_, _, hh⟩
    · rw [show ok = true from hh] at hok
      cases hok
    · exact hh
  · rw [e1, State.delayTime_state, td]
    cases c <;> rfl

/-- The followed depth and rate of a `FRAME` (R287). -/
theorem State.frameShared_words (s : State) : s.frameShared.2 =
    (follow s.sp.depth.next.cur s.sp.depth.next.next.cur s.ops.depth s.coefM,
      follow s.sp.rate.next.cur s.sp.rate.next.next.cur s.ops.rate s.coefM) := by
  simp only [State.frameShared, State.opStep_value, State.opStep_state, State.retarget_state, PerParam.get, PerParam.set,
    State.coef]

theorem raiseBit_twice (errors : BitVec 7) (e : Error) (a b : Bool) :
    (if b = true then if a = true then errors else raiseBit errors e
      else raiseBit (if a = true then errors else raiseBit errors e) e) =
      if a && b then errors else raiseBit errors e := by
  cases a <;> cases b <;> simp [raiseBit, BitVec.or_assoc]

/-- A channel on a ready line always answers (R288). -/
theorem State.frameChannel_of_ready {s : State} {c : Channel} (x depthF rateF : Word)
    (h : LineReady s.memDepth (s.lines.get c)) : ∃ t, s.frameChannel c x depthF rateF = .ok t := by
  obtain ⟨r, hr⟩ := State.channelStep_of_ready x depthF rateF h
  exact ⟨_, by simp only [State.frameChannel, hr]; rfl⟩

/-- A `FRAME` on ready lines always answers (R286). -/
theorem State.frame_of_ready {s : State} (r : HostRegs) (h : ∀ c, LineReady s.memDepth (s.lines.get c)) :
    ∃ t, s.frame r = .ok t := by
  have hs : s.frameShared.1.memDepth = s.memDepth ∧ s.frameShared.1.lines = s.lines := by
    rw [State.frameShared_state]
    exact ⟨rfl, rfl⟩
  obtain ⟨s1, h1⟩ := State.frameChannel_of_ready (s := s.frameShared.1) (c := .left) (r.input .left) s.frameShared.2.1
    s.frameShared.2.2 (by rw [hs.1, hs.2]; exact h .left)
  obtain ⟨l, y, _, _, _, e1⟩ := State.frameChannel_ok h1
  obtain ⟨s2, h2⟩ := State.frameChannel_of_ready (s := s1) (c := .right) (r.input .right) s.frameShared.2.1
    s.frameShared.2.2 (by
      rw [e1]
      simp only [PerChannel.set, PerChannel.get_right, State.setOut_memDepth, hs.1, hs.2]
      exact h .right)
  simp only [State.frame, h1, h2]
  exact ⟨_, rfl⟩

/-- What a `FRAME` leaves, when it answers (R286 to R290). -/
theorem State.frame_state {s t : State} {r : HostRegs} (h : s.frame r = .ok t) :
    let depthF := follow s.sp.depth.next.cur s.sp.depth.next.next.cur s.ops.depth s.coefM
    let rateF := follow s.sp.rate.next.cur s.sp.rate.next.next.cur s.ops.rate s.coefM
    let p := fun c => (s.sp.get (delayParam c)).setTarget (s.snap.targets.get (delayParam c))
    let d := fun c => channelDelay s c (p c) depthF rateF
    let dS := fun c => delaySamples (d c) s.sampleRateF
    let ok := fun c => inRange (dS c) (uint (s.lines.get c).cap)
    ∃ lL lR yL yR, s.lines.left.write s.memDepth r.inL = .ok lL ∧ s.lines.right.write s.memDepth r.inR = .ok lR ∧
      (ok .left = true → s.lines.left.readAt s.memDepth (dS .left) = .ok yL) ∧
      (ok .right = true → s.lines.right.readAt s.memDepth (dS .right) = .ok yR) ∧
      (ok .left = false → yL = Config.freeWord s.draws) ∧
      (ok .right = false → yR = Config.freeWord (if ok .left then s.draws else s.draws + 1)) ∧
      t = { s with
        regs := { s.regs with
          outL := channelOutput (ok .left) r.inL yL s.snap.dryWet
          outR := channelOutput (ok .right) r.inR yR s.snap.dryWet }
        lines := ⟨lL, lR⟩
        sp := ⟨(p .left).next.next, (p .right).next.next, s.sp.depth.next.next, s.sp.rate.next.next⟩
        ops := ⟨d .left, d .right, depthF, rateF⟩
        phase := ⟨phaseStep s.sampleRateF s.phase.left rateF, phaseStep s.sampleRateF s.phase.right rateF⟩
        blockIdx := s.blockIdx + 1#32
        errors := if ok .left && ok .right then s.errors else raiseBit s.errors .range
        draws := if ok .right then (if ok .left then s.draws else s.draws + 1)
          else (if ok .left then s.draws else s.draws + 1) + 1 } := by
  intro depthF rateF p d dS ok
  simp only [State.frame, HostRegs.input, State.frameShared_words, State.frameShared_state] at h
  split at h
  · cases h
  rename_i s1 h1
  split at h
  · cases h
  rename_i s2 h2
  simp only [Except.ok.injEq] at h
  subst h
  obtain ⟨lL, yL, hwL, hrL, hfL, e1⟩ := State.frameChannel_ok h1
  obtain ⟨lR, yR, hwR, hrR, hfR, e2⟩ := State.frameChannel_ok h2
  subst e1
  refine ⟨lL, lR, yL, yR, hwL, hwR, hrL, hrR, hfL, hfR, ?_⟩
  rw [e2]
  simp only [State.setOut]
  rw [← raiseBit_twice s.errors .range (ok .left) (ok .right)]
  rfl

/-- What `exec` of a `FRAME` on a prepared block answers (R286). -/
theorem exec_frame_ok {s t : State} (hp : s.prepared = true) (h : execFrame s = .next t) : s.frame s.operands = .ok t := by
  simp only [execFrame, if_pos hp] at h
  cases hf : s.frame s.operands with
  | error e =>
    rw [hf] at h
    cases h
  | ok t' =>
    rw [hf] at h
    simp only [outcomeOf, Host.Outcome.next.injEq] at h
    rw [h]

end Sys2Proof.Machine
end

