-- ==== Sys2Proof/Laws/Rounding.lean ====
section
/-! SUPPORT. What rounding once does to a rational number: a packed `roundUnits` is the number rounded as R10 and R12
say (`RoundsTo`), with the largest finite value's upper half-way point as the border of overflow. -/

namespace Sys2Proof.Machine

/-- The value of a pattern counts its units of 2^-149 (R9). -/
theorem floatValue_eq (v : Word) : floatValue v = (scaled v : ℚ) / 2 ^ 149 := by
  have hm : (if expField v = 0 then (fracField v : ℚ) / 2 ^ 23 * (2 : ℚ) ^ (-126 : ℤ)
     else (1 + (fracField v : ℚ) / 2 ^ 23) * (2 : ℚ) ^ ((expField v : ℤ) - 127)) = (magnitude v : ℚ) / 2 ^ 149 := by
    simp only [magnitude]
    split
    · rw [zpow_neg]; norm_num; ring
    · rename_i h0
      obtain ⟨e, he⟩ : ∃ e, expField v = e + 1 := ⟨expField v - 1, by omega⟩
      have : (2 : ℚ) ^ (((e + 1 : ℕ) : ℤ) - 127) = 2 ^ e / 2 ^ 126 := by
        rw [zpow_sub₀ (by norm_num)]
        push_cast
        rw [zpow_add₀ (by norm_num), zpow_natCast]
        norm_num
        ring
      rw [he, this, Nat.add_sub_cancel]
      push_cast
      ring
  rw [floatValue, hm, scaled]
  split <;> push_cast <;> ring

/-- Half a unit below 2^24 already rounds up to it: at the tie 2^24 is the even one. -/
theorem full_le_divNearestEven {num D : Nat} (h : 0 < D) : 2 ^ 24 ≤ divNearestEven num D ↔ (2 ^ 25 - 1) * D ≤ 2 * num := by
  have hq := Nat.div_add_mod num D
  have hr := Nat.mod_lt num h
  simp only [divNearestEven]
  set q := num / D
  set r := num % D
  have e : 2 * num = 2 * q * D + 2 * r := by rw [← hq]; ring
  rw [e]
  rcases Nat.lt_or_ge q (2 ^ 24 - 1) with h1 | h1
  · constructor
    · intro h2; exfalso; split at h2
      · omega
      · split at h2 <;> omega
    · intro h2; exfalso
      have : (2 * q + 2) * D ≤ (2 ^ 25 - 2) * D := Nat.mul_le_mul_right _ (by omega)
      have h3 : (2 ^ 25 - 1) * D = (2 ^ 25 - 2) * D + D := by ring_nf
      rw [Nat.add_mul] at this
      omega
  · rcases Nat.lt_or_ge q (2 ^ 24) with h2 | h2
    · have hq' : q = 2 ^ 24 - 1 := by omega
      rw [hq']
      constructor
      · intro h3; split at h3
        · omega
        · norm_num; omega
      · intro h3
        have : D ≤ 2 * r := by norm_num at h3; omega
        split
        · omega
        · split <;> norm_num
    · have : 2 ^ 25 * D ≤ 2 * q * D := Nat.mul_le_mul_right _ (by omega)
      constructor
      · intro _; norm_num at this ⊢; omega
      · intro _; split
        · omega
        · split <;> omega

/-- `divNearestEven` is one of the two whole numbers around the quotient. -/
theorem divNearestEven_bounds (num D : Nat) : num / D ≤ divNearestEven num D ∧ divNearestEven num D ≤ num / D + 1 := by
    simp only [divNearestEven]
    split
    · omega
    · split <;> omega

/-- The result is an infinity exactly from halfway past the largest finite value on (R10). -/
theorem roundUnits_overflow {num den : Nat} (hden : 0 < den) :
    roundUnits num den = 0x7F800000 ↔ ((2 ^ 25 - 1) * 2 ^ 252) * den ≤ num := by
  have e : ((2 ^ 25 - 1) * 2 ^ 252) * den ≤ num ↔ (2 ^ 25 - 1) * (den * 2 ^ 253) ≤ 2 * num := by
    rw [show (2 ^ 25 - 1) * (den * 2 ^ 253) = 2 * (((2 ^ 25 - 1) * 2 ^ 252) * den) by
      rw [Nat.pow_succ 2 252]; generalize 2 ^ 252 = P; ring]
    generalize ((2 ^ 25 - 1) * 2 ^ 252) * den = P
    omega
  rw [e, ← full_le_divNearestEven (by positivity)]
  simp only [roundUnits]
  set q := num / den with hq
  have hdiv : ∀ k, num / (den * 2 ^ k) = q / 2 ^ k := fun k => by rw [hq, Nat.div_div_eq_div_mul]
  have hb := divNearestEven_bounds num
  have hp : ∀ {a b : Nat}, a ≤ b → 2 ^ a ≤ 2 ^ b := fun h => Nat.pow_le_pow_right (by norm_num) h
  rcases log2_place (q := q) with ⟨h0, hlt⟩ | ⟨k, hk, hle, hlt⟩
  · rw [h0]
    have h1 := (hb (den * 2 ^ 0)).2
    have h2 := (hb (den * 2 ^ 253)).2
    rw [hdiv] at h1 h2
    have h3 : q / 2 ^ 253 = 0 := Nat.div_eq_of_lt (lt_of_lt_of_le hlt (hp (by norm_num)))
    have h4 : q / 2 ^ 0 = q := by simp
    generalize divNearestEven num (den * 2 ^ 253) = m at *
    generalize q / 2 ^ 253 = m' at *
    generalize divNearestEven num (den * 2 ^ 0) = m'' at *
    clear e hdiv hb hp
    omega
  · rw [hk]
    have h1 := hb (den * 2 ^ k)
    rw [hdiv] at h1
    have h5 : 2 ^ 23 ≤ q / 2 ^ k := by
      rw [Nat.le_div_iff_mul_le (by positivity), ← pow_add, Nat.add_comm]; exact hle
    have h6 : q / 2 ^ k < 2 ^ 24 := by
      rw [Nat.div_lt_iff_lt_mul (by positivity), ← pow_add, Nat.add_comm]; exact hlt
    rcases Nat.lt_trichotomy k 253 with h | h | h
    · have h2 := (hb (den * 2 ^ 253)).2
      rw [hdiv] at h2
      have h3 : q / 2 ^ 253 < 2 ^ 23 := by
        rw [Nat.div_lt_iff_lt_mul (by positivity), ← pow_add]
        exact lt_of_lt_of_le hlt (hp (by omega))
      generalize divNearestEven num (den * 2 ^ 253) = m at *
      generalize q / 2 ^ 253 = m' at *
      generalize q / 2 ^ k = m'' at *
      clear e hdiv hb hp hle hlt
      omega
    · subst h
      generalize divNearestEven num (den * 2 ^ 253) = m at *
      generalize q / 2 ^ 253 = m' at *
      clear e hdiv hb hp hle hlt
      omega
    · have h2 := (hb (den * 2 ^ 253)).1
      rw [hdiv] at h2
      have h3 : 2 ^ 24 ≤ q / 2 ^ 253 := by
        rw [Nat.le_div_iff_mul_le (by positivity), ← pow_add]
        exact le_trans (hp (by omega)) hle
      generalize divNearestEven num (den * 2 ^ 253) = m at *
      generalize q / 2 ^ 253 = m' at *
      generalize q / 2 ^ k = m'' at *
      clear e hdiv hb hp hle hlt
      omega

/-- An integer with its sign flipped or kept. -/
def withSign (neg : Bool) (n : Int) : Int := if neg then -n else n

/-- A packed `roundUnits` is the signed number `num / den` units of 2^-149 rounded to nearest, ties to even. -/
theorem roundsTo_packFloat {neg : Bool} {num den : Nat} {x : ℚ} (hden : 0 < den)
    (hx : x = (withSign neg num : ℚ) / (den * 2 ^ 149)) : RoundsTo x (packFloat neg (roundUnits num den)) := by
  have hlt := roundUnits_lt num den
  have hd : (0 : ℚ) < den * 2 ^ 149 := by positivity
  have hdi : (0 : Int) < den := by exact_mod_cast hden
  have habs : |x| = (num : ℚ) / (den * 2 ^ 149) := by
    rw [hx, abs_div, abs_of_pos hd]
    congr 1
    cases neg <;> simp [withSign]
  have hsx : num ≠ 0 → (x < 0 ↔ neg = true) := by
    intro hn
    have hp : (0 : ℚ) < num := by positivity
    rw [hx]
    cases neg
    · simp only [withSign]
      have := div_pos hp hd
      simpa using this.le
    · simp only [withSign, if_true]
      have := div_pos hp hd
      simp only [Int.cast_neg, Int.cast_natCast, neg_div, iff_true]
      linarith
  have hov : 2 ^ 128 - 2 ^ 103 ≤ |x| ↔ ((2 ^ 25 - 1) * 2 ^ 252) * den ≤ num := by
    rw [habs, le_div_iff₀ hd, ← Nat.cast_le (α := ℚ)]
    apply iff_of_eq
    congr 1
    push_cast
    norm_num
    ring
  have hfin : isFinite (packFloat neg (roundUnits num den)) = true ↔ roundUnits num den < 0x7F800000 := by
    rw [isFinite_iff, absBits_packFloat _ hlt]
  have hsc : scaled (packFloat neg (roundUnits num den)) = withSign neg (magBits (roundUnits num den)) := by
    rw [scaled, signBit_packFloat _ hlt, magnitude_packFloat _ hlt]; rfl
  have dist : ∀ c, isFinite c = true → |floatValue c - x| = (|scaled c * den - withSign neg num| : ℚ) / (den * 2 ^ 149) := by
    intro c hc
    rw [floatValue_eq c, hx]
    rw [show (scaled c : ℚ) / 2 ^ 149 - (withSign neg num : ℚ) / (den * 2 ^ 149) =
      ((scaled c : ℚ) * den - (withSign neg num : ℚ)) / (den * 2 ^ 149) by field_simp]
    rw [abs_div, abs_of_pos hd]
  have abs_withSign : ∀ a b : Int, |withSign neg a * den - withSign neg b| = |a * den - b| := by
    intro a b
    cases neg
    · simp [withSign]
    · simp only [withSign, if_true]
      rw [← abs_neg]; congr 1; ring
  have hnear := roundUnits_nearest (num := num) hden
  have hce : ∀ c, scaled c = withSign neg (magnitude c) ∨ scaled c = withSign neg (-(magnitude c : Int)) := by
    intro c
    cases neg <;> cases hs : signBit c <;> simp [withSign, scaled, hs]
  have far : ∀ c, |(magnitude c : Int) * den - num| ≤ |scaled c * den - withSign neg num| := by
    intro c
    rcases hce c with h | h
    · rw [h, abs_withSign]
    · rw [h, abs_withSign]
      have h1 : (0 : Int) ≤ (magnitude c : Int) * den := by positivity
      have h2 : (0 : Int) ≤ num := by positivity
      rw [show -(magnitude c : Int) * den - num = -((magnitude c : Int) * den + num) by ring, abs_neg,
        abs_of_nonneg (show (0:Int) ≤ (magnitude c : Int) * den + num by linarith), abs_le]
      constructor <;> linarith
  refine ⟨?_, ?_, ?_, ?_, ?_⟩
  · intro h
    rw [hfin]
    have := roundUnits_le num den
    rcases Nat.lt_or_ge (roundUnits num den) 0x7F800000 with h1 | h1
    · exact h1
    · exact absurd (hov.2 ((roundUnits_overflow hden).1 (by omega))) (not_le.2 h)
  · intro h
    have h1 := hov.1 h
    have hn : num ≠ 0 := by
      rintro rfl
      have : 0 < ((2 ^ 25 - 1) * 2 ^ 252) * den := by positivity
      omega
    rw [(roundUnits_overflow hden).2 h1]
    have := hsx hn
    cases neg
    · rw [if_neg (by simpa using this)]; rfl
    · rw [if_pos (by simpa using this)]; rfl
  · intro hf c hc
    rw [dist _ hf, dist c hc]
    refine div_le_div_of_nonneg_right ?_ hd.le
    have h1 := (hnear (hfin.1 hf) (absBits c)).1
    rw [← magnitude_eq] at h1
    have h2 := le_trans h1 (far c)
    rw [hsc]
    have h3 := abs_withSign (magBits (roundUnits num den)) num
    have h4 : |withSign neg (magBits (roundUnits num den)) * den - withSign neg num| ≤ |scaled c * den - withSign neg num| := by rw [h3]; exact h2
    exact_mod_cast h4
  · intro hf c hc he hne
    rw [dist _ hf, dist c hc, div_left_inj' hd.ne', hsc] at he
    have he' : |withSign neg (magBits (roundUnits num den)) * den - withSign neg num| = |scaled c * den - withSign neg num| := by exact_mod_cast he
    rw [abs_withSign] at he'
    have hn := hnear (hfin.1 hf) (absBits c)
    rw [← magnitude_eq] at hn
    have hb : (packFloat neg (roundUnits num den)).getLsbD 0 = false ↔ roundUnits num den % 2 = 0 := by
      rw [BitVec.getLsbD, packFloat_toNat _ hlt, Nat.testBit_zero]
      simp only [decide_eq_false_iff_not]
      split <;> omega
    rw [hb]
    have hmne : scaled c ≠ scaled (packFloat neg (roundUnits num den)) := by
      intro hh; apply hne; rw [floatValue_eq c, floatValue_eq (packFloat neg _), hh]
    rw [hsc] at hmne
    have h5 := le_antisymm hn.1 (le_trans (far c) he'.symm.le)
    refine hn.2 h5 ?_
    intro hm
    rcases hce c with h | h
    · apply hmne; rw [h, hm]
    · rw [h, abs_withSign] at he'
      rw [← hm] at he' hmne
      have h1 : (0 : Int) ≤ (magnitude c : Int) * den := by positivity
      have h2 : (0 : Int) ≤ num := by positivity
      have : (magnitude c : Int) ≠ 0 := by
        intro h0; apply hmne; rw [h, h0]; simp
      have h3 : (0 : Int) < (magnitude c : Int) * den := by
        have : (0:Int) < magnitude c := by omega
        positivity
      rw [show -(magnitude c : Int) * den - num = -((magnitude c : Int) * den + num) by ring, abs_neg,
        abs_of_nonneg (show (0:Int) ≤ (magnitude c : Int) * den + num by linarith)] at he'
      have hnum0 : (num : Int) = 0 := by
        rcases abs_cases ((magnitude c : Int) * den - num) with ⟨h6, _⟩ | ⟨h6, _⟩ <;> linarith
      have hnum0' : num = 0 := by exact_mod_cast hnum0
      subst hnum0'
      have h0 : roundUnits 0 den = 0 := by simp [roundUnits, divNearestEven, hden]
      rw [h0] at hm
      have h00 : magBits 0 = 0 := by decide
      omega
  · intro h0
    rw [signBit_packFloat _ hlt]
    have hn : num ≠ 0 := by
      rintro rfl; apply h0; rw [hx]; cases neg <;> simp [withSign]
    have := hsx hn
    cases neg
    · simpa using this
    · simpa using this
end Sys2Proof.Machine
end

