-- ==== Sys2Proof/Tests/Slice0.lean ====
section
/-! SUPPORT. Tests: expected values from the tables and worked examples of spec/ (the rule or the vector of
95_test_vectors.md is named), and one witness for every statement that has hypotheses: a concrete state and operands
that meet them together. -/

namespace Sys2Proof.Tests

open Sys2Proof.Machine

/-! ### Helpers -/

/-- The outcome is a next state that passes a check. -/
def goesTo (p : State → Bool) (o : Host.Outcome State Fault Refusal) : Bool :=
  match o with
  | .next t => p t
  | .fault _ => false
  | .refused _ => false

theorem next_of_goesTo {p : State → Bool} {o : Host.Outcome State Fault Refusal} (h : goesTo p o = true) :
    ∃ t, o = .next t ∧ p t = true := by
  cases o with
  | next t => exact ⟨t, rfl, h⟩
  | fault f => cases h
  | refused r => cases h

/-- What the decoder answers, as an option. -/
def decoded (v : Word) : Option Instr :=
  match decode v with
  | .ok i => some i
  | .error _ => none

/-- The reset state with the three argument registers set. -/
def withArgs (s : State) (a b c : Word) : State := { s with regs := { s.regs with arg0 := a, arg1 := b, arg2 := c } }

/-- Line state D4 (95_test_vectors.md 2.3): capacity 4, slots 1.0, 2.0, 3.0, +0, cursor 3. -/
def d4Line : DelayLine :=
  ⟨4#32, 3#32, [(2, 0x80#8), (3, 0x3F#8), (7, 0x40#8), (10, 0x40#8), (11, 0x40#8)]⟩

def d4 : State := { State.reset with lines := ⟨d4Line, DelayLine.reset⟩ }

/-- A settled smoothed parameter of ramp length 2400. -/
def settled (v : Word) : Smoothed := ⟨v, v, 0#32, 0#32, 2400#32⟩

/-- The "48k defaults" (95_test_vectors.md), with the coefficients it gives. -/
def fs48 : State :=
  { State.reset with
    prepared := true
    sampleRate := 48000#32
    sampleRateF := 0x473B8000#32
    coefD := 0x395A7000#32
    coefM := 0x3B086400#32
    lines := ⟨⟨96000#32, 0#32, []⟩, ⟨96000#32, 0#32, []⟩⟩
    sp := ⟨settled 0x41C80000#32, settled 0x41700000#32, settled 0x3E800000#32, settled 0x3FC00000#32⟩
    ops := ⟨0x41C80000#32, 0x41700000#32, 0x3E800000#32, 0x3FC00000#32⟩ }

/-- The same with both channels alike. -/
def fsMirror : State :=
  { fs48 with
    snap := { fs48.snap with targets := { fs48.snap.targets with delayRight := 0x41C80000#32 } }
    sp := { fs48.sp with delayRight := settled 0x41C80000#32 }
    ops := { fs48.ops with delayRight := 0x41C80000#32 } }

/-- The 48k defaults with the left channel settled at 2000 ms, 96000 samples: one more than its line reaches (V47m). -/
def fsRange : State :=
  { fs48 with
    snap := { fs48.snap with targets := { fs48.snap.targets with delayLeft := 0x44FA0000#32 } }
    sp := { fs48.sp with delayLeft := settled 0x44FA0000#32 }
    ops := { fs48.ops with delayLeft := 0x44FA0000#32 } }

/-- A command word in flight, latched as an issue latches it (R89). -/
def inFlight (s : State) (v : Word) : State := s.latch v

/-! ### WellFormed: each check refuses an ill-formed term (R122, R83) -/

theorem test_class_none_refuses_unit_1 : UnitClass.accepts .none 1 = false := by decide
theorem test_class_channel_refuses_unit_2 : UnitClass.accepts .channel 2 = false := by decide
theorem test_class_param_refuses_unit_4 : UnitClass.accepts .param 4 = false := by decide
theorem test_access_refuses_byte : accessExists .byte 0x010#12 = false := by decide
theorem test_access_refuses_misaligned : accessExists .word 0x012#12 = false := by decide
theorem test_write_refuses_half : (Transaction.write .half 0x010#12 0#32).wellFormed = false := by decide
theorem test_read_refuses_wide : (Transaction.read .wide 0x010#12).wellFormed = false := by decide
theorem test_read_accepts_last_word : (Transaction.read .word 0xFFC#12).wellFormed = true := by decide

/-! ### Decoding: words written out from R121 and R131, one for every constructor -/

theorem test_decode_nop : decoded 0x00000000#32 = some .nop := by decide
theorem test_decode_prepare : decoded 0x00000001#32 = some .prepare := by decide
theorem test_decode_release : decoded 0x00000002#32 = some .release := by decide
theorem test_decode_blockStart : decoded 0x00000003#32 = some .blockStart := by decide
theorem test_decode_frame : decoded 0x00000004#32 = some .frame := by decide
theorem test_decode_dlConfigure : decoded 0x00000110#32 = some (.dlConfigure .right) := by decide
theorem test_decode_dlWrite : decoded 0x00000011#32 = some (.dlWrite .left) := by decide
theorem test_decode_dlRead : decoded 0x00000112#32 = some (.dlRead .right) := by decide
theorem test_decode_spReset : decoded 0x00000220#32 = some (.spReset .depth) := by decide
theorem test_decode_spInit : decoded 0x00000021#32 = some (.spInit .delayLeft) := by decide
theorem test_decode_spSetTarget : decoded 0x00000222#32 = some (.spSetTarget .depth) := by decide
theorem test_decode_spNext : decoded 0x00000323#32 = some (.spNext .rate) := by decide
theorem test_decode_opStep : decoded 0x00000128#32 = some (.opStep .delayRight) := by decide
theorem test_decode_lfoAdvance : decoded 0x00000130#32 = some (.lfoAdvance .right) := by decide
theorem test_decode_sinEval : decoded 0x00000031#32 = some .sinEval := by decide
theorem test_decode_mix : decoded 0x00000038#32 = some .mix := by decide

/-- V4, V6, V7, V11, V13 to V16. -/
theorem test_decode_illegal :
    ([0x00000104#32, 0x00000210#32, 0x00000312#32, 0x00000131#32, 0x00000005#32, 0x000000FF#32, 0x00000400#32,
      0x80000004#32] : List Word).all (fun v => decoded v == none) = true := by decide

/-- The encoder's words (R131). -/
theorem test_encode_opStep_depth : encode (.opStep .depth) = 0x00000228#32 := by decide
theorem test_encode_lfoAdvance_right : encode (.lfoAdvance .right) = 0x00000130#32 := by decide

/-- The host's two questions, on one row. -/
theorem test_decodeTableWord : decodeTableWord 32 0x223 = some (.spNext .depth) := by decide
theorem test_decodeTableWord_illegal : decodeTableWord 32 0x400 = none := by decide
theorem test_withFetchWord_runs :
    goesTo (fun t => t.errors == 0x04#7 && !t.busy) (step (State.reset.withFetchWord 32 0x4)) = true := by decide

/-! ### The bus (95_test_vectors.md 2.2) -/

/-- V20. -/
theorem test_bus_id_write_ignored : ((State.reset.busWrite 0x000#12 0x12345678#32).busRead 0x000#12).2 = 0x43484F52#32 := by
  decide
/-- V21 and V28: unmapped and gap words. -/
theorem test_bus_zeros :
    ([0x0FC#12, 0x13C#12, 0x15C#12, 0x1BC#12] : List Offset).all (fun o => (State.reset.busRead o).2 == 0#32) = true := by
  decide
/-- V22, V23: reserved bits. -/
theorem test_bus_switches : ((State.reset.busWrite 0x030#12 0xFFFFFFFF#32).busRead 0x030#12).2 = 0x00000003#32 := by decide
theorem test_bus_mode : ((State.reset.busWrite 0x060#12 0xFFFFFFFE#32).busRead 0x060#12).2 = 0x00000000#32 := by decide
/-- V24: `STATUS` = 0x500, write 0x100. -/
theorem test_bus_status_clear :
    ((({ State.reset with errors := 0x05#7 } : State).busWrite 0x00C#12 0x00000100#32).busRead 0x00C#12).2 =
      0x00000400#32 := by decide
/-- V25: `BUSY` and `PREPARED` cannot be written. -/
theorem test_bus_status_flags : ((fs48.busWrite 0x00C#12 0xFFFFFFFF#32).busRead 0x00C#12).2 = 0x00000002#32 := by decide
/-- V26, V27, V29. -/
theorem test_bus_view : (fs48.busRead 0x150#12).2 = 0x00000960#32 ∧ (fs48.busRead 0x108#12).2 = 0x395A7000#32 ∧
    (State.reset.busRead 0x1B8#12).2 = 0x3FC00000#32 := by decide
/-- V30. -/
theorem test_bus_delay_stored : ((State.reset.busWrite 0x020#12 0xFFFFFFFF#32).busRead 0x020#12).2 = 0xFFFFFFFF#32 := by
  decide
/-- R34's masks, all errors at once and one by one (95_test_vectors.md 2.8). -/
theorem test_status_masks : statusWord true true 0x7F#7 = 0x00007F03#32 ∧
    statusWord false false (Error.range.mask) = 0x00004000#32 ∧ statusWord false false (Error.overrun.mask) = 0x00000200#32 := by
  decide

/-! ### binary32 (values from 95_test_vectors.md 2.4 to 2.6) -/

/-- V39: products and ramp lengths. -/
theorem test_rampSteps : rampSteps 0x3D4CCCCD#32 48000 = (2400#32, false) ∧ rampSteps 0x3D4CCCCD#32 8 = (1#32, false) ∧
    rampSteps 0x38D1B717#32 48000 = (4#32, false) ∧ rampSteps 0x49742400#32 48000 = (0xFFFFFFFF#32, false) ∧
    rampSteps 0xBF800000#32 48000 = (1#32, true) ∧ rampSteps 0x7FC00000#32 48000 = (1#32, true) ∧
    rampSteps 0x3D4CCCCD#32 0 = (1#32, true) := by decide
theorem test_fmul_product : fmul 0x38D1B717#32 (i2f 48000) = 0x40999999#32 := by decide
/-- V41a: `t`, `u` and the coefficient from the given `EXP32(u)`. -/
theorem test_coef_parts : fmul 0x3DCCCCCD#32 (i2f 48000) = 0x45960000#32 ∧
    fdiv fMinusOne 0x45960000#32 = 0xB95A740E#32 ∧ fsub fOne 0x3F7FF259#32 = 0x395A7000#32 := by decide
/-- V41i: -1 / +0 is -infinity. -/
theorem test_fdiv_by_zero : fdiv fMinusOne 0x00000000#32 = 0xFF800000#32 ∧ fdiv 0x00000000#32 0x00000000#32 = 0x7FC00000#32 := by
  decide
/-- V46e, V46g, V46h, V46i, V46k. -/
theorem test_mixOf : mixOf 0x3F800000#32 0x3F800000#32 0x3F000000#32 = 0x3FA00000#32 ∧
    mixOf 0x80000000#32 0x80000000#32 0x3F800000#32 = 0x80000000#32 ∧
    mixOf 0x3F800000#32 0x7F800000#32 0x00000000#32 = 0x7FC00000#32 ∧
    mixOf 0x7F61B1E6#32 0x7F61B1E6#32 0x3F800000#32 = 0x7F800000#32 ∧
    mixOf 0x3F800000#32 0x40000000#32 0x3F4CCCCD#32 = 0x400CCCCD#32 := by decide
/-- V43a: the argument of the sine; V43c and V43g: the wrap. -/
theorem test_lfo_parts : lfoArg 0x473B8000#32 0x00000000#32 0x3FC00000#32 100#32 true = 0x3CA0D97C#32 ∧
    phaseStep 0x473B8000#32 0x40C90FD0#32 0x3FC00000#32 = 0x39488000#32 ∧
    phaseStep 0x473B8000#32 0x3F800000#32 0x473B8000#32 = 0x3F800000#32 ∧
    lfoArg 0x00000000#32 0x00000000#32 0x3FC00000#32 0#32 true = 0x7FC00000#32 := by decide
/-- A subnormal sum, and the tie that rounds to even at 2^24 + 1 (R10, R12). -/
theorem test_fp_edges : fadd 0x00000001#32 0x00000001#32 = 0x00000002#32 ∧ i2f 16777217 = 0x4B800000#32 ∧
    i2f 16777219 = 0x4B800002#32 ∧ fadd 0x7F7FFFFF#32 0x7F7FFFFF#32 = 0x7F800000#32 := by decide

/-! ### The commands, one step each -/

/-- V47a: `NOP` shows `BUSY` until it completes. -/
theorem test_nop_busy : (inFlight State.reset 0#32).status = 0x00000001#32 ∧
    goesTo (fun t => t.status == 0#32) (step (inFlight State.reset 0#32)) = true := by decide
/-- V47b: what `PREPARE` latches that does not depend on `EXP32`. -/
theorem test_prepare_48k :
    goesTo (fun t => t.status == 2#32 && t.sp == fs48.sp && t.ops == fs48.ops && t.lines == fs48.lines &&
      t.sampleRateF == 0x473B8000#32)
      (exec .prepare { State.reset with regs := { State.reset.regs with cfgSampleRate := 48000#32 } }) = true := by decide +kernel
/-- V47f, V47g: a rate of 131073 is refused and the block stays prepared. -/
theorem test_prepare_refused :
    goesTo (fun t => t.status == 0x00001002#32 && t.sampleRate == 48000#32)
      (exec .prepare { fs48 with regs := { fs48.regs with cfgSampleRate := 131073#32 } }) = true := by decide
/-- V47i. -/
theorem test_release : goesTo (fun t => t.status == 0#32 && t.lines.left.cap == 96000#32) (exec .release fs48) = true := by
  decide
/-- V47j. -/
theorem test_blockStart_not_prepared : goesTo (fun t => t.status == 0x00000400#32) (exec .blockStart State.reset) = true := by
  decide
/-- V47k. -/
theorem test_blockStart_retargets :
    goesTo (fun t => t.snap.targets.delayLeft == 0x41700000#32 && t.sp.delayLeft.cnt == 2400#32 &&
      t.sp.delayLeft.step == 0xBB888889#32 && t.sp.delayRight == fs48.sp.delayRight)
      (exec .blockStart { fs48 with regs := { fs48.regs with paramDelayL := 15#32 } }) = true := by decide
/-- V47l. -/
theorem test_frame_impulse :
    goesTo (fun t => t.regs.outL == 0x3F000000#32 && t.regs.outR == 0#32 && t.lines.left.cursor == 1#32 &&
      t.phase == ⟨0x394DE32E#32, 0x394DE32E#32⟩ && t.blockIdx == 1#32)
      (exec .frame { fs48 with regs := { fs48.regs with inL := 0x3F800000#32 } }) = true := by decide +kernel
/-- V47m: a delay of 96000 samples raises `RANGE`, and the frame's other effects happen. -/
theorem test_frame_out_of_range :
    goesTo (fun t => t.status == 0x00004002#32 && t.regs.outR == 0#32 && t.lines.left.cursor == 1#32 && t.blockIdx == 1#32)
      (exec .frame fsRange) = true := by decide
/-- R286, R334: the output word of a channel out of range is the free draw as it stands, whatever the input and ratio. -/
theorem test_output_out_of_range (x y dw : Word) : channelOutput false x y dw = y := rfl
/-- V36: `MEM_DEPTH` + 1 is refused. -/
theorem test_dlConfigure_refused :
    goesTo (fun t => t.status == 0x00001000#32 && t.lines == d4.lines)
      (exec (.dlConfigure .left) (withArgs d4 262145#32 0#32 0#32)) = true := by decide
/-- V37: `MEM_DEPTH` is accepted, and the slots are zero. -/
theorem test_dlConfigure_largest :
    goesTo (fun t => t.lines.left == ⟨262144#32, 0#32, []⟩)
      (exec (.dlConfigure .left) (withArgs d4 262144#32 0#32 0#32)) = true := by decide
/-- V31m: the cursor wraps. -/
theorem test_dlWrite_wraps :
    goesTo (fun t => t.lines.left.cursor == 0#32 && t.lines.left.ram.readWord 3 == 0x40800000#32)
      (exec (.dlWrite .left) (withArgs d4 0x40800000#32 0#32 0#32)) = true := by decide
/-- V38: a NaN with payload is stored bit for bit. -/
theorem test_dlWrite_nan :
    goesTo (fun t => t.lines.left.ram.readWord 3 == 0x7FA00001#32)
      (exec (.dlWrite .left) (withArgs d4 0x7FA00001#32 0#32 0#32)) = true := by decide
/-- V31e, V31g, V31c. -/
theorem test_dlRead_interpolates :
    goesTo (fun t => t.regs.result == 0x40200000#32) (exec (.dlRead .left) (withArgs d4 0x3FC00000#32 0#32 0#32)) = true ∧
    goesTo (fun t => t.regs.result == 0x3FA00000#32) (exec (.dlRead .left) (withArgs d4 0x40300000#32 0#32 0#32)) = true ∧
    goesTo (fun t => t.regs.result == 0x3F400000#32) (exec (.dlRead .left) (withArgs d4 0x3E800000#32 0#32 0#32)) = true := by
  decide
/-- V31i, V31l, V35. -/
theorem test_dlRead_errors :
    goesTo (fun t => t.status == 0x00004000#32) (exec (.dlRead .left) (withArgs d4 0x40600000#32 0#32 0#32)) = true ∧
    goesTo (fun t => t.status == 0x00004000#32) (exec (.dlRead .left) (withArgs d4 0x80000001#32 0#32 0#32)) = true ∧
    goesTo (fun t => t.status == 0x00000800#32 && t.regs.result == 0#32) (exec (.dlRead .right) d4) = true := by decide
/-- V40f: a ramp in progress ends at its target. -/
theorem test_spReset :
    goesTo (fun t => t.sp.depth == ⟨0x3F800000#32, 0x3F800000#32, 0#32, 0#32, 4#32⟩)
      (exec (.spReset .depth) (withArgs { fs48 with
        sp := { fs48.sp with depth := ⟨0x3E800000#32, 0x3F800000#32, 0x3E800000#32, 3#32, 4#32⟩ } }
        0x38D1B717#32 0#32 0#32)) = true := by decide
/-- Before any `PREPARE` the rate is 0: `INVALID_RAMP` (V39j). -/
theorem test_spReset_invalid :
    goesTo (fun t => t.status == 0x00002000#32 && t.sp.depth.n == 1#32)
      (exec (.spReset .depth) (withArgs State.reset 0x3D4CCCCD#32 0#32 0#32)) = true := by decide
theorem test_spInit :
    goesTo (fun t => t.sp.delayLeft == ⟨0x41C00000#32, 0x41C00000#32, 0#32, 0#32, 2400#32⟩ && t.ops == fs48.ops)
      (exec (.spInit .delayLeft) (withArgs fs48 0x41C00000#32 0#32 0#32)) = true := by decide
/-- V40b: the step of a falling ramp. -/
theorem test_spSetTarget :
    goesTo (fun t => t.sp.rate == ⟨0x3F800000#32, 0#32, 0xBE800000#32, 4#32, 4#32⟩)
      (exec (.spSetTarget .rate) (withArgs { fs48 with
        sp := { fs48.sp with rate := ⟨0x3F800000#32, 0x3F800000#32, 0#32, 0#32, 4#32⟩ } } 0#32 0#32 0#32)) = true := by decide
/-- V40d: -0 equals +0. -/
theorem test_spSetTarget_equal : (⟨0#32, 0#32, 0#32, 0#32, 4#32⟩ : Smoothed).setTarget 0x80000000#32 =
    ⟨0#32, 0#32, 0#32, 0#32, 4#32⟩ := by decide
/-- V40c: the third step lands on the target. -/
theorem test_spNext_lands :
    goesTo (fun t => t.regs.result == 0x3DCCCCCD#32 && t.sp.depth.cnt == 0#32)
      (exec (.spNext .depth) { fs48 with
        sp := { fs48.sp with depth := ⟨0x3D888889#32, 0x3DCCCCCD#32, 0x3D088889#32, 1#32, 3#32⟩ } }) = true := by decide
/-- V40a: the first step. -/
theorem test_spNext_steps :
    goesTo (fun t => t.regs.result == 0x3E800000#32 && t.sp.depth.cnt == 3#32)
      (exec (.spNext .depth) { fs48 with
        sp := { fs48.sp with depth := ⟨0#32, 0x3F800000#32, 0x3E800000#32, 4#32, 4#32⟩ } }) = true := by decide
/-- V42c. -/
theorem test_opStep_overshoots :
    goesTo (fun t => t.regs.result == 0x3F803326#32 && t.ops.depth == 0x3F803326#32)
      (exec (.opStep .depth) { fs48 with sp := { fs48.sp with depth := settled 0x3F800000#32 } }) = true := by decide
/-- P3, `o3`. -/
theorem test_opStep_delay :
    goesTo (fun t => t.regs.result == 0x41BFFF93#32)
      (exec (.opStep .delayLeft) { fs48 with sp := { fs48.sp with delayLeft := settled 0x41C00000#32 } }) = true := by decide
/-- V43a: the phase after the call. -/
theorem test_lfoAdvance_phase :
    goesTo (fun t => t.phase == ⟨0x394DE32E#32, 0#32⟩)
      (exec (.lfoAdvance .left) (withArgs fs48 0x3FC00000#32 0x3E800000#32 100#32)) = true := by decide +kernel
/-- R10, R222: a NaN depth gives the quiet NaN whatever the sine is. -/
theorem test_lfoAdvance_nan :
    goesTo (fun t => t.regs.result == 0x7FC00000#32)
      (exec (.lfoAdvance .right) (withArgs fs48 0x3FC00000#32 0x7FC00001#32 0#32)) = true := by decide
/-- R226: only `RESULT` is written. -/
theorem test_sinEval_frame :
    goesTo (fun t => t.regs.arg0 == 0x3F800000#32 && t.phase == fs48.phase && t.status == 2#32)
      (exec .sinEval (withArgs fs48 0x3F800000#32 0#32 0#32)) = true := by decide
/-- V46a, V46f. -/
theorem test_mix :
    goesTo (fun t => t.regs.result == 0x3F000000#32) (exec .mix (withArgs State.reset 0x3F800000#32 0#32 0#32)) = true ∧
    goesTo (fun t => t.regs.result == 0#32) (exec .mix (withArgs State.reset 0x3F000000#32 0xBE800000#32 0#32)) = true := by
  decide
/-- P4: an overrun. -/
theorem test_overrun : ((inFlight State.reset 0#32).busWrite 0x008#12 0#32).status = 0x00000201#32 := by decide

/-! ### Host programs (R128, R129) -/

/-- The first lines of program P2 as the bus transactions 95_test_vectors.md gives them. -/
theorem test_program_turns : programTurns (.wr .arg0 4#32 :: execLines (.dlConfigure .left) 0) =
    [.host (.write .word 0x010#12 0x00000004#32), .host (.write .word 0x008#12 0x00000010#32), .engine,
      .host (.read .word 0x00C#12)] := by decide

/-! ### Witnesses: a concrete input that meets the hypotheses of each statement, each clause at a boundary -/

/-- A state that meets the invariant and is not the reset state. -/
theorem fs48_inv : fs48.Inv where
  depth_pos := by decide
  lines := by
    intro c
    cases c <;> exact ⟨by decide, by decide, by decide, by simp [fs48]⟩
  params := by
    intro k
    cases k <;> exact ⟨by decide, by decide⟩
  reserved := ⟨by decide, by decide⟩
  reserved_copy := by
    intro p h
    cases h
  busy_iff := by decide
  prepared_lines := by
    intro _ c
    cases c <;> decide
  rate := by decide
  mirror := by decide

theorem witness_OpcodeTableSelectsTheDecodedCommand :
    ∃ r ∈ opcodeTable, r.selectedBy 0x00000323#32 = true := ⟨⟨"SP_NEXT", 0x00000023#32, 0xFFFFFCFF#32⟩, by decide, by decide⟩

theorem witness_ReservedBitsMakeAnIllegalWord :
    (0x00000400#32).getLsbD 10 = true ∧ (0x80000004#32).getLsbD 31 = true := by decide

theorem witness_IllegalCommandOnlyRaisesIllegalCmd : ∃ p e,
    (inFlight State.reset 0x00000400#32).pending = some p ∧ decode p.word = .error e :=
  ⟨⟨0x00000400#32, HostRegs.reset, 0#32⟩, .reservedBits, by decide, by decide⟩

/-- Both forms of the agenda. -/
theorem witness_StepRunsTheDecodedCommand :
    (∃ p i, (fs48.withPendingWord 0x4#32).pending = some p ∧ decode p.word = .ok i ∧
      (fs48.withPendingWord 0x4#32).agenda = .engine :: []) ∧
    (∃ p i, (inFlight fs48 0x4#32).pending = some p ∧ decode p.word = .ok i ∧ (inFlight fs48 0x4#32).agenda = []) :=
  ⟨⟨_, _, rfl, (by decide : decode 0x4#32 = .ok .frame), rfl⟩, ⟨_, _, rfl, (by decide : decode 0x4#32 = .ok .frame), rfl⟩⟩

/-- Offsets 0x000 and 0xFFC, and an agenda of each form. -/
theorem witness_StepTakesTheNextTurn :
    (0xFFC#12).toNat % 4 = 0 ∧ (0x000#12).toNat % 4 = 0 ∧
    ({ fs48 with agenda := [.host (.write .word 0xFFC#12 1#32)] } : State).agenda =
      [.host (.write .word 0xFFC#12 1#32)] ∧
    ({ fs48 with agenda := [.host (.read .word 0x000#12)] } : State).agenda = [.host (.read .word 0x000#12)] ∧
    ({ fs48 with agenda := [.engine] } : State).pending = none ∧ fs48.pending = none ∧ fs48.agenda = [] := by decide

theorem witness_CmdWriteIssuesOrOverruns : fs48.busy = false ∧ (inFlight fs48 0#32).busy = true := by decide

theorem witness_StatusReadsItsFields : (0 < 7 ∧ 6 < 7) ∧ (2 ≤ 2 ∧ 7 < 8) ∧ 15 ≤ 31 := by decide

/-- The first and the last register of the list, and another register; the first and the last offset. -/
theorem witness_ReadWriteRegistersStoreWhatIsWritten :
    Reg.arg0 ∈ readWriteRegs ∧ Reg.inR ∈ readWriteRegs ∧ Reg.arg0 ≠ Reg.inR ∧
    (0x010#12, { HostRegs.reset with arg0 := 7#32 }) ∈ HostRegs.reset.afterWrites 7#32 ∧
    (0x084#12, { HostRegs.reset with inR := 7#32 }) ∈ HostRegs.reset.afterWrites 7#32 := by decide

/-- The edges of every hole and of every read-only range. -/
theorem witness_UnmappedAndReadOnlyAccessesAreBenign :
    ([0x034, 0x03C, 0x06C, 0x07C, 0x090, 0x0FC, 0x1C0, 0xFFC] : List Nat).all (fun n => n % 4 == 0 && !mappedOffset n) = true ∧
    ([0x000, 0x004, 0x01C, 0x088, 0x08C, 0x100, 0x1BC] : List Nat).all (fun n => n % 4 == 0 && readOnlyOffset n) = true := by
  decide

/-- Busy and a result register; busy and another register; idle and a result register. By offset: `RESULT`, `OUT_L`,
`OUT_R` and both ends of the state view, and the first and the last entry of each list of reads. -/
theorem witness_BusyResultReadsAreFreeDraws :
    (inFlight fs48 4#32).busy = true ∧ fs48.busy = false ∧ Reg.status ≠ Reg.result ∧ Reg.status ≠ Reg.outL ∧
    Reg.status ≠ Reg.outR ∧ Reg.view .sr ≠ Reg.status ∧
    ([0x01C, 0x088, 0x08C, 0x100, 0x1BC] : List Nat).all (fun n => n % 4 == 0 && unstableOffset n) = true ∧
    (0x010#12, 0#32) ∈ State.reset.hostReads ∧ (0x084#12, 0#32) ∈ State.reset.hostReads ∧
    (0x01C#12, 0#32) ∈ fs48.resultReads ++ fs48.allParamReads ∧
    (0x1BC#12, 0#32) ∈ fs48.resultReads ++ fs48.allParamReads := by decide

/-- A byte access, and words at offsets 0x001 and 0xFFE. -/
theorem witness_UnsupportedAccessIsRefused :
    AccessSize.byte ≠ .word ∧ (0x001#12).toNat % 4 ≠ 0 ∧ (0xFFE#12).toNat % 4 ≠ 0 ∧
    ({ fs48 with agenda := [.host (.write .byte 0x010#12 0#32)] } : State).agenda = [.host (.write .byte 0x010#12 0#32)] ∧
    ({ fs48 with agenda := [.host (.read .word 0xFFE#12)] } : State).agenda = [.host (.read .word 0xFFE#12)] := by decide

theorem witness_NopIsTheIssueHandshake : fs48.busy = false ∧ fs48.pending = none := by decide

theorem witness_ReleaseStopsStreamingUntilPrepare : State.reset.prepared = false := by decide

theorem witness_MixAtResetRatioIsHalfInputPlusDelayed : fs48.snap.dryWet = 0x3F800000#32 := by decide

/-- A sine unit's result is a NaN or it is not, whatever the unit. -/
theorem witness_SinEvalWritesTheSine (s : State) :
    isNaN (Config.sin32Raw s.operands.arg0) = false ∨ isNaN (Config.sin32Raw s.operands.arg0) = true := by
  cases isNaN (Config.sin32Raw s.operands.arg0) <;> simp

/-- An equal target (-0 and +0), another one, and a NaN. -/
theorem witness_SpSetTargetStartsARamp : feq 0x80000000#32 State.reset.sp.depth.tgt = true ∧
    feq 0x3F800000#32 fs48.sp.depth.tgt = false ∧ isNaN 0x7FC00000#32 = true := by decide

/-- No step left, one step left, and more. -/
theorem witness_SpNextTakesOneStep : fs48.sp.depth.cnt = 0#32 ∧
    ({ settled 0#32 with cnt := 1#32 } : Smoothed).cnt = 1#32 ∧ ({ settled 0#32 with cnt := 2#32 } : Smoothed).cnt ≠ 0#32 ∧
    ({ settled 0#32 with cnt := 2#32 } : Smoothed).cnt ≠ 1#32 := by decide

/-- A time of +0, a rate of 0, the smallest positive time at rate 1, and a product at 2^32 and one below it. -/
theorem witness_SpResetInstallsTheRampLength :
    fgt 0x00000000#32 0#32 = false ∧ State.reset.sampleRate.toInt ≤ 0 ∧
    (fgt 0x00000001#32 0#32 = true ∧ 0 < (1#32 : Word).toInt) ∧
    fge (fmul 0x4F800000#32 (i2f 1)) 0x4F800000#32 = true ∧ fge (fmul 0x4F7FFFFF#32 (i2f 1)) 0x4F800000#32 = false := by decide

/-- Capacities 1, `MEM_DEPTH`, 0 and `MEM_DEPTH` + 1 on a line in canonical form. -/
theorem witness_DlConfigureSizesAndZeroFills : (d4.lines.get .left).ram.wf = true ∧
    0 < (1#32 : Word).toInt ∧ (262144#32 : Word).toInt ≤ (d4.memDepth : Int) ∧ (0#32 : Word).toInt ≤ 0 ∧
    (d4.memDepth : Int) < (262145#32 : Word).toInt := by decide

theorem d4_ready : LineReady d4.memDepth (d4.lines.get .left) := ⟨by decide, by decide, by decide⟩

theorem witness_DlWriteStoresAtTheCursor : (d4.lines.get .left).ram.wf = true ∧
    LineReady d4.memDepth (d4.lines.get .left) ∧ (d4.lines.get .right).cap = 0#32 :=
  ⟨by decide, d4_ready, by decide⟩

/-- Delays -0, 3 (capacity - 1), the first pattern above 3, and an unconfigured line. -/
theorem witness_DlReadInterpolates : (d4.lines.get .left).cap ≠ 0#32 ∧ (d4.lines.get .left).cap.toNat ≤ d4.memDepth ∧
    inRange 0x80000000#32 (d4.lines.get .left).cap.toNat = true ∧ inRange 0x40400000#32 (d4.lines.get .left).cap.toNat = true ∧
    inRange 0x40400001#32 (d4.lines.get .left).cap.toNat = false ∧ (d4.lines.get .right).cap = 0#32 := by decide

/-- A RAM of two words under a line of four: the cursor 2, and the slot 2 at delay 1 before cursor 3. -/
theorem witness_DelayRamAccessOutsideTheRamFaults :
    let s : State := withArgs { d4 with memDepth := 2, lines := { d4.lines with right := ⟨4#32, 2#32, []⟩ } } 0x3F800000#32 0#32 0#32
    (s.lines.get .right).cap ≠ 0#32 ∧ s.memDepth ≤ (s.lines.get .right).cursor.toNat ∧ (s.lines.get .left).cap ≠ 0#32 ∧
    inRange s.operands.arg0 (s.lines.get .left).cap.toNat = true ∧
    s.memDepth ≤ (s.lines.get .left).slotAt (floorToInt s.operands.arg0) := by decide

/-- Sample rates 1 and 131072. -/
theorem witness_PrepareSetsUpThePipeline : (∀ c, (fs48.lines.get c).ram.wf = true) ∧ 0 < (1#32 : Word).toInt ∧
    2 * (131072#32 : Word).toInt ≤ (fs48.memDepth : Int) := ⟨fun c => by cases c <;> decide, by decide, by decide⟩

/-- Sample rates 0 and 131073. -/
theorem witness_PrepareRefusesABadRate : (0#32 : Word).toInt ≤ 0 ∧ (fs48.memDepth : Int) < 2 * (131073#32 : Word).toInt := by
  decide

/-- A prepared block whose left target changes and whose right target does not. -/
theorem witness_BlockStartSnapshotsAndRetargets : fs48.prepared = true ∧
    feq (i2f (15#32 : Word).toInt) fs48.sp.delayLeft.tgt = false ∧
    feq (i2f fs48.operands.paramDelayR.toInt) fs48.sp.delayRight.tgt = true := by decide

theorem fs48_ready (c : Channel) : LineReady fs48.memDepth (fs48.lines.get c) := by
  cases c <;> exact ⟨by decide, by decide, by decide⟩

theorem witness_FrameCompletesAndStoresTheInput : fs48.prepared = true ∧
    ∀ c, LineReady fs48.memDepth (fs48.lines.get c) ∧ (fs48.lines.get c).ram.wf = true :=
  ⟨by decide, fun c => ⟨fs48_ready c, by cases c <;> decide⟩⟩

theorem fs48_frames : goesTo (fun t => t.errors == 0#7) (exec .frame fs48) = true := by decide +kernel

theorem fsRange_frames : goesTo (fun t => t.errors == 0x40#7) (exec .frame fsRange) = true := by decide +kernel

theorem fsRange_ready (c : Channel) : LineReady fsRange.memDepth (fsRange.lines.get c) := fs48_ready c

/-- Both channels in range; the left one out of range and the right one in range. -/
theorem witness_FrameFollowsThePipeline :
    (fs48.prepared = true ∧ (∀ c, LineReady fs48.memDepth (fs48.lines.get c)) ∧
      ∃ t, exec .frame fs48 = .next t ∧ t.errors = fs48.errors) ∧
    (fsRange.prepared = true ∧ (∀ c, LineReady fsRange.memDepth (fsRange.lines.get c)) ∧
      (∃ t, exec .frame fsRange = .next t ∧ t.errors = fsRange.errors ||| 0x40#7) ∧
      inRange (delaySamples 0x44FA0000#32 fsRange.sampleRateF) (fsRange.lines.get .left).cap.toNat = false ∧
      inRange (delaySamples 0x41700000#32 fsRange.sampleRateF) (fsRange.lines.get .right).cap.toNat = true) :=
  ⟨⟨by decide, fs48_ready, (next_of_goesTo fs48_frames).imp fun _ h => ⟨h.1, eq_of_beq h.2⟩⟩,
    by decide, fsRange_ready, (next_of_goesTo fsRange_frames).imp fun _ h => ⟨h.1, eq_of_beq h.2⟩, by decide, by decide⟩

/-- Capacity 4 after five writes: delays 0, 1 and capacity - 1. -/
theorem witness_IntegerDelayReadsThePastWrite :
    let ws : List Word := [0x3F800000#32, 0x40000000#32, 0x40400000#32, 0x40800000#32, 0x40A00000#32]
    DelayLine.reset.ram.wf = true ∧ (DelayLine.reset.configure 4).writeAll 262144 ws =
      .ok ⟨4#32, 1#32, [(2, 0xA0#8), (3, 0x40#8), (7, 0x40#8), (10, 0x40#8), (11, 0x40#8), (14, 0x80#8), (15, 0x40#8)]⟩ ∧
    (isFinite 0x80000000#32 = true ∧ scaled 0x80000000#32 = (0 : Nat) * unitsPerOne) ∧
    (isFinite 0x3F800000#32 = true ∧ scaled 0x3F800000#32 = (1 : Nat) * unitsPerOne) ∧
    (isFinite 0x40400000#32 = true ∧ scaled 0x40400000#32 = (3 : Nat) * unitsPerOne ∧ 3 ≤ 4 - 1) := by decide

theorem witness_ZeroFillIsTheLoopOfWrites : Memory.wf d4Line.ram = true := by decide

/-- Finite and infinite delays, and a NaN. -/
theorem witness_InRangeComparesExactly : isFinite 0x3F800000#32 = true ∧ isFinite 0x7F800000#32 = false ∧
    isFinite 0xFFC00000#32 = false := by decide

theorem witness_RampLandsOnItsTarget : ({ settled 0#32 with cnt := 4#32 } : Smoothed).cnt ≠ 0#32 ∧
    ({ settled 0#32 with cnt := 4#32 } : Smoothed).cnt.toNat ≤ 4 := by decide

theorem witness_RampNeverOvershoots : ({ settled 0#32 with cnt := 1#32 } : Smoothed).cnt ≠ 0#32 := by decide

/-- The largest phase below 2π, and the increment of 1.5 Hz at 48 kHz. -/
theorem witness_PhaseStaysBelowTwoPi : fge 0x40C90FDA#32 0#32 = true ∧ flt 0x40C90FDA#32 0x40C90FDB#32 = true ∧
    fge (phaseIncrement 0x473B8000#32 0x3FC00000#32) 0#32 = true ∧
    flt (phaseIncrement 0x473B8000#32 0x3FC00000#32) 0x40C90FDB#32 = true := by decide

/-- The 48k defaults with the index term off. -/
def fsNoTerm : State := { fs48 with snap := { fs48.snap with idxTerm := false } }

theorem fsNoTerm_frames : goesTo (fun t => t.errors == 0#7) (exec .frame fsNoTerm) = true := by decide +kernel

theorem witness_FrameIgnoresTheBlockWithIndexTermOff : fsNoTerm.snap.idxTerm = false ∧ fsNoTerm.prepared = true ∧
    ∃ t, exec .frame fsNoTerm = .next t :=
  ⟨by decide, by decide, (next_of_goesTo fsNoTerm_frames).imp fun _ h => h.1⟩

theorem fsMirror_frames : goesTo (fun t => !t.errors.getLsbD 6) (exec .frame fsMirror) = true := by decide +kernel

theorem witness_MirroredChannelsStayMirrored : fsMirror.prepared = true ∧ fsMirror.Mirrored ∧
    fsMirror.operands.inL = fsMirror.operands.inR ∧ ∃ t, exec .frame fsMirror = .next t ∧ t.errors.getLsbD 6 = false :=
  ⟨by decide, ⟨by decide, by decide, by decide, by decide, by decide⟩, by decide,
    (next_of_goesTo fsMirror_frames).imp fun _ h => ⟨h.1, by simpa using h.2⟩⟩

theorem witness_FrameRetargetAgreesWithBlockStart : fs48.prepared = true ∧ ∃ t, exec .blockStart fs48 = .next t :=
  ⟨by decide, _, execBlockStart_prepared (by decide)⟩

/-- The 48k defaults are settled: 25 ms is 1200 samples on the left. -/
theorem witness_SettledFrameOutputsTheDelayedSample : fs48.prepared = true ∧
    (∀ c, LineReady fs48.memDepth (fs48.lines.get c)) ∧ fs48.snap.chorus = false ∧ isFinite 0x41C80000#32 = true ∧
    flt 0#32 0x41C80000#32 = true ∧ isFinite fs48.coefD = true ∧ fs48.snap.targets.delayLeft = 0x41C80000#32 ∧
    fs48.sp.delayLeft = settled 0x41C80000#32 ∧ fs48.ops.delayLeft = 0x41C80000#32 ∧
    isFinite (delaySamples 0x41C80000#32 fs48.sampleRateF) = true ∧
    scaled (delaySamples 0x41C80000#32 fs48.sampleRateF) = (1200 : Nat) * unitsPerOne ∧
    1200 + 1 ≤ (fs48.lines.get .left).cap.toNat ∧ ∃ t, exec .frame fs48 = .next t :=
  ⟨by decide, fs48_ready, by decide, by decide, by decide, by decide, by decide, by decide, by decide, by decide, by decide,
    by decide, (next_of_goesTo fs48_frames).imp fun _ h => h.1⟩

/-- A NaN result of each operation. -/
theorem witness_NaNResultsAreCanonical : isNaN (fadd 0x7F800000#32 0xFF800000#32) = true ∧
    isNaN (fsub 0x7F800000#32 0x7F800000#32) = true ∧ isNaN (fmul 0#32 0x7F800000#32) = true ∧ isNaN (fdiv 0#32 0#32) = true := by
  decide

/-- 2^24 + 1 is a tie: the result is the even pattern of 2^24, as far from the sum as 2^24 + 2. The sum of the largest finite
value with itself overflows, the product of the smallest with itself underflows, and 1/3 rounds up. -/
theorem witness_AddRoundsToNearestEven : (isFinite 0x4B800000#32 = true ∧ isFinite 0x3F800000#32 = true ∧
    fadd 0x4B800000#32 0x3F800000#32 = 0x4B800000#32 ∧ isFinite 0x4B800001#32 = true) ∧
    (isFinite 0x7F7FFFFF#32 = true ∧ fadd 0x7F7FFFFF#32 0x7F7FFFFF#32 = 0x7F800000#32) ∧
    (isFinite 0x00000001#32 = true ∧ fmul 0x00000001#32 0x80000001#32 = 0x80000000#32) ∧
    (isFinite 0x40400000#32 = true ∧ floatValue 0x40400000#32 ≠ 0 ∧ fdiv 0x3F800000#32 0x40400000#32 = 0x3EAAAAAB#32) := by
  refine ⟨by decide, by decide, by decide, by decide, ?_, by decide⟩
  rw [floatValue, show signBit 0x40400000#32 = false by decide, show expField 0x40400000#32 = 128 by decide,
    show fracField 0x40400000#32 = 4194304 by decide]
  norm_num

theorem witness_IntegersBelow24BitsConvertExactly : (-16777215 : Int).natAbs < 2 ^ 24 ∧ (0 : Int).natAbs < 2 ^ 24 := by decide

theorem witness_StepKeepsTheInvariant : fs48.Inv ∧ ∃ t, step fs48 = .next t :=
  ⟨fs48_inv, fs48, rfl⟩

theorem witness_NoFaultWithinTheInvariant : fs48.Inv := fs48_inv

/-- A reset while a command is in flight, with a `CMD` word written at the same time. -/
theorem witness_ResetAbandonsTheCommand :
    ({ inFlight fs48 4#32 with agenda := [.reset (some 1#32)] } : State).agenda = [.reset (some 1#32)] := by decide

theorem witness_HostWritesDoNotAffectTheCommandInFlight : Reg.inL ∈ readWriteRegs ∧ (inFlight fs48 4#32).pending ≠ none ∧
    (inFlight fs48 4#32).pending = some ⟨4#32, fs48.regs, fs48.status⟩ := by decide

theorem witness_ResultRegistersKeepTheirValues : writesResult .release = false ∧ Instr.release ≠ .frame ∧
    ∃ t, exec .release fs48 = .next t := ⟨by decide, by decide, _, rfl⟩

theorem witness_CommandsWriteNoInputRegister : ∃ t, exec .frame fs48 = .next t :=
  (next_of_goesTo fs48_frames).imp fun _ h => h.1

theorem witness_ConfigurationAndSnapshotWriters : Instr.nop ≠ .prepare ∧ Instr.nop ≠ .blockStart ∧ Instr.nop ≠ .release ∧
    Instr.nop ≠ .frame ∧ ∃ t, exec .nop fs48 = .next t := ⟨by decide, by decide, by decide, by decide, _, rfl⟩

/-- An engine turn, with an error bit already set. -/
theorem witness_ErrorBitsAreSticky :
    let s := { inFlight fs48 2#32 with errors := 0x7F#7 }
    (∃ t, step s = .next t) ∧ (∀ x rest, s.agenda ≠ .reset x :: rest) ∧
    (∀ size off v rest, s.agenda = .host (.write size off v) :: rest → off ≠ 0x00C#12) :=
  ⟨(next_of_goesTo (p := fun t => t.errors == 0x7F#7) (by decide)).imp fun _ h => h.1,
    fun _ _ h => (by cases h), fun _ _ _ _ h => (by cases h)⟩

theorem witness_ChannelsAreIndependent : Instr.dlRead ∈ [Instr.dlConfigure, Instr.dlWrite, Instr.dlRead, Instr.lfoAdvance] ∧
    Channel.right ≠ Channel.left ∧ ∃ t, exec (.dlRead .left) d4 = .next t :=
  ⟨by simp, by decide, (next_of_goesTo (p := fun t => t.errors == 0#7) (by decide)).imp fun _ h => h.1⟩

theorem witness_HostCannotWriteTheEngineState : (0x00C#12 : Offset) ≠ 0x008#12 ∧ (0x010#12 : Offset) ≠ 0x00C#12 ∧
    (0x010#12 : Offset) ≠ 0x008#12 := by decide

end Sys2Proof.Tests
end

section
/-! PROOFS. The binary32 operations (00_scope.md R9, R10, R12): every NaN they give is the quiet one, each finite operation
and the conversion of an integer rounds its exact result once, and an integer of at most 24 bits is its own rounding. -/

namespace Sys2Proof.Machine

/-! ### Every NaN result is the quiet one -/

/-- A word that is the one NaN of R10 where it is a NaN at all. -/
def NaNCanonical (v : Word) : Prop := isNaN v = true → v = quietNaN

theorem naNCanonical_quietNaN : NaNCanonical quietNaN := fun _ => rfl

theorem naNCanonical_of_isInf {v : Word} (h : isInf v = true) : NaNCanonical v := by
  intro hn
  rw [isInf_iff] at h
  rw [isNaN_iff] at hn
  omega

theorem naNCanonical_packFloat (neg : Bool) {b : Nat} (h : b ≤ 0x7F800000) : NaNCanonical (packFloat neg b) := by
  intro hn
  rw [isNaN_packFloat neg h] at hn
  contradiction

theorem naNCanonical_fadd (a b : Word) : NaNCanonical (fadd a b) := by
  unfold fadd
  split
  · exact naNCanonical_quietNaN
  · split
    next hinf =>
      split
      · exact naNCanonical_quietNaN
      · exact naNCanonical_of_isInf hinf
    next =>
      split
      next hinf => exact naNCanonical_of_isInf hinf
      next =>
        dsimp only
        split
        · exact naNCanonical_packFloat _ (Nat.zero_le _)
        · exact naNCanonical_packFloat _ (roundUnits_le _ _)

theorem naNCanonical_fmul (a b : Word) : NaNCanonical (fmul a b) := by
  unfold fmul
  split
  · exact naNCanonical_quietNaN
  · split
    · split
      · exact naNCanonical_quietNaN
      · exact naNCanonical_packFloat _ le_rfl
    · exact naNCanonical_packFloat _ (roundUnits_le _ _)

theorem naNCanonical_fdiv (a b : Word) : NaNCanonical (fdiv a b) := by
  unfold fdiv
  split
  · exact naNCanonical_quietNaN
  · split
    · split
      · exact naNCanonical_quietNaN
      · exact naNCanonical_packFloat _ le_rfl
    · split
      · exact naNCanonical_packFloat _ (Nat.zero_le _)
      · split
        · split
          · exact naNCanonical_quietNaN
          · exact naNCanonical_packFloat _ le_rfl
        · exact naNCanonical_packFloat _ (roundUnits_le _ _)

theorem naNCanonical_canonicalNaN (v : Word) : NaNCanonical (canonicalNaN v) := by
  unfold canonicalNaN
  split
  · exact naNCanonical_quietNaN
  next h => exact fun hn => absurd hn h

/-- Settles O46: each operation gives a NaN only by naming `quietNaN`. -/
theorem naNResultsAreCanonical : Obligations.NaNResultsAreCanonical := fun a b =>
  ⟨naNCanonical_fadd a b, naNCanonical_fadd a (fneg b), naNCanonical_fmul a b, naNCanonical_fdiv a b,
    naNCanonical_canonicalNaN _, naNCanonical_canonicalNaN _⟩

/-! ### The four operations on finite patterns -/

theorem unitsPerOne_cast : (unitsPerOne : ℚ) = 2 ^ 149 := by rw [unitsPerOne, Nat.cast_pow, Nat.cast_ofNat]

theorem scaled_eq_withSign (v : Word) : scaled v = withSign (signBit v) (magnitude v) := rfl

/-- The sign and the magnitude of an integer make the integer. -/
theorem withSign_natAbs (n : Int) : withSign (decide (n < 0)) n.natAbs = n := by
  simp only [withSign, decide_eq_true_eq]
  split <;> omega

/-- The sign of a product is the exclusive or of the signs. -/
theorem withSign_bne_mul (s t : Bool) (m n : Int) : withSign (s != t) (m * n) = withSign s m * withSign t n := by
  cases s <;> cases t <;> simp [withSign]

/-- The sign of a quotient is the exclusive or of the signs. -/
theorem withSign_div_withSign (s t : Bool) (m n : Int) :
    (withSign s m : ℚ) / withSign t n = withSign (s != t) m / n := by
  cases s <;> cases t <;> simp [withSign, neg_div, div_neg]

theorem withSign_mul (s : Bool) (m n : Int) : withSign s (m * n) = withSign s m * n := by
  cases s <;> simp [withSign]

theorem floatValue_fneg (v : Word) : floatValue (fneg v) = -floatValue v := by
  rw [floatValue_eq, floatValue_eq, scaled_fneg]
  push_cast
  ring

theorem magnitude_ne_zero_of_floatValue {v : Word} (h : floatValue v ≠ 0) : magnitude v ≠ 0 := by
  intro hm
  apply h
  rw [floatValue_eq, scaled_eq_withSign, hm]
  simp [withSign]

/-- The product of two finite patterns (R10). -/
theorem fmul_finite {a b : Word} (ha : isFinite a = true) (hb : isFinite b = true) :
    fmul a b = packFloat (signBit a != signBit b) (roundUnits (magnitude a * magnitude b) unitsPerOne) := by
  simp [fmul, isNaN_of_isFinite ha, isNaN_of_isFinite hb, isInf_of_isFinite ha, isInf_of_isFinite hb]

/-- The quotient of two finite patterns, the divisor no zero (R10). -/
theorem fdiv_finite {a b : Word} (ha : isFinite a = true) (hb : isFinite b = true) (hb0 : magnitude b ≠ 0) :
    fdiv a b = packFloat (signBit a != signBit b) (roundUnits (magnitude a * unitsPerOne) (magnitude b)) := by
  have hz : isZero b = false := by simpa [isZero] using hb0
  simp [fdiv, isNaN_of_isFinite ha, isNaN_of_isFinite hb, isInf_of_isFinite ha, isInf_of_isFinite hb, hz]

/-- An exact zero rounds to a zero of either sign. -/
theorem roundsTo_zero (neg : Bool) : RoundsTo 0 (packFloat neg 0) := by
  have h := roundsTo_packFloat (neg := neg) (num := 0) (den := 1) (x := 0) Nat.one_pos (by cases neg <;> simp [withSign])
  rwa [show roundUnits 0 1 = 0 by decide] at h

/-- An integer number of units of 2^-149, with the sign it has, rounds to its own packed `roundUnits`. -/
theorem roundsTo_units (n : Int) :
    RoundsTo ((n : ℚ) / 2 ^ 149) (packFloat (decide (n < 0)) (roundUnits n.natAbs 1)) :=
  roundsTo_packFloat Nat.one_pos (by rw [withSign_natAbs, Nat.cast_one, one_mul])

theorem fadd_roundsTo {a b : Word} (ha : isFinite a = true) (hb : isFinite b = true) :
    RoundsTo (floatValue a + floatValue b) (fadd a b) := by
  have hx : floatValue a + floatValue b = ((scaled a + scaled b : Int) : ℚ) / 2 ^ 149 := by
    rw [floatValue_eq, floatValue_eq, Int.cast_add, add_div]
  rw [fadd_finite ha hb, hx]
  split
  next h0 =>
    rw [h0, Int.cast_zero, zero_div]
    exact roundsTo_zero _
  next => exact roundsTo_units _

theorem fsub_roundsTo {a b : Word} (ha : isFinite a = true) (hb : isFinite b = true) :
    RoundsTo (floatValue a - floatValue b) (fsub a b) := by
  rw [sub_eq_add_neg, ← floatValue_fneg, fsub]
  exact fadd_roundsTo ha (by rw [isFinite_fneg, hb])

theorem fmul_roundsTo {a b : Word} (ha : isFinite a = true) (hb : isFinite b = true) :
    RoundsTo (floatValue a * floatValue b) (fmul a b) := by
  rw [fmul_finite ha hb]
  refine roundsTo_packFloat (by decide) ?_
  rw [Nat.cast_mul, withSign_bne_mul, ← scaled_eq_withSign, ← scaled_eq_withSign, floatValue_eq, floatValue_eq,
    unitsPerOne_cast, Int.cast_mul, div_mul_div_comm]

theorem fdiv_roundsTo {a b : Word} (ha : isFinite a = true) (hb : isFinite b = true) (hb0 : floatValue b ≠ 0) :
    RoundsTo (floatValue a / floatValue b) (fdiv a b) := by
  have hmag := magnitude_ne_zero_of_floatValue hb0
  rw [fdiv_finite ha hb hmag]
  refine roundsTo_packFloat (Nat.pos_of_ne_zero hmag) ?_
  calc floatValue a / floatValue b = (scaled a : ℚ) / scaled b := by
        rw [floatValue_eq, floatValue_eq, div_div_div_cancel_right₀ (by positivity)]
    _ = withSign (signBit a != signBit b) (magnitude a) / magnitude b := by
        rw [scaled_eq_withSign, scaled_eq_withSign, withSign_div_withSign, Int.cast_natCast]
    _ = withSign (signBit a != signBit b) (magnitude a * unitsPerOne : Nat) / (magnitude b * 2 ^ 149) := by
        rw [Nat.cast_mul, withSign_mul, Int.cast_mul, Int.cast_natCast, unitsPerOne_cast,
          mul_div_mul_right _ _ (by positivity)]

/-! ### The conversion of an integer -/

/-- The value of an integer's units of 2^-149 is the integer. -/
theorem units_div (n : Int) : ((n * unitsPerOne : Int) : ℚ) / 2 ^ 149 = n := by
  rw [Int.cast_mul, Int.cast_natCast, unitsPerOne_cast, mul_div_cancel_right₀ _ (by positivity)]

theorem i2f_roundsTo (n : Int) : RoundsTo (n : ℚ) (i2f n) := by
  refine roundsTo_packFloat Nat.one_pos ?_
  rw [Nat.cast_mul, withSign_mul, withSign_natAbs, Nat.cast_one, one_mul, units_div]

/-- Settles O47: each operation packs one `roundUnits` of its exact result. -/
theorem addRoundsToNearestEven : Obligations.AddRoundsToNearestEven :=
  ⟨fun _ _ ha hb => ⟨fadd_roundsTo ha hb, fsub_roundsTo ha hb, fmul_roundsTo ha hb, fdiv_roundsTo ha hb⟩, i2f_roundsTo⟩

/-- A magnitude of at most 24 significant bits, below the overflow border, rounds to itself (R9). -/
theorem magBits_roundUnits_of_lt {m j : Nat} (hm : m < 2 ^ 24) (hfin : roundUnits (m * 2 ^ j) 1 < 0x7F800000) :
    magBits (roundUnits (m * 2 ^ j) 1) = m * 2 ^ j := by
  obtain ⟨k, -, hmag, hk⟩ := roundUnits_split Nat.one_pos hfin
  have hkj : k ≤ j := by
    rcases hk with h0 | hle
    · omega
    · have hlt : 2 ^ (k + 23) < 2 ^ (24 + j) := by
        calc 2 ^ (k + 23) ≤ m * 2 ^ j := by rwa [Nat.mul_one] at hle
          _ < 2 ^ 24 * 2 ^ j := Nat.mul_lt_mul_of_pos_right hm (by positivity)
          _ = 2 ^ (24 + j) := (pow_add 2 24 j).symm
      have := (Nat.pow_lt_pow_iff_right (by norm_num)).1 hlt
      omega
  have hsplit : m * 2 ^ j = m * 2 ^ (j - k) * 2 ^ k := by rw [Nat.mul_assoc, ← pow_add, Nat.sub_add_cancel hkj]
  rw [hmag, Nat.one_mul, hsplit, divNearestEven_mul (by positivity)]

/-- Settles O48: below 2^24 the integer has at most 24 significant bits, so rounding it keeps every one. -/
theorem integersBelow24BitsConvertExactly : Obligations.IntegersBelow24BitsConvertExactly := by
  intro n hn
  have hfinite : isFinite (i2f n) = true := by
    refine (i2f_roundsTo n).finite ?_
    calc |(n : ℚ)| = (n.natAbs : ℚ) := by rw [Nat.cast_natAbs, Int.cast_abs]
      _ < 2 ^ 24 := by exact_mod_cast hn
      _ < 2 ^ 128 - 2 ^ 103 := by norm_num
  have hbits := roundUnits_lt (n.natAbs * unitsPerOne) 1
  have hround : magBits (roundUnits (n.natAbs * unitsPerOne) 1) = n.natAbs * unitsPerOne := by
    refine magBits_roundUnits_of_lt hn ?_
    rwa [i2f, isFinite_iff, absBits_packFloat _ hbits] at hfinite
  have hscaled : scaled (i2f n) = n * unitsPerOne := by
    rw [i2f, scaled_eq_withSign, signBit_packFloat _ hbits, magnitude_packFloat _ hbits, hround, Nat.cast_mul,
      withSign_mul, withSign_natAbs]
  refine ⟨hfinite, ?_⟩
  rw [floatValue_eq, hscaled, units_div]

end Sys2Proof.Machine
end

section
/-! PROOFS. The invariants of the rules (10_state.md R42, R49, R52, R53, R55, R56, R281): each named update of the state keeps
them, so each procedure and each command does, and a command answers wherever they hold. -/

namespace Sys2Proof.Machine

/-! ### Delay lines -/

/-- A configured line within R55's invariant can be read and written. -/
theorem LineOk.ready {depth : Nat} {l : DelayLine} (h : LineOk depth l) (hc : l.cap ≠ 0#32) : LineReady depth l :=
  ⟨hc, h.cursor_lt hc, h.cap_le⟩

theorem capacityOk_iff {depth : Nat} {cap : Int} : capacityOk depth cap = true ↔ 0 < cap ∧ cap ≤ (depth : Int) := by
  simp [capacityOk]

/-- A capacity that fits in a word is configured as it stands (R151). -/
theorem DelayLine.configure_cap {cap : Nat} (l : DelayLine) (hlt : cap < 2 ^ 32) :
    (l.configure cap).cap.toNat = cap := Nat.mod_eq_of_lt hlt

theorem DelayLine.configure_cap_ne {cap : Nat} (l : DelayLine) (hpos : 0 < cap) (hlt : cap < 2 ^ 32) :
    (l.configure cap).cap ≠ 0#32 := by
  intro h0
  have hcap := l.configure_cap hlt
  rw [h0, BitVec.toNat_zero] at hcap
  omega

/-- An accepted configuration leaves the line at cursor 0, below the capacity (R151). -/
theorem LineOk.configure {depth cap : Nat} {l : DelayLine} (h : LineOk depth l) (hpos : 0 < cap) (hle : cap ≤ depth)
    (hlt : cap < 2 ^ 32) : LineOk depth (l.configure cap) where
  cursor_lt _ := by rwa [l.configure_cap hlt]
  cap_le := by rwa [l.configure_cap hlt]
  ram_wf := Memory.wf_zeroFill cap h.ram_wf
  ram_lt cell hcell := h.ram_lt cell (Memory.mem_zeroFill hcell)

theorem DelayLine.write_cap {depth : Nat} {l l' : DelayLine} {v : Word} (h : l.write depth v = .ok l') :
    l'.cap = l.cap := by
  obtain ⟨_, _, rfl⟩ := DelayLine.write_ok h
  rfl

/-- A write stores inside the RAM, and the cursor advances modulo the capacity (R152). -/
theorem LineOk.write {depth : Nat} {l l' : DelayLine} {v : Word} (h : LineOk depth l) (hw : l.write depth v = .ok l') :
    LineOk depth l' := by
  obtain ⟨hcap, hcursor, rfl⟩ := DelayLine.write_ok hw
  have hpos : 0 < uint l.cap := Nat.zero_lt_of_lt (h.cursor_lt hcap)
  have hmod : (uint l.cursor + 1) % uint l.cap < uint l.cap := Nat.mod_lt _ hpos
  refine ⟨fun _ => ?_, h.cap_le, Memory.wf_writeWord _ _ h.ram_wf, fun cell hcell => ?_⟩
  · rwa [BitVec.toNat_ofNat, Nat.mod_eq_of_lt (hmod.trans l.cap.isLt)]
  · rcases Memory.mem_writeWord hcell with hold | hnew
    · exact h.ram_lt cell hold
    · omega

theorem LineOk.resetKeepingRam {depth : Nat} {l : DelayLine} (h : LineOk depth l) : LineOk depth l.resetKeepingRam :=
  ⟨fun hc => absurd rfl hc, Nat.zero_le _, h.ram_wf, h.ram_lt⟩

theorem State.prepareConfig_line (s : State) (r : HostRegs) (c : Channel) : (s.prepareConfig r).lines.get c =
    (s.lines.get c).configure (prepareCapacity (sint r.cfgSampleRate)).toNat := by
  cases c <;> rfl

@[simp] theorem State.prepareParam_lines (s : State) (r : HostRegs) (k : Param) : (s.prepareParam r k).lines = s.lines := by
  rw [State.prepareParam_state]

theorem State.resetBlock_line (s : State) (c : Channel) :
    s.resetBlock.lines.get c = (s.lines.get c).resetKeepingRam := by
  cases c <;> rfl

/-! ### Host registers, parameters and the snapshot -/

theorem smoothedOk_reset : SmoothedOk Smoothed.reset := ⟨by decide, by decide⟩

theorem reservedOk_reset : ReservedOk HostRegs.reset := ⟨by decide, by decide⟩

/-- A write of a host register drops the reserved bits (R63). -/
theorem ReservedOk.store {h : HostRegs} (hr : ReservedOk h) (r : Reg) (v : Word) : ReservedOk (h.store r v) := by
  cases r with
  | paramSwitches => exact ⟨by rw [HostRegs.store, BitVec.and_assoc]; simp, hr.mode⟩
  | cfgMode => exact ⟨hr.switches, by rw [HostRegs.store, BitVec.and_assoc]; simp⟩
  | _ => exact ⟨hr.switches, hr.mode⟩

/-- Without dual delay the right target of a snapshot is the left one (R281). -/
theorem snapshotOf_mirror (r : HostRegs) (h : (snapshotOf r).dual = false) :
    (snapshotOf r).targets.delayRight = (snapshotOf r).targets.delayLeft := by
  have hdual : r.dualDelay = false := h
  simp [snapshotOf, hdual]

/-! ### The named updates keep the invariants -/

section
variable {s : State} (h : s.Inv)
include h

theorem State.Inv.raise (e : Error) : (s.raise e).Inv := { h with }

theorem State.Inv.raiseIf (b : Bool) (e : Error) : (s.raiseIf b e).Inv := by
  cases b
  · exact h
  · exact h.raise e

theorem State.Inv.draw : s.draw.1.Inv := { h with }

theorem State.Inv.setResult (v : Word) : (s.setResult v).Inv :=
  { h with reserved := ⟨h.reserved.switches, h.reserved.mode⟩ }

theorem State.Inv.setOut (c : Channel) (v : Word) : (s.setOut c v).Inv := by
  cases c <;> exact { h with reserved := ⟨h.reserved.switches, h.reserved.mode⟩ }

theorem State.Inv.setOps (k : Param) (v : Word) : (s.setOps k v).Inv := { h with }

theorem State.Inv.setPhase (c : Channel) (v : Word) : (s.setPhase c v).Inv := { h with }

theorem State.Inv.setSp (k : Param) {p : Smoothed} (hp : SmoothedOk p) : (s.setSp k p).Inv := by
  refine { h with params := fun j => ?_ }
  rw [State.setSp_sp, PerParam.get_set]
  split
  · exact hp
  · exact h.params j

/-- A line may be replaced by one within R55's invariant, configured where the old one was. -/
theorem State.Inv.setLine {c : Channel} {l : DelayLine} (hl : LineOk s.memDepth l)
    (hcap : (s.lines.get c).cap ≠ 0#32 → l.cap ≠ 0#32) : (s.setLine c l).Inv := by
  refine { h with lines := fun d => ?_, prepared_lines := fun hp d => ?_ } <;> rw [State.setLine_lines, PerChannel.get_set]
  · split
    · exact hl
    · exact h.lines d
  · split
    · exact hcap (h.prepared_lines hp c)
    · exact h.prepared_lines hp d

theorem State.Inv.complete : s.complete.Inv := { h with reserved_copy := nofun, busy_iff := rfl }

theorem State.Inv.latch (v : Word) : (s.latch v).Inv := by
  refine { h with reserved_copy := fun p hp => ?_, busy_iff := rfl }
  obtain rfl : _ = p := Option.some.inj hp
  exact h.reserved

/-! ### The procedures keep the invariants -/

theorem State.Inv.dlWrite {t : State} {c : Channel} {v : Word} (ht : s.dlWrite c v = .ok t) : t.Inv := by
  obtain ⟨l, hl, rfl⟩ := State.dlWrite_ok ht
  exact h.setLine ((h.lines c).write hl) (by rw [DelayLine.write_cap hl]; exact id)

theorem State.Inv.dlRead {t : State} {c : Channel} {d y : Word} (ht : s.dlRead c d = .ok (t, y)) : t.Inv := by
  rcases State.dlRead_ok ht with ⟨_, rfl, _⟩ | ⟨_, rfl, _⟩
  · exact h
  · exact (h.raise .range).draw

theorem State.Inv.spInit (k : Param) (v : Word) : (s.spInit k v).Inv := h.setSp k (Smoothed.ok_init v (h.params k))

theorem State.Inv.spReset (k : Param) (t : Word) (sr : Int) : (s.spReset k t sr).Inv :=
  (h.setSp k (Smoothed.ok_restart _ (rampSteps_ne_zero t sr))).raiseIf _ _

theorem State.Inv.spSetTarget (k : Param) (v : Word) : (s.spSetTarget k v).Inv :=
  h.setSp k (Smoothed.ok_setTarget v (h.params k))

theorem State.Inv.spNext (k : Param) : (s.spNext k).1.Inv := h.setSp k (Smoothed.ok_next (h.params k))

theorem State.Inv.opStep (k : Param) : (s.opStep k).1.Inv := ((h.spNext k).spNext k).setOps k _

theorem State.Inv.retarget (k : Param) : (s.retarget k).Inv := h.spSetTarget k _

theorem State.Inv.lfoAdvance (c : Channel) (rate depth idx : Word) : (s.lfoAdvance c rate depth idx).1.Inv := h.setPhase c _

theorem State.Inv.delayTime (c : Channel) (depthF rateF : Word) : (s.delayTime c depthF rateF).1.Inv := by
  have hl := (h.opStep (delayParam c)).lfoAdvance c rateF depthF (s.opStep (delayParam c)).1.blockIdx
  unfold State.delayTime
  dsimp only
  split
  · exact hl.setOps _ _
  · exact hl

theorem State.Inv.channelStep {t : State} {c : Channel} {x depthF rateF y : Word}
    (ht : s.channelStep c x depthF rateF = .ok (t, y)) : t.Inv := by
  unfold State.channelStep at ht
  dsimp only at ht
  split at ht
  · cases ht
  next s2 _ hread =>
    split at ht
    · cases ht
    next s3 hwrite =>
      simp only [Except.ok.injEq, Prod.mk.injEq] at ht
      exact ht.1 ▸ ((h.delayTime c depthF rateF).dlRead hread).dlWrite hwrite

theorem State.Inv.frame {t : State} {r : HostRegs} (ht : s.frame r = .ok t) : t.Inv := by
  obtain ⟨s1, y1, s2, y2, hleft, hright, rfl⟩ := State.frame_ok ht
  have hshared : s.frameShared.1.Inv := (((h.retarget .delayLeft).retarget .delayRight).opStep .depth).opStep .rate
  have h2 := (((hshared.channelStep hleft).setOut .left y1).channelStep hright).setOut .right y2
  exact { h2 with }

theorem State.Inv.withSnapshot (r : HostRegs) : ({ s with snap := snapshotOf r } : State).Inv :=
  { h with mirror := snapshotOf_mirror r }

theorem State.Inv.prepareConfig {r : HostRegs} (hc : capacityOk s.memDepth (prepareCapacity (sint r.cfgSampleRate)) = true) :
    (s.prepareConfig r).Inv ∧ ∀ c, ((s.prepareConfig r).lines.get c).cap ≠ 0#32 := by
  obtain ⟨hpos, hle⟩ := capacityOk_iff.1 hc
  have hword := BitVec.toInt_lt (x := r.cfgSampleRate)
  have hpos' : 0 < (prepareCapacity (sint r.cfgSampleRate)).toNat := by omega
  have hle' : (prepareCapacity (sint r.cfgSampleRate)).toNat ≤ s.memDepth := by omega
  have hlt : (prepareCapacity (sint r.cfgSampleRate)).toNat < 2 ^ 32 := by simp only [prepareCapacity, sint]; omega
  have hcap : ∀ c, ((s.prepareConfig r).lines.get c).cap ≠ 0#32 := fun c => by
    rw [State.prepareConfig_line]
    exact DelayLine.configure_cap_ne _ hpos' hlt
  refine ⟨{ h with
    lines := fun c => ?_, prepared_lines := fun _ => hcap, rate := rfl, mirror := snapshotOf_mirror r }, hcap⟩
  rw [State.prepareConfig_line]
  exact (h.lines c).configure hpos' hle' hlt

theorem State.Inv.prepareParam (r : HostRegs) (k : Param) : (s.prepareParam r k).Inv :=
  ((h.spInit k _).spReset k _ _).setOps k _

theorem State.Inv.prepareAll {r : HostRegs} (hc : capacityOk s.memDepth (prepareCapacity (sint r.cfgSampleRate)) = true) :
    (s.prepareAll r).Inv := by
  obtain ⟨hconfig, hcap⟩ := h.prepareConfig hc
  have hparams := (((hconfig.prepareParam r .delayLeft).prepareParam r .delayRight).prepareParam r .depth).prepareParam r .rate
  refine { hparams with prepared_lines := fun _ c => ?_ }
  simpa only [State.prepareAll, State.prepareParam_lines] using hcap c

/-! ### Every command answers, and keeps the invariants -/

theorem State.Inv.execPrepare : ∃ t, execPrepare s = .next t ∧ t.Inv := by
  by_cases hc : capacityOk s.memDepth (prepareCapacity (sint s.operands.cfgSampleRate)) = true
  · exact ⟨_, if_pos hc, h.prepareAll hc⟩
  · exact ⟨_, if_neg hc, h.raise _⟩

theorem State.Inv.execBlockStart : ∃ t, execBlockStart s = .next t ∧ t.Inv := by
  by_cases hp : s.prepared = true
  · have hsnap := h.withSnapshot s.operands
    have htargets := (((hsnap.retarget .delayLeft).retarget .delayRight).retarget .depth).retarget .rate
    exact ⟨_, if_pos hp, { htargets with }⟩
  · exact ⟨_, if_neg hp, h.raise _⟩

theorem State.Inv.execFrame : ∃ t, execFrame s = .next t ∧ t.Inv := by
  by_cases hp : s.prepared = true
  · obtain ⟨t, ht⟩ := State.frame_of_ready s.operands fun c => (h.lines c).ready (h.prepared_lines hp c)
    exact ⟨t, by rw [Machine.execFrame, if_pos hp, ht, outcomeOf], h.frame ht⟩
  · exact ⟨_, if_neg hp, h.raise _⟩

theorem State.Inv.execDlConfigure (c : Channel) : ∃ t, execDlConfigure c s = .next t ∧ t.Inv := by
  by_cases hc : capacityOk s.memDepth (sint s.operands.arg0) = true
  · obtain ⟨hpos, hle⟩ := capacityOk_iff.1 hc
    have hword := BitVec.toInt_lt (x := s.operands.arg0)
    have hpos' : 0 < (sint s.operands.arg0).toNat := by omega
    have hlt : (sint s.operands.arg0).toNat < 2 ^ 32 := by simp only [sint]; omega
    exact ⟨_, if_pos hc, h.setLine ((h.lines c).configure hpos' (by omega) hlt)
      fun _ => DelayLine.configure_cap_ne _ hpos' hlt⟩
  · exact ⟨_, if_neg hc, h.raise _⟩

theorem State.Inv.execDlWrite (c : Channel) : ∃ t, execDlWrite c s = .next t ∧ t.Inv := by
  by_cases hcap : (s.lines.get c).cap = 0#32
  · exact ⟨_, if_pos hcap, h.raise _⟩
  · have ht := State.dlWrite_of_ready s.operands.arg0 ((h.lines c).ready hcap)
    exact ⟨_, by rw [Machine.execDlWrite, if_neg hcap, ht, outcomeOf], h.dlWrite ht⟩

/-- A delay read of a line within R55's invariant answers (R156). -/
theorem State.Inv.dlRead_answers (c : Channel) (d : Word) : ∃ r, s.dlRead c d = .ok r := by
  rw [State.dlRead_of_cap d (h.lines c).cap_le]
  split <;> exact ⟨_, rfl⟩

theorem State.Inv.execDlRead (c : Channel) : ∃ t, execDlRead c s = .next t ∧ t.Inv := by
  by_cases hcap : (s.lines.get c).cap = 0#32
  · exact ⟨_, if_pos hcap, h.raise _⟩
  · obtain ⟨⟨t, y⟩, ht⟩ := h.dlRead_answers c s.operands.arg0
    exact ⟨_, by rw [Machine.execDlRead, if_neg hcap, ht], (h.dlRead ht).setResult y⟩

/-- Where the invariants hold, every command answers a state in which they hold. -/
theorem State.Inv.exec (i : Instr) : ∃ t, exec i s = .next t ∧ t.Inv := by
  cases i with
  | nop => exact ⟨s, rfl, h⟩
  | prepare => exact h.execPrepare
  | release => exact ⟨_, rfl, { h with prepared_lines := nofun }⟩
  | blockStart => exact h.execBlockStart
  | frame => exact h.execFrame
  | dlConfigure c => exact h.execDlConfigure c
  | dlWrite c => exact h.execDlWrite c
  | dlRead c => exact h.execDlRead c
  | spReset k => exact ⟨_, rfl, h.spReset k _ _⟩
  | spInit k => exact ⟨_, rfl, h.spInit k _⟩
  | spSetTarget k => exact ⟨_, rfl, h.spSetTarget k _⟩
  | spNext k => exact ⟨_, rfl, (h.spNext k).setResult _⟩
  | opStep k => exact ⟨_, rfl, (h.opStep k).setResult _⟩
  | lfoAdvance c => exact ⟨_, rfl, (h.lfoAdvance c _ _ _).setResult _⟩
  | sinEval => exact ⟨_, rfl, h.setResult _⟩
  | mix => exact ⟨_, rfl, h.setResult _⟩

/-! ### The turns -/

theorem State.Inv.engineTurn : ∃ t, engineTurn s = .next t ∧ t.Inv := by
  unfold Machine.engineTurn
  split
  · exact ⟨s, rfl, h⟩
  next d _ =>
    cases d with
    | error e => exact ⟨_, rfl, (h.raise .illegalCmd).complete⟩
    | ok i =>
      obtain ⟨t, ht, hinv⟩ := h.exec i
      exact ⟨_, by rw [executePending, ht], hinv.complete⟩

theorem State.Inv.issue (v : Word) : (s.issue v).Inv := by
  unfold State.issue
  split
  · exact h.raise _
  · exact h.latch v

theorem State.Inv.busWrite (off : Offset) (v : Word) : (s.busWrite off v).Inv := by
  unfold State.busWrite
  split
  · exact h
  · exact h.issue v
  · exact { h with }
  next r _ _ _ => exact { h with reserved := h.reserved.store r v }

theorem State.Inv.busRead (off : Offset) : (s.busRead off).1.Inv := by
  unfold State.busRead
  split
  · exact h
  · split
    · exact h.draw
    · exact h

/-- The host's turn keeps the invariants where the access exists, and is refused where it does not (R83). -/
theorem State.Inv.hostTurn (x : Transaction) :
    (∃ t, hostTurn x s = .next t ∧ t.Inv) ∨ (x.wellFormed = false ∧ ∃ r, hostTurn x s = .refused r) := by
  cases x with
  | write size off v =>
    cases hx : accessExists size off with
    | true => exact .inl ⟨_, if_pos hx, h.busWrite off v⟩
    | false => exact .inr ⟨hx, _, if_neg (by simp [hx])⟩
  | read size off =>
    cases hx : accessExists size off with
    | true => exact .inl ⟨_, if_pos hx, { h.busRead off with }⟩
    | false => exact .inr ⟨hx, _, if_neg (by simp [hx])⟩

theorem State.Inv.resetBlock : s.resetBlock.Inv where
  depth_pos := h.depth_pos
  lines c := by rw [State.resetBlock_line]; exact (h.lines c).resetKeepingRam
  params k := by cases k <;> exact smoothedOk_reset
  reserved := reservedOk_reset
  reserved_copy := nofun
  busy_iff := rfl
  prepared_lines := nofun
  rate := (by decide : 0#32 = i2f (sint 0#32))
  mirror := nofun

/-- Where the invariants hold, a step answers a state in which they hold, or it refuses a bus access that does not exist. -/
theorem State.Inv.step : (∃ t, step s = .next t ∧ t.Inv) ∨
    ∃ x rest, s.agenda = .host x :: rest ∧ x.wellFormed = false ∧ ∃ r, step s = .refused r := by
  unfold Machine.step nextTurn
  split
  · exact .inl h.engineTurn
  next turn rest hagenda =>
    have hrest : ({ s with agenda := rest } : State).Inv := { h with }
    cases turn with
    | host x =>
      rcases hrest.hostTurn x with hnext | ⟨hx, hrefused⟩
      · exact .inl hnext
      · exact .inr ⟨x, rest, hagenda, hx, hrefused⟩
    | engine => exact .inl hrest.engineTurn
    | reset lost => exact .inl ⟨_, rfl, hrest.resetBlock⟩

end

/-- Settles O49: a step that answers at all answers a state in which the invariants hold. -/
theorem stepKeepsTheInvariant : Obligations.StepKeepsTheInvariant := by
  intro s t h ht
  rcases h.step with ⟨t', ht', hinv⟩ | ⟨_, _, _, _, e, he⟩
  · cases ht.symm.trans ht'
    exact hinv
  · cases ht.symm.trans he

/-- Settles O51: a step answers or refuses, and it refuses only the access that does not exist. -/
theorem noFaultWithinTheInvariant : Obligations.NoFaultWithinTheInvariant := by
  intro s h
  rcases h.step with ⟨t, ht, _⟩ | ⟨x, rest, hagenda, hx, e, he⟩
  · refine ⟨fun f hf => ?_, fun r hr => ?_⟩
    · cases ht.symm.trans hf
    · cases ht.symm.trans hr
  · refine ⟨fun f hf => ?_, fun _ _ => ⟨x, rest, hagenda, hx⟩⟩
    cases he.symm.trans hf

end Sys2Proof.Machine
end

section
/-! PROOFS. What each command may write (10_state.md R35, R52, R53, R54, R60, R64): every field that is not listed for it is as
before. -/

namespace Sys2Proof.Machine

/-- `s` with the fields that most commands may write taken from `t`: the result registers, the error bits, the lines,
parameters, followers and phases, and the count of free draws. -/
def State.withSignals (s t : State) : State :=
  { s with
    regs := { s.regs with result := t.regs.result, outL := t.regs.outL, outR := t.regs.outR }
    errors := t.errors
    lines := t.lines
    sp := t.sp
    ops := t.ops
    phase := t.phase
    draws := t.draws }

/-- `s` with the fields command `i` may write taken from `t`. -/
def State.withWrites (s t : State) : Instr → State
  | .prepare =>
    { s.withSignals t with
      sampleRate := t.sampleRate
      sampleRateF := t.sampleRateF
      maxBlock := t.maxBlock
      coefD := t.coefD
      coefM := t.coefM
      snap := t.snap
      prepared := t.prepared
      blockIdx := t.blockIdx }
  | .release => { s.withSignals t with prepared := t.prepared }
  | .blockStart => { s.withSignals t with snap := t.snap, blockIdx := t.blockIdx }
  | .frame => { s.withSignals t with blockIdx := t.blockIdx }
  | _ => s.withSignals t

/-! ### Each named update writes only such fields -/

/-- `t` differs from `s` only in the fields that most commands may write. -/
def State.SignalsOnly (s t : State) : Prop := s.withSignals t = t

theorem State.SignalsOnly.refl (s : State) : s.SignalsOnly s := rfl

theorem State.SignalsOnly.trans {s t u : State} (h : s.SignalsOnly t) (h' : t.SignalsOnly u) : s.SignalsOnly u :=
  calc s.withSignals u = (s.withSignals t).withSignals u := rfl
    _ = t.withSignals u := by rw [h]
    _ = u := h'

section
variable {s t : State} (h : s.SignalsOnly t)
include h

theorem State.SignalsOnly.raise (e : Error) : s.SignalsOnly (t.raise e) := h.trans rfl

theorem State.SignalsOnly.raiseIf (b : Bool) (e : Error) : s.SignalsOnly (t.raiseIf b e) := by
  cases b
  · exact h
  · exact h.raise e

theorem State.SignalsOnly.draw : s.SignalsOnly t.draw.1 := h.trans rfl

theorem State.SignalsOnly.setResult (v : Word) : s.SignalsOnly (t.setResult v) := h.trans rfl

theorem State.SignalsOnly.setSp (k : Param) (p : Smoothed) : s.SignalsOnly (t.setSp k p) := h.trans rfl

theorem State.SignalsOnly.setOps (k : Param) (v : Word) : s.SignalsOnly (t.setOps k v) := h.trans rfl

theorem State.SignalsOnly.setPhase (c : Channel) (v : Word) : s.SignalsOnly (t.setPhase c v) := h.trans rfl

theorem State.SignalsOnly.setLine (c : Channel) (l : DelayLine) : s.SignalsOnly (t.setLine c l) := h.trans rfl

theorem State.SignalsOnly.dlRead {t' : State} {c : Channel} {d y : Word} (hr : t.dlRead c d = .ok (t', y)) :
    s.SignalsOnly t' := by
  rcases State.dlRead_ok hr with ⟨_, rfl, _⟩ | ⟨_, rfl, _⟩
  · exact h
  · exact (h.raise .range).draw

theorem State.SignalsOnly.spReset (k : Param) (x : Word) (sr : Int) : s.SignalsOnly (t.spReset k x sr) :=
  (h.setSp k _).raiseIf _ _

theorem State.SignalsOnly.opStep (k : Param) : s.SignalsOnly (t.opStep k).1 := ((h.setSp k _).setSp k _).setOps k _

theorem State.SignalsOnly.retarget (k : Param) : s.SignalsOnly (t.retarget k) := h.setSp k _

theorem State.SignalsOnly.prepareParam (r : HostRegs) (k : Param) : s.SignalsOnly (t.prepareParam r k) :=
  ((h.setSp k _).spReset k _ _).setOps k _

end

/-! ### Each command writes only what is listed for it -/

section
variable {s t : State}

theorem State.SignalsOnly.prepare_writes {r : HostRegs} (h : (s.prepareConfig r).SignalsOnly t) (phase : PerChannel Word) :
    s.withWrites { t with phase := phase, blockIdx := 0#32, prepared := true } .prepare =
      { t with phase := phase, blockIdx := 0#32, prepared := true } := by
  rw [← (h : _ = t)]
  rfl

theorem State.prepareAll_writes (s : State) (r : HostRegs) : s.withWrites (s.prepareAll r) .prepare = s.prepareAll r :=
  ((((State.SignalsOnly.refl _).prepareParam r .delayLeft).prepareParam r .delayRight).prepareParam r .depth).prepareParam
    r .rate |>.prepare_writes _

theorem State.SignalsOnly.blockStart_writes {snap : Snapshot} (h : ({ s with snap := snap } : State).SignalsOnly t) :
    s.withWrites { t with blockIdx := 0#32 } .blockStart = { t with blockIdx := 0#32 } := by
  rw [← (h : _ = t)]
  rfl

theorem execPrepare_writes (h : execPrepare s = .next t) : s.withWrites t .prepare = t := by
  unfold execPrepare at h
  split at h <;> cases h
  · exact s.prepareAll_writes _
  · rfl

theorem execBlockStart_writes (h : execBlockStart s = .next t) : s.withWrites t .blockStart = t := by
  unfold execBlockStart at h
  split at h <;> cases h
  · exact ((((State.SignalsOnly.refl _).retarget .delayLeft).retarget .delayRight).retarget .depth).retarget .rate
      |>.blockStart_writes
  · rfl

theorem execFrame_writes (h : execFrame s = .next t) : s.withWrites t .frame = t := by
  by_cases hp : s.prepared = true
  · obtain ⟨_, _, _, _, _, _, _, _, _, _, rfl⟩ := State.frame_state (exec_frame_ok hp h)
    rfl
  · rw [execFrame, if_neg hp] at h
    cases h
    rfl

theorem execDlConfigure_signalsOnly {c : Channel} (h : execDlConfigure c s = .next t) : s.SignalsOnly t := by
  unfold execDlConfigure at h
  dsimp only at h
  split at h <;> cases h
  · exact (State.SignalsOnly.refl s).setLine c _
  · exact (State.SignalsOnly.refl s).raise _

/-- What `DL_WRITE` answers, when it answers (R159). -/
theorem execDlWrite_ok {c : Channel} (h : execDlWrite c s = .next t) :
    ((s.lines.get c).cap = 0#32 ∧ t = s.raise .unconfigured) ∨
    ((s.lines.get c).cap ≠ 0#32 ∧ ∃ l, (s.lines.get c).write s.memDepth s.operands.arg0 = .ok l ∧ t = s.setLine c l) := by
  unfold execDlWrite at h
  split at h
  next hcap => cases h; exact .inl ⟨hcap, rfl⟩
  next hcap =>
    cases hw : s.dlWrite c s.operands.arg0 with
    | error f => rw [hw] at h; cases h
    | ok t' =>
      rw [hw] at h
      cases h
      exact .inr ⟨hcap, State.dlWrite_ok hw⟩

/-- What `DL_READ` answers, when it answers (R160). -/
theorem execDlRead_ok {c : Channel} (h : execDlRead c s = .next t) :
    ((s.lines.get c).cap = 0#32 ∧ t = s.raise .unconfigured) ∨
    ((s.lines.get c).cap ≠ 0#32 ∧ ∃ s' y, s.dlRead c s.operands.arg0 = .ok (s', y) ∧ t = s'.setResult y) := by
  unfold execDlRead at h
  split at h
  next hcap => cases h; exact .inl ⟨hcap, rfl⟩
  next hcap =>
    split at h
    · cases h
    next s' y hread => cases h; exact .inr ⟨hcap, s', y, hread, rfl⟩

theorem execDlWrite_signalsOnly {c : Channel} (h : execDlWrite c s = .next t) : s.SignalsOnly t := by
  rcases execDlWrite_ok h with ⟨_, rfl⟩ | ⟨_, l, _, rfl⟩
  · exact (State.SignalsOnly.refl s).raise _
  · exact (State.SignalsOnly.refl s).setLine c l

theorem execDlRead_signalsOnly {c : Channel} (h : execDlRead c s = .next t) : s.SignalsOnly t := by
  rcases execDlRead_ok h with ⟨_, rfl⟩ | ⟨_, _, y, hread, rfl⟩
  · exact (State.SignalsOnly.refl s).raise _
  · exact ((State.SignalsOnly.refl s).dlRead hread).setResult y

/-- A command leaves every field that is not listed for it as it was. -/
theorem exec_writes {i : Instr} (h : exec i s = .next t) : s.withWrites t i = t := by
  cases i with
  | prepare => exact execPrepare_writes h
  | blockStart => exact execBlockStart_writes h
  | frame => exact execFrame_writes h
  | dlConfigure c => exact execDlConfigure_signalsOnly h
  | dlWrite c => exact execDlWrite_signalsOnly h
  | dlRead c => exact execDlRead_signalsOnly h
  | nop => cases h; rfl
  | release => cases h; rfl
  | spReset k => cases h; exact (State.SignalsOnly.refl s).spReset k _ _
  | spInit k => cases h; exact (State.SignalsOnly.refl s).setSp k _
  | spSetTarget k => cases h; exact (State.SignalsOnly.refl s).setSp k _
  | spNext k => cases h; exact ((State.SignalsOnly.refl s).setSp k _).setResult _
  | opStep k => cases h; exact ((State.SignalsOnly.refl s).opStep k).setResult _
  | lfoAdvance c => cases h; exact ((State.SignalsOnly.refl s).setPhase c _).setResult _
  | sinEval => cases h; exact (State.SignalsOnly.refl s).setResult _
  | mix => cases h; exact (State.SignalsOnly.refl s).setResult _

end

/-- No command lists an input register, the command in flight or the model's own fields. -/
theorem State.withWrites_keeps (s t : State) (i : Instr) :
    { (s.withWrites t i).regs with result := s.regs.result, outL := s.regs.outL, outR := s.regs.outR } = s.regs ∧
    (s.withWrites t i).pending = s.pending ∧ (s.withWrites t i).busy = s.busy ∧ (s.withWrites t i).agenda = s.agenda ∧
    (s.withWrites t i).reads = s.reads ∧ (s.withWrites t i).memDepth = s.memDepth := by
  cases i <;> exact ⟨rfl, rfl, rfl, rfl, rfl, rfl⟩

/-- Settles O56: no command lists any of these fields among its writes. -/
theorem commandsWriteNoInputRegister : Obligations.CommandsWriteNoInputRegister := by
  intro i s t h
  rw [← exec_writes h]
  exact State.withWrites_keeps s t i

/-- Settles O57: the fields in question are listed only for the commands the statement excepts. -/
theorem configurationAndSnapshotWriters : Obligations.ConfigurationAndSnapshotWriters := by
  intro i s t h
  rw [← exec_writes h]
  cases i with
  | prepare =>
    exact ⟨fun hi => absurd rfl hi, fun hi => absurd rfl hi, fun hi => absurd rfl hi, fun hi => absurd rfl hi⟩
  | release => exact ⟨fun _ => ⟨rfl, rfl, rfl, rfl, rfl⟩, fun _ _ => rfl, fun _ hi => absurd rfl hi, fun _ _ _ => rfl⟩
  | blockStart =>
    exact ⟨fun _ => ⟨rfl, rfl, rfl, rfl, rfl⟩, fun _ hi => absurd rfl hi, fun _ _ => rfl, fun _ hi => absurd rfl hi⟩
  | frame => exact ⟨fun _ => ⟨rfl, rfl, rfl, rfl, rfl⟩, fun _ _ => rfl, fun _ _ => rfl, fun _ _ hi => absurd rfl hi⟩
  | _ => exact ⟨fun _ => ⟨rfl, rfl, rfl, rfl, rfl⟩, fun _ _ => rfl, fun _ _ => rfl, fun _ _ _ => rfl⟩

end Sys2Proof.Machine
end

section
/-! PROOFS. The two channels (10_state.md R62, 41_delay_buffer.md R150): a unit command on one channel commutes with any change
of the other channel's delay line and phase. -/

namespace Sys2Proof.Machine

/-- `s` with another delay line and phase in channel `o`. -/
def State.withChannel (s : State) (o : Channel) (l : DelayLine) (p : Word) : State :=
  { s with lines := s.lines.set o l, phase := s.phase.set o p }

theorem PerChannel.set_comm {α : Type} (p : PerChannel α) {c o : Channel} (v w : α) (h : o ≠ c) :
    (p.set o w).set c v = (p.set c v).set o w := by
  cases c <;> cases o
  · contradiction
  · rfl
  · rfl
  · contradiction

section
variable (s : State) {c o : Channel} (l : DelayLine) (p : Word) (h : o ≠ c)

theorem State.withChannel_operands : (s.withChannel o l p).operands = s.operands := rfl

include h

theorem State.withChannel_line : (s.withChannel o l p).lines.get c = s.lines.get c :=
  PerChannel.get_set_other _ _ h.symm

theorem State.withChannel_phase : (s.withChannel o l p).phase.get c = s.phase.get c :=
  PerChannel.get_set_other _ _ h.symm

theorem State.withChannel_setLine (l' : DelayLine) :
    (s.withChannel o l p).setLine c l' = (s.setLine c l').withChannel o l p := by
  simp only [State.withChannel, State.setLine, PerChannel.set_comm _ _ _ h]

theorem State.withChannel_setPhase (p' : Word) :
    (s.withChannel o l p).setPhase c p' = (s.setPhase c p').withChannel o l p := by
  simp only [State.withChannel, State.setPhase, PerChannel.set_comm _ _ _ h]

theorem State.withChannel_dlWrite {t : State} {v : Word} (ht : s.dlWrite c v = .ok t) :
    (s.withChannel o l p).dlWrite c v = .ok (t.withChannel o l p) := by
  obtain ⟨l', hl, rfl⟩ := State.dlWrite_ok ht
  rw [State.dlWrite, s.withChannel_line l p h, show (s.withChannel o l p).memDepth = s.memDepth from rfl, hl,
    ← s.withChannel_setLine l p h]

theorem State.withChannel_dlRead {t : State} {d y : Word} (ht : s.dlRead c d = .ok (t, y)) :
    (s.withChannel o l p).dlRead c d = .ok (t.withChannel o l p, y) := by
  rw [State.dlRead, s.withChannel_line l p h]
  rcases State.dlRead_ok ht with ⟨hin, rfl, hread⟩ | ⟨hin, rfl, rfl⟩
  · rw [if_pos hin, show (t.withChannel o l p).memDepth = t.memDepth from rfl, hread]
  · rw [if_neg (by simp [hin])]
    rfl

end

/-- The command `run` on channel `c` leaves the other channel's line and phase as they are, and does the same whatever they
are. -/
def KeepsOtherChannel (run : State → Host.Outcome State Fault Refusal) (c : Channel) : Prop :=
  ∀ (s t : State) (o : Channel), o ≠ c → run s = .next t →
    t.lines.get o = s.lines.get o ∧ t.phase.get o = s.phase.get o ∧
    ∀ (l : DelayLine) (p : Word), run (s.withChannel o l p) = .next (t.withChannel o l p)

theorem execDlConfigure_keepsOtherChannel (c : Channel) : KeepsOtherChannel (execDlConfigure c) c := by
  intro s t o ho ht
  unfold execDlConfigure at ht ⊢
  dsimp only at ht
  split at ht <;> cases ht
  next hcap =>
    refine ⟨PerChannel.get_set_other _ _ ho, rfl, fun l p => ?_⟩
    rw [State.withChannel_operands, s.withChannel_line l p ho, ← s.withChannel_setLine l p ho]
    exact if_pos hcap
  next hcap => exact ⟨rfl, rfl, fun l p => if_neg hcap⟩

theorem execDlWrite_keepsOtherChannel (c : Channel) : KeepsOtherChannel (execDlWrite c) c := by
  intro s t o ho ht
  rcases execDlWrite_ok ht with ⟨hcap, rfl⟩ | ⟨hcap, l', hl, rfl⟩
  · refine ⟨rfl, rfl, fun l p => ?_⟩
    rw [execDlWrite, s.withChannel_line l p ho, if_pos hcap]
    rfl
  · refine ⟨PerChannel.get_set_other _ _ ho, rfl, fun l p => ?_⟩
    have hw : s.dlWrite c s.operands.arg0 = .ok (s.setLine c l') := by rw [State.dlWrite, hl]
    rw [execDlWrite, s.withChannel_line l p ho, if_neg hcap, State.withChannel_operands, s.withChannel_dlWrite l p ho hw,
      outcomeOf]

theorem execDlRead_keepsOtherChannel (c : Channel) : KeepsOtherChannel (execDlRead c) c := by
  intro s t o ho ht
  rcases execDlRead_ok ht with ⟨hcap, rfl⟩ | ⟨hcap, s', y, hread, rfl⟩
  · refine ⟨rfl, rfl, fun l p => ?_⟩
    rw [execDlRead, s.withChannel_line l p ho, if_pos hcap]
    rfl
  · have hkeep : s'.lines = s.lines ∧ s'.phase = s.phase := by
      rcases State.dlRead_ok hread with ⟨_, rfl, _⟩ | ⟨_, rfl, _⟩ <;> exact ⟨rfl, rfl⟩
    refine ⟨by rw [State.setResult_lines, hkeep.1], by rw [State.setResult_phase, hkeep.2], fun l p => ?_⟩
    rw [execDlRead, s.withChannel_line l p ho, if_neg hcap, State.withChannel_operands, s.withChannel_dlRead l p ho hread]
    rfl

theorem execLfoAdvance_keepsOtherChannel (c : Channel) : KeepsOtherChannel (execLfoAdvance c) c := by
  intro s t o ho ht
  cases ht
  refine ⟨rfl, PerChannel.get_set_other _ _ ho, fun l p => ?_⟩
  rw [execLfoAdvance, State.lfoAdvance, s.withChannel_phase l p ho, s.withChannel_setPhase l p ho]
  rfl

/-- Settles O59: each of the four commands commutes with any change of the other channel. -/
theorem channelsAreIndependent : Obligations.ChannelsAreIndependent := by
  intro i hi s t c o ho ht
  simp only [List.mem_cons, List.not_mem_nil, or_false] at hi
  rcases hi with rfl | rfl | rfl | rfl
  · exact execDlConfigure_keepsOtherChannel c s t o ho ht
  · exact execDlWrite_keepsOtherChannel c s t o ho ht
  · exact execDlRead_keepsOtherChannel c s t o ho ht
  · exact execLfoAdvance_keepsOtherChannel c s t o ho ht

end Sys2Proof.Machine
end

section
/-! PROOFS. The host's registers on the bus (10_state.md R31, R32, R34, R63, R64; 20_memory.md R81, R82): each register
stands at its own offset, and a transaction acts on that register alone. -/

namespace Sys2Proof.Machine

/-! ### The register map -/

/-- Each register, the state view's among them, is the one the map finds at its offset. -/
theorem regAt_busOffset (r : Reg) : regAt (busOffset r) = some r := by
  cases r with
  | view w =>
    cases w with
    | cap c | cursor c | phase c | gap c => cases c <;> rfl
    | spCur k | spTgt k | spStep k | spCnt k | spN k | ops k | snapT k | spGap k => cases k <;> rfl
    | _ => rfl
  | _ => rfl

/-- The register found at an offset stands there. -/
theorem busOffset_of_regAt {off : Offset} {r : Reg} (h : regAt off = some r) : busOffset r = off := by
  have hoff : regOffset r = off.toNat := eq_of_beq (List.find?_some (p := fun r => regOffset r == off.toNat) h)
  rw [busOffset, hoff, BitVec.ofNat_toNat, BitVec.setWidth_eq]

theorem ne_cmd_status_of_mem_readWriteRegs {r : Reg} (h : r ∈ readWriteRegs) : r ≠ .cmd ∧ r ≠ .status := by
  constructor <;> rintro rfl <;> simp [readWriteRegs] at h

/-! ### Reads -/

/-- A read of a register that is stable while busy gives its value and changes nothing (R82). -/
theorem State.busRead_of_stable (s : State) {r : Reg} (h : unstableWhileBusy r = false) :
    s.busRead (busOffset r) = (s, s.regValue r) := by
  rw [State.busRead, regAt_busOffset]
  simp [h]

/-- A read leaves the state, or the state after one free draw (R82, R93). -/
theorem State.busRead_state (s : State) (off : Offset) : (s.busRead off).1 = s ∨ (s.busRead off).1 = s.draw.1 := by
  unfold State.busRead
  split
  · exact .inl rfl
  · split
    · exact .inr rfl
    · exact .inl rfl

/-! ### Writes -/

/-- A write at the offset of a register other than `CMD` and `STATUS` stores to it (R81). -/
theorem State.busWrite_store (s : State) {r : Reg} (v : Word) (hcmd : r ≠ .cmd) (hstatus : r ≠ .status) :
    s.busWrite (busOffset r) v = { s with regs := s.regs.store r v } := by
  rw [State.busWrite, regAt_busOffset]
  split
  next h => cases h
  next h => exact absurd (Option.some.inj h) hcmd
  next h => exact absurd (Option.some.inj h) hstatus
  next h => cases h; rfl

/-- What a write can do (R81): nothing, the issue of a command, the clearing of error bits, or the store of a register. -/
theorem State.busWrite_cases (s : State) (off : Offset) (v : Word) :
    s.busWrite off v = s ∨ (off = 0x008#12 ∧ s.busWrite off v = s.issue v) ∨
    (off = 0x00C#12 ∧ s.busWrite off v = { s with errors := clearBits s.errors v }) ∨
    ∃ r, s.busWrite off v = { s with regs := s.regs.store r v } := by
  unfold State.busWrite
  split
  · exact .inl rfl
  next h => exact .inr (.inl ⟨(busOffset_of_regAt h).symm, rfl⟩)
  next h => exact .inr (.inr (.inl ⟨(busOffset_of_regAt h).symm, rfl⟩))
  next r _ _ _ => exact .inr (.inr (.inr ⟨r, rfl⟩))

/-! ### The read-write registers -/

/-- A read-write register reads back what was stored, reserved bits 0 (R63). -/
theorem State.regValue_store_same (s : State) {r : Reg} (v : Word) (hr : r ∈ readWriteRegs) :
    ({ s with regs := s.regs.store r v } : State).regValue r = v &&& writableBits r := by
  cases r with
  | paramSwitches | cfgMode => exact (BitVec.and_assoc _ _ _).trans (congrArg (v &&& ·) BitVec.and_self)
  | id | version | cmd | status | result | outL | outR | view w => simp [readWriteRegs] at hr
  | _ => exact BitVec.and_allOnes.symm

/-- A store to one register leaves what every other one reads (R81). -/
theorem State.regValue_store_other (s : State) {r r' : Reg} (v : Word) (h : r' ≠ r) :
    ({ s with regs := s.regs.store r v } : State).regValue r' = s.regValue r' := by
  cases r' with
  | id | version | cmd | status | view w => rfl
  | _ => cases r <;> trivial

/-- The listed offsets and fields are those of the read-write registers, in R31's order. -/
theorem HostRegs.afterWrites_eq (h : HostRegs) (v : Word) :
    h.afterWrites v = readWriteRegs.map fun r => (busOffset r, h.store r v) := rfl

/-- Settles O12: a write of a read-write register is one store, which only that register's reads see. -/
theorem readWriteRegistersStoreWhatIsWritten : Obligations.ReadWriteRegistersStoreWhatIsWritten := by
  have hstore : ∀ (s : State) (r : Reg) (v : Word), r ∈ readWriteRegs →
      s.busWrite (busOffset r) v = { s with regs := s.regs.store r v } := fun s r v hr =>
    have hne := ne_cmd_status_of_mem_readWriteRegs hr
    s.busWrite_store v hne.1 hne.2
  constructor
  · intro s r v hr
    rw [hstore s r v hr]
    exact ⟨s.regValue_store_same v hr, fun r' h => s.regValue_store_other v h, rfl⟩
  · intro s v x hx
    rw [HostRegs.afterWrites_eq] at hx
    obtain ⟨r, hr, rfl⟩ := List.mem_map.1 hx
    exact hstore s r v hr

/-! ### The constants and `STATUS` -/

/-- Settles O8: both registers are stable while busy, and a store to either changes nothing. -/
theorem idAndVersionAreConstants : Obligations.IdAndVersionAreConstants := fun s v =>
  ⟨s.busRead_of_stable (r := .id) rfl, s.busRead_of_stable (r := .version) rfl,
    s.busWrite_store (r := .id) v nofun nofun, s.busWrite_store (r := .version) v nofun nofun⟩

/-- The status word bit by bit (R34). -/
theorem getLsbD_statusWord (busy prepared : Bool) (errors : BitVec 7) (j : Nat) :
    (statusWord busy prepared errors).getLsbD j =
      if j = 0 then busy else if j = 1 then prepared else !decide (j < 8) && errors.getLsbD (j - 8) := by
  simp only [statusWord, BitVec.getLsbD_or, BitVec.getLsbD_shiftLeft, BitVec.getLsbD_setWidth, BitVec.getLsbD_ofBool]
  by_cases h0 : j = 0
  · simp [h0]
  by_cases h1 : j = 1
  · simp [h1]
  have hpred : j - 1 ≠ 0 := by omega
  by_cases hlt : j < 32
  · simp [h0, h1, hlt, hpred, show j - 8 < 32 by omega]
  · have hbit : errors.getLsbD (j - 8) = false := BitVec.getLsbD_of_ge errors (j - 8) (by omega)
    simp [h0, h1, hlt, hbit]

/-- Settles O10: the read gives the status word, whose bits are those of its fields. -/
theorem statusReadsItsFields : Obligations.StatusReadsItsFields := by
  intro s
  refine ⟨s.busRead_of_stable (r := .status) rfl, ?_, ?_, fun j hj => ?_, fun j hlo hhi => ?_, fun j hlo => ?_⟩ <;>
    rw [State.status, getLsbD_statusWord]
  · rfl
  · rfl
  · rw [if_neg (by omega), if_neg (by omega)]
    simp
  · rw [if_neg (by omega), if_neg (by omega), decide_eq_true hhi, Bool.not_true, Bool.false_and]
  · rw [if_neg (by omega), if_neg (by omega), BitVec.getLsbD_of_ge _ _ (by omega), Bool.and_false]

/-! ### What a transaction leaves as it was -/

/-- Settles O60: a write that issues no command stores a register or clears error bits, and a read draws at most. -/
theorem hostCannotWriteTheEngineState : Obligations.HostCannotWriteTheEngineState := by
  intro s off v
  refine ⟨fun hcmd => ?_, fun hstatus hcmd => ?_, ?_⟩
  · rcases s.busWrite_cases off v with h | ⟨hoff, _⟩ | ⟨_, h⟩ | ⟨r, h⟩
    · rw [h]
    · exact absurd hoff hcmd
    · rw [h]
    · rw [h]
  · rcases s.busWrite_cases off v with h | ⟨hoff, _⟩ | ⟨hoff, _⟩ | ⟨r, h⟩
    · rw [h]
    · exact absurd hoff hcmd
    · exact absurd hoff hstatus
    · rw [h]
  · rcases s.busRead_state off with h | h
    · rw [h]
    · rw [h]
      rfl

/-- Settles O52: the 36 reads, each evaluated in the reset state. -/
theorem resetReadsTheTable : Obligations.ResetReadsTheTable := by
  refine ⟨rfl, rfl, ?_⟩
  decide

end Sys2Proof.Machine
end

section
/-! PROOFS. Reads and writes at every offset of the bus (20_memory.md R81, R82, R85, R89, R93): which register each offset
reaches, which reads are free draws, and which writes do nothing. -/

namespace Sys2Proof.Machine

/-! ### Which register an offset reaches -/

theorem mem_allRegs (r : Reg) : r ∈ allRegs := List.mem_of_find?_eq_some (regAt_busOffset r)

theorem mappedOffset_busOffset (r : Reg) : mappedOffset (busOffset r).toNat = true :=
  (by decide : ∀ r ∈ allRegs, mappedOffset (busOffset r).toNat = true) r (mem_allRegs r)

/-- The state view and the result registers are the ones at the offsets R93 names. -/
theorem unstableOffset_busOffset (r : Reg) : unstableOffset (busOffset r).toNat = unstableWhileBusy r :=
  (by decide : ∀ r ∈ allRegs, unstableOffset (busOffset r).toNat = unstableWhileBusy r) r (mem_allRegs r)

/-- No register stands at an offset outside R31's ranges. -/
theorem regAt_unmapped {off : Offset} (h : mappedOffset off.toNat = false) : regAt off = none := by
  cases hr : regAt off with
  | none => rfl
  | some r =>
    have hmapped := mappedOffset_busOffset r
    rw [busOffset_of_regAt hr, h] at hmapped
    cases hmapped

/-- The 48 words of the state view leave no hole between its ends (R51). -/
theorem exists_viewOffset : ∀ i < 48, ∃ w ∈ allViews, viewOffset w = 0x100 + 4 * i := by decide

/-- Each aligned offset R93 names is that of a register. -/
theorem exists_busOffset_of_unstable {off : Offset} (halign : off.toNat % 4 = 0) (h : unstableOffset off.toNat = true) :
    ∃ r, busOffset r = off := by
  have hoff : ∀ r, regOffset r = off.toNat → busOffset r = off := fun r hr => by
    rw [busOffset, hr, BitVec.ofNat_toNat, BitVec.setWidth_eq]
  simp only [unstableOffset, Bool.or_eq_true, Bool.and_eq_true, beq_iff_eq, decide_eq_true_eq] at h
  rcases h with ((h | h) | h) | ⟨hlo, hhi⟩
  · exact ⟨.result, hoff _ h.symm⟩
  · exact ⟨.outL, hoff _ h.symm⟩
  · exact ⟨.outR, hoff _ h.symm⟩
  · obtain ⟨w, _, hw⟩ := exists_viewOffset ((off.toNat - 0x100) / 4) (by omega)
    exact ⟨.view w, hoff _ (hw.trans (by omega))⟩

/-! ### Unmapped offsets and read-only registers -/

theorem readOnlyOffset_eq (n : Nat) :
    readOnlyOffset n = (n == 0x000 || n == 0x004 || unstableOffset n) := by
  simp only [readOnlyOffset, unstableOffset, Bool.or_assoc]

/-- A register whose reads are unspecified while busy stores nothing (R64). -/
theorem store_of_unstable {r : Reg} (h : unstableWhileBusy r = true) (regs : HostRegs) (v : Word) :
    r ≠ .cmd ∧ r ≠ .status ∧ regs.store r v = regs := by
  cases r with
  | result | outL | outR | view w => exact ⟨nofun, nofun, rfl⟩
  | _ => cases h

/-- Settles O13: no register stands at an unmapped offset, and the one at a read-only offset stores nothing. -/
theorem unmappedAndReadOnlyAccessesAreBenign : Obligations.UnmappedAndReadOnlyAccessesAreBenign := by
  intro s off v halign
  refine ⟨fun hun => ?_, fun hro => ?_⟩
  · rw [State.busRead, State.busWrite, regAt_unmapped hun]
    exact ⟨rfl, rfl⟩
  · simp only [readOnlyOffset_eq, Bool.or_eq_true, beq_iff_eq] at hro
    rcases hro with (hid | hversion) | hunstable
    · rw [BitVec.eq_of_toNat_eq (y := 0x000#12) hid]
      exact (idAndVersionAreConstants s v).2.2.1
    · rw [BitVec.eq_of_toNat_eq (y := 0x004#12) hversion]
      exact (idAndVersionAreConstants s v).2.2.2
    · obtain ⟨r, rfl⟩ := exists_busOffset_of_unstable halign hunstable
      rw [unstableOffset_busOffset] at hunstable
      obtain ⟨hcmd, hstatus, hstore⟩ := store_of_unstable hunstable s.regs v
      rw [s.busWrite_store v hcmd hstatus, hstore]

/-! ### Free draws while busy -/

theorem unstableWhileBusy_iff (r : Reg) :
    unstableWhileBusy r = true ↔ r = .result ∨ r = .outL ∨ r = .outR ∨ ∃ v, r = .view v := by
  cases r <;> simp [unstableWhileBusy]

/-- While busy, a read of an unstable register is a free draw (R93). -/
theorem State.busRead_of_unstable {s : State} {r : Reg} (hbusy : s.busy = true) (h : unstableWhileBusy r = true) :
    s.busRead (busOffset r) = s.draw := by
  rw [State.busRead, regAt_busOffset]
  simp [hbusy, h]

/-- On an idle block every read gives the register's value and changes nothing (R82). -/
theorem State.busRead_of_idle {s : State} (r : Reg) (hidle : s.busy = false) :
    s.busRead (busOffset r) = (s, s.regValue r) := by
  rw [State.busRead, regAt_busOffset]
  simp [hidle]

/-- The listed reads of read-write registers are their values, in R31's order. -/
theorem State.hostReads_eq (s : State) :
    s.hostReads = readWriteRegs.map fun r => (busOffset r, s.regValue r) := rfl

theorem stable_of_mem_readWriteRegs : ∀ r ∈ readWriteRegs, unstableWhileBusy r = false := by decide

/-- The word that shows the snapshot's switches is the number with these three bits (R51). -/
theorem State.viewValue_snapSwitches (s : State) : s.viewValue .snapSwitches =
    BitVec.ofNat 32 (s.snap.dual.toNat + 2 * s.snap.chorus.toNat + 4 * s.snap.idxTerm.toNat) := by
  rw [State.viewValue]
  cases s.snap.dual <;> cases s.snap.chorus <;> cases s.snap.idxTerm <;> rfl

/-- The listed reads of the result registers and of the words that belong to no parameter are their values. -/
theorem State.resultReads_eq (s : State) : s.resultReads =
    (.result :: .outL :: .outR :: commonViews.map Reg.view).map fun r => (busOffset r, s.regValue r) := by
  rw [State.resultReads, ← s.viewValue_snapSwitches]
  rfl

/-- The listed reads of the parameters' words are their values. -/
theorem State.allParamReads_eq (s : State) : s.allParamReads =
    ((allParams.flatMap paramViews).map Reg.view).map fun r => (busOffset r, s.regValue r) := rfl

/-- Settles O14: an unstable register draws while busy and shows its value when idle, and every listed read is that of a
register at its offset. -/
theorem busyResultReadsAreFreeDraws : Obligations.BusyResultReadsAreFreeDraws := by
  refine ⟨fun s r => ?_, fun s off hbusy halign hoff => ?_, fun s x hx => ?_, fun s hidle x hx => ?_⟩
  · rw [← unstableWhileBusy_iff]
    refine ⟨fun ⟨hbusy, hr⟩ => State.busRead_of_unstable hbusy hr, fun h => ?_⟩
    by_cases hr : unstableWhileBusy r = true
    · exact State.busRead_of_idle r (Bool.eq_false_iff.2 fun hbusy => h ⟨hbusy, hr⟩)
    · exact s.busRead_of_stable (Bool.eq_false_iff.2 hr)
  · obtain ⟨r, rfl⟩ := exists_busOffset_of_unstable halign hoff
    rw [unstableOffset_busOffset] at hoff
    exact State.busRead_of_unstable hbusy hoff
  · rw [State.hostReads_eq] at hx
    obtain ⟨r, hr, rfl⟩ := List.mem_map.1 hx
    exact s.busRead_of_stable (stable_of_mem_readWriteRegs r hr)
  · rw [State.resultReads_eq, State.allParamReads_eq, ← List.map_append] at hx
    obtain ⟨r, _, rfl⟩ := List.mem_map.1 hx
    exact State.busRead_of_idle r hidle

/-! ### The issue of a command -/

theorem State.busWrite_cmd (s : State) (v : Word) : s.busWrite 0x008#12 v = s.issue v := by
  rw [show (0x008#12 : Offset) = busOffset .cmd from rfl, State.busWrite, regAt_busOffset]

/-- Settles O9: `CMD` is stable while busy, and a write of it latches or overruns. -/
theorem cmdWriteIssuesOrOverruns : Obligations.CmdWriteIssuesOrOverruns := by
  intro s v
  refine ⟨s.busRead_of_stable (r := .cmd) rfl, fun hidle => ?_, fun hbusy => ?_⟩
  · exact (s.busWrite_cmd v).trans (if_neg (Bool.eq_false_iff.1 hidle))
  · exact (s.busWrite_cmd v).trans (if_pos hbusy)

end Sys2Proof.Machine
end

section
/-! PROOFS. One step for each kind of turn (20_memory.md R79, R81 to R83, R92): the engine's, with a command in flight and
without one, and the host's, at an access that exists and at one that does not. -/

namespace Sys2Proof.Machine

/-! ### The engine's turn -/

theorem State.fetch_of_pending {s : State} {p : Pending} (h : s.pending = some p) : s.fetch = some (decode p.word) := by
  rw [State.fetch, h]

theorem engineTurn_of_pending {s : State} {p : Pending} (h : s.pending = some p) :
    engineTurn s = executePending (decode p.word) s := by
  rw [engineTurn, State.fetch_of_pending h]

theorem engineTurn_of_idle {s : State} (h : s.pending = none) : engineTurn s = .next s := by
  rw [engineTurn, State.fetch, h]

/-- The step is the first turn listed, taken off the agenda (R79). -/
theorem step_turn {s : State} {t : Turn} {rest : List Turn} (h : s.agenda = t :: rest) :
    step s = takeTurn t { s with agenda := rest } := by
  rw [step, nextTurn, h]

/-- With no turn listed the step is the engine's turn (R79). -/
theorem step_unlisted {s : State} (h : s.agenda = []) : step s = engineTurn s := by
  rw [step, nextTurn, h]

/-- With the engine's turn listed first, or none listed, the step is the engine's turn (R79). -/
theorem step_engine {s : State} {rest : List Turn} (h : s.agenda = .engine :: rest ∨ (s.agenda = [] ∧ rest = [])) :
    step s = engineTurn { s with agenda := rest } := by
  rcases h with h | ⟨h, rfl⟩
  · exact step_turn h
  · rw [step_unlisted h, ← h]

/-- Settles O6: the step is the engine's turn, which executes the decoded command. -/
theorem stepRunsTheDecodedCommand : Obligations.StepRunsTheDecodedCommand := by
  intro s p i rest hpending hdecode hagenda
  rw [step_engine hagenda, engineTurn_of_pending (s := { s with agenda := rest }) hpending, hdecode, executePending]
  cases exec i { s with agenda := rest } <;> rfl

/-! ### The host's turn -/

theorem accessExists_iff (size : AccessSize) (off : Offset) :
    accessExists size off = true ↔ size = .word ∧ off.toNat % 4 = 0 := by
  simp only [accessExists, Bool.and_eq_true, beq_iff_eq]

theorem hostTurn_write {off : Offset} (v : Word) (s : State) (h : accessExists .word off = true) :
    hostTurn (.write .word off v) s = .next (s.busWrite off v) := if_pos h

theorem hostTurn_read {off : Offset} (s : State) (h : accessExists .word off = true) :
    hostTurn (.read .word off) s =
      .next { (s.busRead off).1 with reads := (s.busRead off).1.reads ++ [(s.busRead off).2] } := if_pos h

/-- A transaction the bus does not have is refused, a write or a read (R83). -/
theorem hostTurn_refused {x : Transaction} (s : State) (h : x.wellFormed = false) :
    hostTurn x s = .refused .busAccessUnsupported := by
  cases x with
  | write size off v => exact if_neg (Bool.eq_false_iff.1 h)
  | read size off => exact if_neg (Bool.eq_false_iff.1 h)

/-- Settles O7: an aligned word access exists, so the host's turn is the bus operation; without a command in flight the
engine's turn is idle. -/
theorem stepTakesTheNextTurn : Obligations.StepTakesTheNextTurn := by
  intro s rest off v halign
  have hexists : accessExists .word off = true := (accessExists_iff _ _).2 ⟨rfl, halign⟩
  exact ⟨fun h => (step_turn h).trans (hostTurn_write v _ hexists),
    fun h => ⟨_, _, rfl, (step_turn h).trans (hostTurn_read _ hexists)⟩,
    fun hidle h => (step_turn h).trans (engineTurn_of_idle hidle),
    fun hidle h => (step_unlisted h).trans (engineTurn_of_idle hidle)⟩

/-- Settles O15: the access does not exist, so the host's turn refuses it. -/
theorem unsupportedAccessIsRefused : Obligations.UnsupportedAccessIsRefused := by
  intro s rest size off v hbad hagenda
  have hmissing : accessExists size off = false := by
    rw [Bool.eq_false_iff, Ne, accessExists_iff, not_and_or]
    exact hbad
  rcases hagenda with h | h
  · exact (step_turn h).trans (hostTurn_refused (x := .write size off v) _ hmissing)
  · exact (step_turn h).trans (hostTurn_refused (x := .read size off) _ hmissing)

end Sys2Proof.Machine
end

section
/-! PROOFS. A delay line that reaches past its RAM (20_memory.md R86): the write and the first read of such a slot fault. -/

namespace Sys2Proof.Machine

theorem DelayLine.write_of_cursor_ge {depth : Nat} {l : DelayLine} (v : Word) (hcap : l.cap ≠ 0#32)
    (h : depth ≤ l.cursor.toNat) : l.write depth v = .error .delayRamIndex := by
  rw [DelayLine.write, if_neg hcap, memWrite_of_ge _ _ (Nat.not_lt.2 h)]

theorem DelayLine.readAt_of_slot_ge {depth : Nat} {l : DelayLine} {d : Word} (h : depth ≤ l.slotAt (floorToInt d)) :
    l.readAt depth d = .error .delayRamIndex := by
  rw [DelayLine.readAt, memRead_of_ge _ (Nat.not_lt.2 h)]

/-- Settles O30: the fault of the RAM access is that of the line, of the state and of the command. -/
theorem delayRamAccessOutsideTheRamFaults : Obligations.DelayRamAccessOutsideTheRamFaults := by
  intro s c hcap
  refine ⟨fun hcursor => ?_, fun hin hslot => ?_⟩
  · calc exec (.dlWrite c) s = outcomeOf (s.dlWrite c s.operands.arg0) := if_neg hcap
      _ = .fault .delayRamIndex := by rw [State.dlWrite, DelayLine.write_of_cursor_ge _ hcap hcursor, outcomeOf]
  · have hread : s.dlRead c s.operands.arg0 = .error .delayRamIndex := by
      rw [State.dlRead, if_pos hin, DelayLine.readAt_of_slot_ge hslot]
    rw [show exec (.dlRead c) s = execDlRead c s from rfl, execDlRead, if_neg hcap, hread]

end Sys2Proof.Machine
end

section
/-! PROOFS. A host write while a command is in flight (20_memory.md R92, 70_reset_and_hazards.md R367): the command reads its
own copy of the registers, so every operation it is made of commutes with a store to the registers as they stand. -/

namespace Sys2Proof.Machine

/-- `s` after a store of `v` to register `r` (R63, R81). -/
def State.storeReg (r : Reg) (v : Word) (s : State) : State := { s with regs := s.regs.store r v }

/-- An outcome with its next state, if it has one, passed through `f`. -/
def mapNext (f : State → State) : Host.Outcome State Fault Refusal → Host.Outcome State Fault Refusal
  | .next t => .next (f t)
  | .fault e => .fault e
  | .refused e => .refused e

theorem outcomeOf_map (f : State → State) (x : Except Fault State) : outcomeOf (x.map f) = mapNext f (outcomeOf x) := by
  cases x <;> rfl

theorem mapNext_ite (f : State → State) (b : Prop) [Decidable b] (x y : Host.Outcome State Fault Refusal) :
    mapNext f (if b then x else y) = if b then mapNext f x else mapNext f y := apply_ite (mapNext f) b x y

theorem State.operands_of_pending {s : State} {p : Pending} (h : s.pending = some p) : s.operands = p.regs := by
  rw [State.operands, h]

/-- A store does not reach the copy in flight (R92). -/
theorem State.storeReg_operands {s : State} (r : Reg) (v : Word) (h : s.pending ≠ none) :
    (s.storeReg r v).operands = s.operands := by
  obtain ⟨p, hp⟩ := Option.ne_none_iff_exists'.1 h
  rw [State.operands_of_pending hp, State.operands_of_pending (s := s.storeReg r v) hp]

/-! ### The operations commute with a store -/

section
variable (s : State) (r : Reg) (v : Word)

/-! The fields of the engine, which a store leaves as they are (R64). -/

@[simp] theorem State.storeReg_memDepth : (s.storeReg r v).memDepth = s.memDepth := rfl
@[simp] theorem State.storeReg_sampleRateF : (s.storeReg r v).sampleRateF = s.sampleRateF := rfl
@[simp] theorem State.storeReg_coefD : (s.storeReg r v).coefD = s.coefD := rfl
@[simp] theorem State.storeReg_coefM : (s.storeReg r v).coefM = s.coefM := rfl
@[simp] theorem State.storeReg_snap : (s.storeReg r v).snap = s.snap := rfl
@[simp] theorem State.storeReg_lines : (s.storeReg r v).lines = s.lines := rfl
@[simp] theorem State.storeReg_sp : (s.storeReg r v).sp = s.sp := rfl
@[simp] theorem State.storeReg_ops : (s.storeReg r v).ops = s.ops := rfl
@[simp] theorem State.storeReg_phase : (s.storeReg r v).phase = s.phase := rfl
@[simp] theorem State.storeReg_blockIdx : (s.storeReg r v).blockIdx = s.blockIdx := rfl

@[simp] theorem State.storeReg_coef (k : Param) : (s.storeReg r v).coef k = s.coef k := by
  cases k <;> rfl

/-- No store reaches `RESULT` (R64). -/
theorem State.storeReg_setResult (y : Word) : (s.storeReg r v).setResult y = (s.setResult y).storeReg r v := by
  cases r <;> rfl

/-- No store reaches `OUT_L` or `OUT_R` (R64). -/
theorem State.storeReg_setOut (c : Channel) (y : Word) :
    (s.storeReg r v).setOut c y = (s.setOut c y).storeReg r v := by
  cases c <;> cases r <;> rfl

theorem State.storeReg_spReset (k : Param) (t : Word) (sr : Int) :
    (s.storeReg r v).spReset k t sr = (s.spReset k t sr).storeReg r v := by
  rw [State.spReset_state, State.spReset_state]
  rfl

theorem State.storeReg_spNext (k : Param) :
    (s.storeReg r v).spNext k = Prod.map (State.storeReg r v) id (s.spNext k) := rfl

theorem State.storeReg_opStep (k : Param) :
    (s.storeReg r v).opStep k = Prod.map (State.storeReg r v) id (s.opStep k) := by
  have hvalue : ((s.storeReg r v).opStep k).2 = (s.opStep k).2 := by simp [State.opStep_value]
  refine Prod.ext ?_ hvalue
  rw [Prod.map_fst, State.opStep_state, State.opStep_state, hvalue]
  rfl

theorem State.storeReg_lfoAdvance (c : Channel) (rate depth idx : Word) :
    (s.storeReg r v).lfoAdvance c rate depth idx = Prod.map (State.storeReg r v) id (s.lfoAdvance c rate depth idx) := rfl

theorem State.storeReg_prepareParam (regs : HostRegs) (k : Param) :
    (s.storeReg r v).prepareParam regs k = (s.prepareParam regs k).storeReg r v := by
  rw [State.prepareParam_state, State.prepareParam_state]
  rfl

theorem State.storeReg_prepareConfig (regs : HostRegs) :
    (s.storeReg r v).prepareConfig regs = (s.prepareConfig regs).storeReg r v := rfl

theorem State.storeReg_prepareAll (regs : HostRegs) :
    (s.storeReg r v).prepareAll regs = (s.prepareAll regs).storeReg r v := by
  simp only [State.prepareAll, State.storeReg_prepareConfig, State.storeReg_prepareParam]
  rfl

theorem State.storeReg_dlWrite (c : Channel) (x : Word) :
    (s.storeReg r v).dlWrite c x = (s.dlWrite c x).map (State.storeReg r v) := by
  rw [State.dlWrite, State.dlWrite, State.storeReg_lines, State.storeReg_memDepth]
  cases (s.lines.get c).write s.memDepth x <;> rfl

theorem State.storeReg_dlRead (c : Channel) (d : Word) :
    (s.storeReg r v).dlRead c d = (s.dlRead c d).map (Prod.map (State.storeReg r v) id) := by
  rw [State.dlRead, State.dlRead, State.storeReg_lines, State.storeReg_memDepth]
  split
  · cases (s.lines.get c).readAt s.memDepth d <;> rfl
  · rfl

theorem State.storeReg_delayTime (c : Channel) (depthF rateF : Word) :
    (s.storeReg r v).delayTime c depthF rateF = Prod.map (State.storeReg r v) id (s.delayTime c depthF rateF) := by
  have hvalue : ((s.storeReg r v).delayTime c depthF rateF).2 = (s.delayTime c depthF rateF).2 := by
    simp [State.delayTime_channelDelay, channelDelay, State.folds]
  refine Prod.ext ?_ hvalue
  rw [Prod.map_fst, State.delayTime_state, State.delayTime_state, hvalue]
  rfl

theorem State.storeReg_channelStep (c : Channel) (x depthF rateF : Word) :
    (s.storeReg r v).channelStep c x depthF rateF =
      (s.channelStep c x depthF rateF).map (Prod.map (State.storeReg r v) id) := by
  simp only [State.channelStep, State.storeReg_delayTime, State.storeReg_dlRead, State.storeReg_sampleRateF,
    State.storeReg_lines, State.storeReg_snap, Prod.map_fst, Prod.map_snd, id]
  cases (s.delayTime c depthF rateF).1.dlRead c (delaySamples (s.delayTime c depthF rateF).2 s.sampleRateF) with
  | error f => rfl
  | ok out =>
    simp only [Except.map, Prod.map, State.storeReg_dlWrite]
    cases out.1.dlWrite c x <;> rfl

theorem State.storeReg_frameChannel (c : Channel) (x depthF rateF : Word) :
    (s.storeReg r v).frameChannel c x depthF rateF = (s.frameChannel c x depthF rateF).map (State.storeReg r v) := by
  rw [State.frameChannel, State.frameChannel, State.storeReg_channelStep]
  cases s.channelStep c x depthF rateF with
  | error f => rfl
  | ok out => exact congrArg Except.ok (out.1.storeReg_setOut r v c out.2)

theorem State.storeReg_frameShared :
    (s.storeReg r v).frameShared = Prod.map (State.storeReg r v) id s.frameShared := by
  have hwords : (s.storeReg r v).frameShared.2 = s.frameShared.2 := by simp [State.frameShared_words]
  refine Prod.ext ?_ hwords
  rw [Prod.map_fst, State.frameShared_state, State.frameShared_state, hwords]
  rfl

theorem State.storeReg_frame (regs : HostRegs) :
    (s.storeReg r v).frame regs = (s.frame regs).map (State.storeReg r v) := by
  simp only [State.frame, State.storeReg_frameShared, Prod.map_fst, Prod.map_snd, id, State.storeReg_frameChannel]
  cases s.frameShared.1.frameChannel .left (regs.input .left) s.frameShared.2.1 s.frameShared.2.2 with
  | error f => rfl
  | ok s1 =>
    simp only [Except.map, State.storeReg_frameChannel]
    cases s1.frameChannel .right (regs.input .right) s.frameShared.2.1 s.frameShared.2.2 <;> rfl

end

/-! ### The commands commute with a store -/

section
variable {s : State} (r : Reg) (v : Word) (h : s.pending ≠ none)

include h

theorem execPrepare_storeReg : execPrepare (s.storeReg r v) = mapNext (State.storeReg r v) (execPrepare s) := by
  rw [execPrepare, execPrepare, State.storeReg_operands r v h, State.storeReg_prepareAll, mapNext_ite]
  rfl

theorem execBlockStart_storeReg : execBlockStart (s.storeReg r v) = mapNext (State.storeReg r v) (execBlockStart s) := by
  by_cases hp : s.prepared = true
  · rw [execBlockStart_prepared hp, execBlockStart_prepared (s := s.storeReg r v) hp, State.storeReg_operands r v h]
    rfl
  · rw [execBlockStart, execBlockStart, if_neg hp]
    exact if_neg hp

theorem execFrame_storeReg : execFrame (s.storeReg r v) = mapNext (State.storeReg r v) (execFrame s) := by
  rw [execFrame, execFrame, State.storeReg_operands r v h, State.storeReg_frame, outcomeOf_map, mapNext_ite]
  rfl

theorem execDlConfigure_storeReg (c : Channel) :
    execDlConfigure c (s.storeReg r v) = mapNext (State.storeReg r v) (execDlConfigure c s) := by
  rw [execDlConfigure, execDlConfigure, State.storeReg_operands r v h, mapNext_ite]
  rfl

theorem execDlWrite_storeReg (c : Channel) :
    execDlWrite c (s.storeReg r v) = mapNext (State.storeReg r v) (execDlWrite c s) := by
  rw [execDlWrite, execDlWrite, State.storeReg_operands r v h, State.storeReg_dlWrite, outcomeOf_map, mapNext_ite]
  rfl

theorem execDlRead_storeReg (c : Channel) :
    execDlRead c (s.storeReg r v) = mapNext (State.storeReg r v) (execDlRead c s) := by
  rw [execDlRead, execDlRead, State.storeReg_operands r v h, State.storeReg_dlRead, mapNext_ite]
  cases s.dlRead c s.operands.arg0 with
  | error f => rfl
  | ok out => simp only [Except.map, Prod.map, State.storeReg_setResult]; rfl

/-- A command with a copy of its own commutes with a store: it neither sees the store nor undoes it (R92). -/
theorem exec_storeReg (i : Instr) : exec i (s.storeReg r v) = mapNext (State.storeReg r v) (exec i s) := by
  have hops := State.storeReg_operands r v h
  cases i with
  | nop => rfl
  | release => rfl
  | prepare => exact execPrepare_storeReg r v h
  | blockStart => exact execBlockStart_storeReg r v h
  | frame => exact execFrame_storeReg r v h
  | dlConfigure c => exact execDlConfigure_storeReg r v h c
  | dlWrite c => exact execDlWrite_storeReg r v h c
  | dlRead c => exact execDlRead_storeReg r v h c
  | spReset k => rw [exec, execSpReset, hops, State.storeReg_spReset]; rfl
  | spInit k => rw [exec, execSpInit, hops]; rfl
  | spSetTarget k => rw [exec, execSpSetTarget, hops]; rfl
  | spNext k =>
    rw [exec, execSpNext, State.storeReg_spNext]
    exact congrArg Host.Outcome.next (State.storeReg_setResult _ r v _)
  | opStep k =>
    rw [exec, execOpStep, State.storeReg_opStep]
    exact congrArg Host.Outcome.next (State.storeReg_setResult _ r v _)
  | lfoAdvance c =>
    rw [exec, execLfoAdvance, hops, State.storeReg_lfoAdvance]
    exact congrArg Host.Outcome.next (State.storeReg_setResult _ r v _)
  | sinEval => rw [exec, execSinEval, hops, State.storeReg_setResult]; rfl
  | mix => rw [exec, execMix, hops, State.storeReg_setResult]; rfl

theorem engineTurn_storeReg : engineTurn (s.storeReg r v) = mapNext (State.storeReg r v) (engineTurn s) := by
  obtain ⟨p, hp⟩ := Option.ne_none_iff_exists'.1 h
  rw [engineTurn_of_pending hp, engineTurn_of_pending (s := s.storeReg r v) hp]
  cases decode p.word with
  | error e => rfl
  | ok i =>
    rw [executePending, executePending, exec_storeReg r v h]
    cases exec i s <;> rfl

end

/-- Settles O54: the operands are the copy, and a read-write register's write is a store, which commutes with the engine's
turn. -/
theorem hostWritesDoNotAffectTheCommandInFlight : Obligations.HostWritesDoNotAffectTheCommandInFlight := by
  refine ⟨fun s p hp => State.operands_of_pending hp, fun s r v hr hpending => ?_⟩
  obtain ⟨hcmd, hstatus⟩ := ne_cmd_status_of_mem_readWriteRegs hr
  have hwrite : ∀ t : State, t.busWrite (busOffset r) v = t.storeReg r v := fun t => t.busWrite_store v hcmd hstatus
  simp only [hwrite, engineTurn_storeReg r v hpending]
  cases engineTurn s <;> rfl

end Sys2Proof.Machine
end

section
/-! PROOFS. The command words (30_encoding.md): a word is its three fields, the decoder and the encoder in terms of them, the
rows of the opcode table, and which words are illegal. -/

namespace Sys2Proof

/-! ### A word is its three fields (R120, R123) -/

theorem opcField_toNat (v : Word) : (opcField v).toNat = v.toNat % 256 := by simp [opcField]

theorem unitField_toNat (v : Word) : (unitField v).toNat = v.toNat / 256 % 4 := by
  simp [unitField, Nat.shiftRight_eq_div_pow]

theorem reservedField_toNat (v : Word) : (reservedField v).toNat = v.toNat / 1024 := by
  rw [reservedField, BitVec.extractLsb'_toNat, Nat.shiftRight_eq_div_pow]
  exact Nat.mod_eq_of_lt (Nat.div_lt_of_lt_mul v.isLt)

theorem reservedField_eq_zero_iff (v : Word) : reservedField v = 0 ↔ v.toNat < 1024 := by
  rw [← BitVec.toNat_inj, reservedField_toNat]
  exact Nat.div_eq_zero_iff_lt (by decide)

/-- Words with the same three fields are the same word: the fields leave no bit out. -/
theorem word_eq_iff_fields (v w : Word) :
    v = w ↔ reservedField v = reservedField w ∧ unitField v = unitField w ∧ opcField v = opcField w := by
  refine ⟨fun h => h ▸ ⟨rfl, rfl, rfl⟩, fun ⟨hres, hunit, hopc⟩ => BitVec.eq_of_toNat_eq ?_⟩
  rw [← BitVec.toNat_inj, reservedField_toNat, reservedField_toNat] at hres
  rw [← BitVec.toNat_inj, unitField_toNat, unitField_toNat] at hunit
  rw [← BitVec.toNat_inj, opcField_toNat, opcField_toNat] at hopc
  omega

/-! ### The units of the commands (R122) -/

theorem Channel.index_le (c : Channel) : c.index ≤ 1 := by cases c <;> decide

theorem Param.index_le (k : Param) : k.index ≤ 3 := by cases k <;> decide

theorem Channel.exists_index {u : Nat} (h : u ≤ 1) : ∃ c : Channel, c.index = u := by
  interval_cases u
  · exact ⟨.left, rfl⟩
  · exact ⟨.right, rfl⟩

theorem Param.exists_index {u : Nat} (h : u ≤ 3) : ∃ k : Param, k.index = u := by
  interval_cases u
  · exact ⟨.delayLeft, rfl⟩
  · exact ⟨.delayRight, rfl⟩
  · exact ⟨.depth, rfl⟩
  · exact ⟨.rate, rfl⟩

/-- Every command's unit fits its class. -/
theorem Instr.wellFormed_eq_true (i : Instr) : i.wellFormed = true := by
  cases i with
  | dlConfigure c | dlWrite c | dlRead c | lfoAdvance c => exact decide_eq_true c.index_le
  | spReset k | spInit k | spSetTarget k | spNext k | opStep k => exact decide_eq_true k.index_le
  | nop | prepare | release | blockStart | frame | sinEval | mix => rfl

theorem UnitClass.le_of_accepts {cls : UnitClass} {u : Nat} (h : cls.accepts u = true) : u ≤ 3 := by
  cases cls with
  | none => exact (beq_iff_eq.1 h).trans_le (by decide)
  | channel => exact (of_decide_eq_true h).trans (by decide)
  | param => exact of_decide_eq_true h

theorem Instr.unit_le (i : Instr) : i.unit ≤ 3 := UnitClass.le_of_accepts i.wellFormed_eq_true

theorem Instr.opc_lt (i : Instr) : i.opc < 256 := by cases i <;> exact of_decide_eq_true rfl

/-! ### The encoder (R131) -/

theorem encode_toNat (i : Instr) : (encode i).toNat = 256 * i.unit + i.opc := by
  have hunit := i.unit_le
  have hopc := i.opc_lt
  have hsum : i.unit <<< 8 + i.opc = i.unit <<< 8 ||| i.opc := Nat.shiftLeft_add_eq_or_of_lt hopc i.unit
  rw [Nat.shiftLeft_eq] at hsum
  rw [encode, BitVec.toNat_or, BitVec.toNat_shiftLeft, BitVec.toNat_ofNat, BitVec.toNat_ofNat, Nat.shiftLeft_eq,
    Nat.mod_eq_of_lt (by omega : i.unit < 2 ^ 32), Nat.mod_eq_of_lt (by omega : i.opc < 2 ^ 32),
    Nat.mod_eq_of_lt (by omega : i.unit * 2 ^ 8 < 2 ^ 32), ← hsum]
  omega

/-- A word is the encoding of a command exactly when its fields are the command's. -/
theorem eq_encode_iff (v : Word) (i : Instr) :
    v = encode i ↔ reservedField v = 0 ∧ (opcField v).toNat = i.opc ∧ (unitField v).toNat = i.unit := by
  have hunit := i.unit_le
  have hopc := i.opc_lt
  rw [← BitVec.toNat_inj, encode_toNat, reservedField_eq_zero_iff, opcField_toNat, unitField_toNat]
  omega

/-! ### The decoder (R130) -/

theorem decodeClassNone_eq_ok_iff {unit : BitVec 2} {i j : Instr} :
    decodeClassNone unit i = .ok j ↔ unit.toNat = 0 ∧ i = j := by
  unfold decodeClassNone
  split <;> simp [*]

theorem decodeClassChannel_eq_ok_iff {unit : BitVec 2} {f : Channel → Instr} {j : Instr} :
    decodeClassChannel unit f = .ok j ↔ ∃ c : Channel, unit.toNat = c.index ∧ f c = j := by
  constructor
  · intro h
    unfold decodeClassChannel at h
    split at h
    next hunit => exact ⟨.left, hunit, Except.ok.inj h⟩
    next hunit => exact ⟨.right, hunit, Except.ok.inj h⟩
    next => cases h
  · rintro ⟨c, hunit, rfl⟩
    rw [decodeClassChannel, hunit]
    cases c <;> rfl

theorem Param.ofUnit_eq_iff {unit : BitVec 2} {k : Param} : Param.ofUnit unit = k ↔ unit.toNat = k.index := by
  cases k <;> revert unit <;> decide

theorem decodeClassParam_eq_ok_iff {unit : BitVec 2} {f : Param → Instr} {j : Instr} :
    decodeClassParam unit f = .ok j ↔ ∃ k : Param, unit.toNat = k.index ∧ f k = j := by
  simp [decodeClassParam, ← Param.ofUnit_eq_iff]

/-- The table of R121 read both ways: a command is read from exactly its own `OPC` and `UNIT`. -/
theorem decodeFields_eq_ok_iff {opc : BitVec 8} {unit : BitVec 2} {i : Instr} :
    decodeFields opc unit = .ok i ↔ opc.toNat = i.opc ∧ unit.toNat = i.unit := by
  constructor
  · intro h
    unfold decodeFields at h
    split at h
    case h_1 hopc | h_2 hopc | h_3 hopc | h_4 hopc | h_5 hopc | h_15 hopc | h_16 hopc =>
      obtain ⟨hunit, rfl⟩ := decodeClassNone_eq_ok_iff.1 h
      exact ⟨hopc, hunit⟩
    case h_6 hopc | h_7 hopc | h_8 hopc | h_14 hopc =>
      obtain ⟨c, hunit, rfl⟩ := decodeClassChannel_eq_ok_iff.1 h
      exact ⟨hopc, hunit⟩
    case h_9 hopc | h_10 hopc | h_11 hopc | h_12 hopc | h_13 hopc =>
      obtain ⟨k, hunit, rfl⟩ := decodeClassParam_eq_ok_iff.1 h
      exact ⟨hopc, hunit⟩
    case h_17 => cases h
  · rintro ⟨hopc, hunit⟩
    rw [decodeFields, hopc]
    cases i with
    | nop | prepare | release | blockStart | frame | sinEval | mix => exact decodeClassNone_eq_ok_iff.2 ⟨hunit, rfl⟩
    | dlConfigure c | dlWrite c | dlRead c | lfoAdvance c => exact decodeClassChannel_eq_ok_iff.2 ⟨c, hunit, rfl⟩
    | spReset k | spInit k | spSetTarget k | spNext k | opStep k =>
      exact decodeClassParam_eq_ok_iff.2 ⟨k, hunit, rfl⟩

theorem decode_of_reservedField {v : Word} (h : reservedField v ≠ 0) : decode v = .error .reservedBits := if_neg h

theorem decode_of_fields {v : Word} (h : reservedField v = 0) : decode v = decodeFields (opcField v) (unitField v) :=
  if_pos h

theorem decode_eq_ok_iff {v : Word} {i : Instr} :
    decode v = .ok i ↔ reservedField v = 0 ∧ (opcField v).toNat = i.opc ∧ (unitField v).toNat = i.unit := by
  by_cases h : reservedField v = 0
  · rw [decode_of_fields h, decodeFields_eq_ok_iff, and_iff_right h]
  · rw [decode_of_reservedField h]
    exact ⟨nofun, fun ⟨hres, _⟩ => absurd hres h⟩

theorem decode_eq_ok_iff_eq_encode {v : Word} {i : Instr} : decode v = .ok i ↔ v = encode i :=
  decode_eq_ok_iff.trans (eq_encode_iff v i).symm

@[simp] theorem decode_encode (i : Instr) : decode (encode i) = .ok i := decode_eq_ok_iff_eq_encode.2 rfl

/-- Settles O1: the decoder and the encoder both say that the word's fields are the command's. -/
theorem decodeIffEncode : Obligations.DecodeIffEncode :=
  fun _ i => ⟨i.wellFormed_eq_true, decode_eq_ok_iff_eq_encode⟩

/-- Settles O4: eight of the words are the encodings of their commands; the decoder's four refusals are evaluated. -/
theorem handWrittenWordsDecode : Obligations.HandWrittenWordsDecode :=
  ⟨decode_encode .nop, decode_encode .frame, decode_encode (.dlConfigure .right), decode_encode (.dlRead .left),
    decode_encode (.spNext .rate), decode_encode (.opStep .depth), decode_encode (.lfoAdvance .right), decode_encode .mix,
    by decide, by decide, by decide, by decide⟩

/-! ### The rows of the opcode table (R130, R121) -/

/-- The mask of each class's rows (R130): every bit but those of the units the class accepts. -/
def UnitClass.mask : UnitClass → Word
  | .none => 0xFFFFFFFF#32
  | .channel => 0xFFFFFEFF#32
  | .param => 0xFFFFFCFF#32

/-- The row of the opcode table for a command (R131): its `OPC` with unit 0, and the mask of its class. -/
def Instr.row (i : Instr) : OpcodeRow where
  mnemonic := i.mnemonic
  pattern := BitVec.ofNat 32 i.opc
  mask := i.unitClass.mask

theorem Instr.row_mem_opcodeTable (i : Instr) : i.row ∈ opcodeTable := by
  cases i with
  | dlConfigure c | dlWrite c | dlRead c | lfoAdvance c => cases c <;> decide
  | spReset k | spInit k | spSetTarget k | spNext k | opStep k => cases k <;> decide
  | nop | prepare | release | blockStart | frame | sinEval | mix => decide

/-- No mnemonic stands in two rows. -/
theorem row_eq_of_mnemonic_eq {r r' : OpcodeRow} (hr : r ∈ opcodeTable) (hr' : r' ∈ opcodeTable)
    (h : r.mnemonic = r'.mnemonic) : r = r' :=
  List.inj_on_of_nodup_map (by decide : (opcodeTable.map OpcodeRow.mnemonic).Nodup) hr hr' h

/-- The table's rows are those of the commands with unit 0, in the order of R121. -/
theorem opcodeTable_eq_map_row : opcodeTable =
    [Instr.nop, .prepare, .release, .blockStart, .frame, .dlConfigure .left, .dlWrite .left, .dlRead .left,
      .spReset .delayLeft, .spInit .delayLeft, .spSetTarget .delayLeft, .spNext .delayLeft, .opStep .delayLeft,
      .lfoAdvance .left, .sinEval, .mix].map Instr.row := by decide

theorem exists_row_eq {r : OpcodeRow} (hr : r ∈ opcodeTable) : ∃ i : Instr, i.row = r := by
  obtain ⟨i, _, hi⟩ := List.mem_map.1 (opcodeTable_eq_map_row ▸ hr)
  exact ⟨i, hi⟩

theorem UnitClass.reservedField_and_mask (cls : UnitClass) (v : Word) :
    reservedField (v &&& cls.mask) = reservedField v := by
  have hmask : reservedField cls.mask = BitVec.allOnes 22 := by cases cls <;> decide
  rw [reservedField, BitVec.extractLsb'_and, ← reservedField, ← reservedField, hmask, BitVec.and_allOnes]

theorem UnitClass.opcField_and_mask (cls : UnitClass) (v : Word) : opcField (v &&& cls.mask) = opcField v := by
  have hmask : opcField cls.mask = BitVec.allOnes 8 := by cases cls <;> decide
  rw [opcField, BitVec.extractLsb'_and, ← opcField, ← opcField, hmask, BitVec.and_allOnes]

/-- The units a mask lets pass are those its class accepts (R122). -/
theorem UnitClass.unitField_and_mask_eq_zero_iff (cls : UnitClass) (v : Word) :
    unitField (v &&& cls.mask) = 0 ↔ cls.accepts (unitField v).toNat = true := by
  have hunit : ∀ u : BitVec 2, u &&& unitField cls.mask = 0 ↔ cls.accepts u.toNat = true := by cases cls <;> decide
  rw [unitField, BitVec.extractLsb'_and, ← unitField, ← unitField, hunit]

theorem Instr.row_pattern_fields (i : Instr) : reservedField i.row.pattern = 0 ∧ unitField i.row.pattern = 0 ∧
    (opcField i.row.pattern).toNat = i.opc := by
  have hopc := i.opc_lt
  have hpattern : i.row.pattern.toNat = i.opc := Nat.mod_eq_of_lt (hopc.trans (by decide))
  refine ⟨(reservedField_eq_zero_iff _).2 (by omega), BitVec.eq_of_toNat_eq ?_, ?_⟩
  · rw [unitField_toNat, hpattern, Nat.div_eq_of_lt hopc]
    rfl
  · rw [opcField_toNat, hpattern, Nat.mod_eq_of_lt hopc]

/-- A word selects a command's row when its `OPC` is the command's and its unit one that the command's class accepts. -/
theorem Instr.row_selectedBy_iff (i : Instr) (v : Word) :
    i.row.selectedBy v = true ↔
      reservedField v = 0 ∧ i.unitClass.accepts (unitField v).toNat = true ∧ (opcField v).toNat = i.opc := by
  obtain ⟨hres, hunit, hopc⟩ := i.row_pattern_fields
  rw [OpcodeRow.selectedBy, beq_iff_eq, word_eq_iff_fields, hres, hunit, ← hopc, BitVec.toNat_inj]
  rw [Instr.row, UnitClass.reservedField_and_mask, UnitClass.opcField_and_mask, UnitClass.unitField_and_mask_eq_zero_iff]

theorem Instr.opc_eq_of_row_eq {i j : Instr} (h : i.row = j.row) : i.opc = j.opc := by
  obtain ⟨_, _, hi⟩ := i.row_pattern_fields
  obtain ⟨_, _, hj⟩ := j.row_pattern_fields
  rw [← hi, ← hj, h]

theorem exists_unit_of_channel {f : Channel → Instr} (c : Channel) {u : Nat} (h : u ≤ 1)
    (hf : ∀ c', (f c').row = (f c).row ∧ (f c').unit = c'.index) : ∃ j : Instr, j.row = (f c).row ∧ j.unit = u := by
  obtain ⟨c', rfl⟩ := Channel.exists_index h
  exact ⟨f c', hf c'⟩

theorem exists_unit_of_param {f : Param → Instr} (k : Param) {u : Nat} (h : u ≤ 3)
    (hf : ∀ k', (f k').row = (f k).row ∧ (f k').unit = k'.index) : ∃ j : Instr, j.row = (f k).row ∧ j.unit = u := by
  obtain ⟨k', rfl⟩ := Param.exists_index h
  exact ⟨f k', hf k'⟩

/-- Each unit that a command's class accepts makes a command of the same row. -/
theorem Instr.exists_unit (i : Instr) {u : Nat} (h : i.unitClass.accepts u = true) :
    ∃ j : Instr, j.row = i.row ∧ j.unit = u := by
  cases i with
  | nop | prepare | release | blockStart | frame | sinEval | mix => exact ⟨_, rfl, (beq_iff_eq.1 h).symm⟩
  | dlConfigure c | dlWrite c | dlRead c | lfoAdvance c =>
    exact exists_unit_of_channel c (of_decide_eq_true h) fun _ => ⟨rfl, rfl⟩
  | spReset k | spInit k | spSetTarget k | spNext k | opStep k =>
    exact exists_unit_of_param k (of_decide_eq_true h) fun _ => ⟨rfl, rfl⟩

/-- A word selects a command's row exactly when the decoder reads a command of that row from it. -/
theorem Instr.row_selectedBy_iff_decode (i : Instr) (v : Word) :
    i.row.selectedBy v = true ↔ ∃ j, decode v = .ok j ∧ j.row = i.row := by
  constructor
  · intro h
    obtain ⟨hres, hunit, hopc⟩ := (i.row_selectedBy_iff v).1 h
    obtain ⟨j, hrow, hj⟩ := i.exists_unit hunit
    exact ⟨j, decode_eq_ok_iff.2 ⟨hres, hopc.trans (Instr.opc_eq_of_row_eq hrow).symm, hj.symm⟩, hrow⟩
  · rintro ⟨j, hdecode, hrow⟩
    obtain ⟨hres, hopc, hunit⟩ := decode_eq_ok_iff.1 hdecode
    rw [← hrow, Instr.row_selectedBy_iff, hunit]
    exact ⟨hres, j.wellFormed_eq_true, hopc⟩

theorem selectedBy_iff_decode {r : OpcodeRow} (hr : r ∈ opcodeTable) (v : Word) :
    r.selectedBy v = true ↔ ∃ i, decode v = .ok i ∧ i.mnemonic = r.mnemonic := by
  obtain ⟨i, rfl⟩ := exists_row_eq hr
  rw [Instr.row_selectedBy_iff_decode]
  exact exists_congr fun j => and_congr_right fun _ =>
    ⟨congrArg OpcodeRow.mnemonic, row_eq_of_mnemonic_eq j.row_mem_opcodeTable hr⟩

/-- Settles O2: a selected row is the row of the command that the decoder reads, and the decoder reads one command. -/
theorem opcodeTableSelectsTheDecodedCommand : Obligations.OpcodeTableSelectsTheDecodedCommand := by
  refine ⟨fun w r hr => selectedBy_iff_decode hr w, fun w r r' hr hr' hsel hsel' => ?_⟩
  obtain ⟨i, hdecode, hi⟩ := (selectedBy_iff_decode hr w).1 hsel
  obtain ⟨j, hdecode', hj⟩ := (selectedBy_iff_decode hr' w).1 hsel'
  obtain rfl : i = j := Except.ok.inj (hdecode.symm.trans hdecode')
  exact row_eq_of_mnemonic_eq hr hr' (hi.symm.trans hj)

/-! ### The illegal words (R123, R126) -/

/-- Settles O3: the bit lies in the reserved field, which is then not 0. -/
theorem reservedBitsMakeAnIllegalWord : Obligations.ReservedBitsMakeAnIllegalWord := by
  rintro w ⟨j, hlo, hhi, hbit⟩
  have hres : reservedField w ≠ 0 := by
    intro hzero
    have hlt : w.toNat < 2 ^ j :=
      ((reservedField_eq_zero_iff w).1 hzero).trans_le (Nat.pow_le_pow_right (by decide) hlo : 2 ^ 10 ≤ 2 ^ j)
    have hclear : w.getLsbD j = false := Nat.testBit_lt_two_pow hlt
    rw [hclear] at hbit
    cases hbit
  exact ⟨_, decode_of_reservedField hres⟩

theorem decodeClassNone_error_iff {unit : BitVec 2} {i : Instr} :
    (∃ e, decodeClassNone unit i = .error e) ↔ unit.toNat ≠ 0 := by
  unfold decodeClassNone
  split <;> simp [*]

theorem decodeClassChannel_error_iff {unit : BitVec 2} {f : Channel → Instr} :
    (∃ e, decodeClassChannel unit f = .error e) ↔ 2 ≤ unit.toNat := by
  unfold decodeClassChannel
  split
  next hzero => exact iff_of_false nofun (by omega)
  next hone => exact iff_of_false nofun (by omega)
  next hzero hone => exact iff_of_true ⟨_, rfl⟩ (Nat.lt_of_le_of_ne (Nat.pos_of_ne_zero hzero) (Ne.symm hone))

theorem decodeClassParam_legal {unit : BitVec 2} {f : Param → Instr} :
    ¬ ∃ e, decodeClassParam unit f = .error e := nofun

/-- The illegal pairs of `OPC` and `UNIT` (R126), row by row of the table of R121. -/
theorem decodeFields_error_iff {opc : BitVec 8} {unit : BitVec 2} :
    (∃ e, decodeFields opc unit = .error e) ↔
      (0x05 ≤ opc.toNat ∧ opc.toNat ≤ 0x0F) ∨ (0x13 ≤ opc.toNat ∧ opc.toNat ≤ 0x1F) ∨
      (0x24 ≤ opc.toNat ∧ opc.toNat ≤ 0x27) ∨ (0x29 ≤ opc.toNat ∧ opc.toNat ≤ 0x2F) ∨
      (0x32 ≤ opc.toNat ∧ opc.toNat ≤ 0x37) ∨ 0x39 ≤ opc.toNat ∨
      ((opc.toNat ≤ 0x04 ∨ opc.toNat = 0x31 ∨ opc.toNat = 0x38) ∧ unit.toNat ≠ 0) ∨
      ((opc.toNat = 0x10 ∨ opc.toNat = 0x11 ∨ opc.toNat = 0x12 ∨ opc.toNat = 0x30) ∧ 2 ≤ unit.toNat) := by
  unfold decodeFields
  split
  case h_1 | h_2 | h_3 | h_4 | h_5 | h_15 | h_16 => rw [decodeClassNone_error_iff]; omega
  case h_6 | h_7 | h_8 | h_14 => rw [decodeClassChannel_error_iff]; omega
  case h_9 | h_10 | h_11 | h_12 | h_13 => exact iff_of_false decodeClassParam_legal (by omega)
  case h_17 =>
    simp only [imp_false] at *
    exact iff_of_true ⟨_, rfl⟩ (by omega)

theorem decode_error_iff (v : Word) :
    (∃ e, decode v = .error e) ↔ 1024 ≤ v.toNat ∨ ∃ e, decodeFields (opcField v) (unitField v) = .error e := by
  by_cases h : reservedField v = 0
  · rw [decode_of_fields h, or_iff_right (Nat.not_le.2 ((reservedField_eq_zero_iff v).1 h))]
  · rw [decode_of_reservedField h]
    exact iff_of_true ⟨_, rfl⟩ (.inl (Nat.not_lt.1 (mt (reservedField_eq_zero_iff v).2 h)))

end Sys2Proof

namespace Sys2Proof.Machine

/-- The engine's turn with an illegal word in flight raises `ILLEGAL_CMD` and completes (R126, R321). -/
theorem engineTurn_of_illegal {s : State} {p : Pending} {e : Illegal} (hp : s.pending = some p)
    (he : decode p.word = .error e) : engineTurn s = .next (s.raise .illegalCmd).complete := by
  rw [engineTurn_of_pending hp, he, executePending]

/-- Settles O5: the pairs of `OPC` and `UNIT` that the table refuses, and the engine's turn on an illegal word. -/
theorem illegalCommandOnlyRaisesIllegalCmd : Obligations.IllegalCommandOnlyRaisesIllegalCmd := by
  refine ⟨fun w => ?_, fun s p e hp he => engineTurn_of_illegal hp he⟩
  rw [decode_error_iff, decodeFields_error_iff, opcField_toNat, unitField_toNat]

end Sys2Proof.Machine
end

section
/-! PROOFS. The result registers (10_state.md R36, R37; 30_encoding.md R124, R125): which command writes which of them. -/

namespace Sys2Proof.Machine

section
variable {s t : State}

@[simp] theorem State.spReset_regs (s : State) (k : Param) (x : Word) (sr : Int) : (s.spReset k x sr).regs = s.regs := by
  rw [State.spReset_state]

@[simp] theorem State.prepareParam_regs (s : State) (r : HostRegs) (k : Param) : (s.prepareParam r k).regs = s.regs := by
  rw [State.prepareParam_state]

@[simp] theorem State.opStep_regs (s : State) (k : Param) : (s.opStep k).1.regs = s.regs := by rw [State.opStep_state]

theorem State.dlRead_regs {c : Channel} {d y : Word} (h : s.dlRead c d = .ok (t, y)) : t.regs = s.regs := by
  rcases State.dlRead_ok h with ⟨_, rfl, _⟩ | ⟨_, rfl, _⟩ <;> rfl

theorem State.prepareAll_regs (s : State) (r : HostRegs) : (s.prepareAll r).regs = s.regs := by
  simp [State.prepareAll, State.prepareConfig]

theorem execPrepare_regs (h : execPrepare s = .next t) : t.regs = s.regs := by
  unfold execPrepare at h
  split at h <;> cases h
  · exact s.prepareAll_regs _
  · rfl

theorem execBlockStart_regs (h : execBlockStart s = .next t) : t.regs = s.regs := by
  unfold execBlockStart at h
  split at h <;> cases h <;> rfl

theorem execDlConfigure_regs {c : Channel} (h : execDlConfigure c s = .next t) : t.regs = s.regs := by
  unfold execDlConfigure at h
  dsimp only at h
  split at h <;> cases h <;> rfl

theorem execDlWrite_regs {c : Channel} (h : execDlWrite c s = .next t) : t.regs = s.regs := by
  rcases execDlWrite_ok h with ⟨_, rfl⟩ | ⟨_, _, _, rfl⟩ <;> rfl

/-- The commands that list no result register leave every host register as it was. -/
theorem exec_regs {i : Instr} (hw : writesResult i = false) (hf : i ≠ .frame) (h : exec i s = .next t) :
    t.regs = s.regs := by
  cases i with
  | nop | release | spInit | spSetTarget => cases h; rfl
  | spReset k => cases h; exact s.spReset_regs k _ _
  | prepare => exact execPrepare_regs h
  | blockStart => exact execBlockStart_regs h
  | dlConfigure c => exact execDlConfigure_regs h
  | dlWrite c => exact execDlWrite_regs h
  | frame => exact absurd rfl hf
  | dlRead | spNext | opStep | lfoAdvance | sinEval | mix => cases hw

theorem execDlRead_regs {c : Channel} (h : execDlRead c s = .next t) : ∃ v, t.regs = { s.regs with result := v } := by
  rcases execDlRead_ok h with ⟨_, rfl⟩ | ⟨_, s', y, hread, rfl⟩
  · exact ⟨s.regs.result, rfl⟩
  · exact ⟨y, by rw [State.setResult_regs, State.dlRead_regs hread]⟩

/-- The commands of R36 write `RESULT` and no other host register. -/
theorem exec_regs_of_writesResult {i : Instr} (hw : writesResult i = true) (h : exec i s = .next t) :
    ∃ v, t.regs = { s.regs with result := v } := by
  cases i with
  | dlRead c => exact execDlRead_regs h
  | opStep k => cases h; exact ⟨_, by rw [State.setResult_regs, State.opStep_regs]⟩
  | spNext | lfoAdvance | sinEval | mix => cases h; exact ⟨_, rfl⟩
  | nop | prepare | release | blockStart | frame | dlConfigure | dlWrite | spReset | spInit | spSetTarget => cases hw

theorem execFrame_result (h : execFrame s = .next t) : t.regs.result = s.regs.result := by
  by_cases hp : s.prepared = true
  · obtain ⟨_, _, _, _, _, _, _, _, _, _, rfl⟩ := State.frame_state (exec_frame_ok hp h)
    rfl
  · rw [execFrame, if_neg hp] at h
    cases h
    rfl

end

/-- Settles O55: `FRAME` keeps `RESULT`, the commands of R36 keep `OUT_L` and `OUT_R`, and the others keep all three. -/
theorem resultRegistersKeepTheirValues : Obligations.ResultRegistersKeepTheirValues := by
  intro i s t h
  constructor
  · intro hw
    by_cases hf : i = .frame
    · subst hf
      exact execFrame_result h
    · rw [exec_regs hw hf h]
  · intro hf
    cases hw : writesResult i with
    | false => rw [exec_regs hw hf h]; exact ⟨rfl, rfl⟩
    | true =>
      obtain ⟨v, hregs⟩ := exec_regs_of_writesResult hw h
      rw [hregs]
      exact ⟨rfl, rfl⟩

end Sys2Proof.Machine
end

section
/-! PROOFS. The words of the delay RAM (20_memory.md R84, R86; 41_delay_buffer.md R151): a read after a write of a word, and
the zero-fill as the loop of word writes. -/

namespace Sys2Proof.Machine

theorem Memory.readWord_writeWord_same {m : Memory} (i : Nat) (v : Word) (h : m.wf = true) :
    (m.writeWord i v).readWord i = v := by
  apply Memory.readWord_of_bytes <;> simp [Memory.readByte_writeWord _ _ _ h]

theorem Memory.readWord_writeWord_of_ne {m : Memory} {i j : Nat} (v : Word) (h : m.wf = true) (hij : j ≠ i) :
    (m.writeWord i v).readWord j = m.readWord j :=
  Memory.readWord_congr fun _ _ _ => Memory.readByte_writeWord_outside v h (by omega)

/-- Every lane of the zero word reads as a byte that is not listed. -/
theorem lane_zero (j : Nat) : lane 0#32 j = unlistedByte := BitVec.extractLsb'_zero

theorem Memory.readWord_zeroFill {m : Memory} {i n : Nat} (h : m.wf = true) (hi : i < n) :
    (m.zeroFill n).readWord i = 0#32 := by
  have hbyte (x : Nat) (hx : x < 4 * n) (j : Nat) : (m.zeroFill n).readByte x = lane 0#32 j := by
    rw [Memory.readByte_zeroFill _ _ h, if_pos hx, lane_zero]
  exact Memory.readWord_of_bytes (hbyte _ (by omega) 0) (hbyte _ (by omega) 1) (hbyte _ (by omega) 2)
    (hbyte _ (by omega) 3)

/-- A write of the zero word takes its four bytes off the list. -/
theorem Memory.readByte_writeWord_zero {m : Memory} (i x : Nat) (h : m.wf = true) :
    (m.writeWord i 0#32).readByte x = if 4 * i ≤ x ∧ x < 4 * i + 4 then unlistedByte else m.readByte x := by
  split
  next hin =>
    simp only [Memory.readByte_writeWord _ _ _ h, lane_zero]
    grind
  next hout => exact Memory.readByte_writeWord_outside _ h hout

theorem Memory.zeroFill_zero (m : Memory) : m.zeroFill 0 = m := by simp [Memory.zeroFill]

/-- Filling one word more is writing 0 to that word (R151). -/
theorem Memory.zeroFill_succ {m : Memory} (n : Nat) (h : m.wf = true) :
    m.zeroFill (n + 1) = (m.zeroFill n).writeWord n 0#32 := by
  have hfill := Memory.wf_zeroFill n h
  refine Memory.wf_ext (Memory.wf_zeroFill _ h) (Memory.wf_writeWord _ _ hfill) fun x => ?_
  rw [Memory.readByte_zeroFill _ _ h, Memory.readByte_writeWord_zero _ _ hfill, Memory.readByte_zeroFill _ _ h]
  rcases (by omega : x < 4 * n ∨ (4 * n ≤ x ∧ x < 4 * n + 4) ∨ 4 * (n + 1) ≤ x) with hlow | hword | hhigh
  · rw [if_pos (by omega), if_neg (by omega), if_pos hlow]
  · rw [if_pos (by omega), if_pos hword]
  · rw [if_neg (by omega), if_neg (by omega), if_neg (by omega)]

/-- Settles O37, by induction on the capacity: each turn of the loop fills one word more. -/
theorem zeroFillIsTheLoopOfWrites : Obligations.ZeroFillIsTheLoopOfWrites := by
  intro m cap hm
  induction cap with
  | zero => exact m.zeroFill_zero.symm
  | succ n ih => rw [List.range_succ, List.foldl_concat, ih, Memory.zeroFill_succ n hm]

end Sys2Proof.Machine
end

section
/-! PROOFS. What a delay line holds (41_delay_buffer.md R151 to R155, R161): its slots by how many writes ago they were
written, kept by every write, and what a read at an integer delay finds in them. -/

namespace Sys2Proof.Machine

/-! ### The slots by their delay (R154) -/

/-- The slot `cap` places back is the one at the cursor. -/
theorem DelayLine.slotAt_cap (l : DelayLine) : l.slotAt l.cap.toNat = l.slotAt 0 := by
  simp [DelayLine.slotAt, Int.sub_emod_right]

theorem DelayLine.slotAt_zero {l : DelayLine} (h : l.cursor.toNat < l.cap.toNat) : l.slotAt 0 = l.cursor.toNat := by
  simp [DelayLine.slotAt, ← Int.natCast_emod, Nat.mod_eq_of_lt h]

/-- Fewer than `cap` places back, and at least one, is another slot than the one at the cursor. -/
theorem DelayLine.slotAt_ne_cursor {l : DelayLine} {k : Nat} (hpos : 0 < k) (hlt : k < l.cap.toNat) :
    l.slotAt k ≠ l.cursor.toNat := by
  intro he
  have hmod : ((l.cursor.toNat : Int) - k) % l.cap.toNat = l.cursor.toNat := by
    rw [← Int.toNat_of_nonneg (Int.emod_nonneg _ (by omega))]
    exact congrArg Nat.cast he
  have hdvd : (l.cap.toNat : Int) ∣ k := by
    have := Int.dvd_self_sub_of_emod_eq hmod
    rwa [sub_sub_cancel_left, Int.dvd_neg] at this
  exact absurd (Nat.le_of_dvd hpos (Int.natCast_dvd_natCast.1 hdvd)) (Nat.not_le.2 hlt)

/-- Once the cursor has advanced by one, each slot is one place further back (R152). -/
theorem DelayLine.slotAt_advance {l l' : DelayLine} (k : Nat) (hcap : l'.cap = l.cap)
    (hcursor : l'.cursor.toNat = (l.cursor.toNat + 1) % l.cap.toNat) : l'.slotAt (k + 1) = l.slotAt k := by
  simp only [DelayLine.slotAt, uint, hcap, hcursor]
  push_cast
  rw [Int.emod_sub_emod]
  congr 2
  ring

theorem toWord_mod_toNat (n : Nat) {cap : Word} (h : cap ≠ 0#32) : (toWord (n % cap.toNat)).toNat = n % cap.toNat := by
  have hpos : 0 < cap.toNat := Nat.pos_of_ne_zero fun h0 => h (BitVec.eq_of_toNat_eq h0)
  exact Nat.mod_eq_of_lt ((Nat.mod_lt n hpos).trans cap.isLt)

/-- The cursor advances by one modulo the capacity (R152). -/
theorem DelayLine.write_cursor {depth : Nat} {l l' : DelayLine} {v : Word} (h : l.write depth v = .ok l') :
    l'.cursor.toNat = (l.cursor.toNat + 1) % l.cap.toNat := by
  obtain ⟨hcap, _, rfl⟩ := DelayLine.write_ok h
  exact toWord_mod_toNat _ hcap

/-! ### The samples a line holds (R161) -/

/-- The sample written `k` writes ago, the writes listed oldest first, and +0 where there was none (R161). -/
def writtenAgo (ws : List Word) (k : Nat) : Word :=
  if k ≤ ws.length then ws.getD (ws.length - k) 0#32 else 0#32

theorem writtenAgo_nil (k : Nat) : writtenAgo [] k = 0#32 := by simp [writtenAgo]

theorem writtenAgo_one (ws : List Word) (v : Word) : writtenAgo (ws ++ [v]) 1 = v := by simp [writtenAgo]

theorem writtenAgo_succ (ws : List Word) (v : Word) {k : Nat} (h : 0 < k) :
    writtenAgo (ws ++ [v]) (k + 1) = writtenAgo ws k := by
  simp only [writtenAgo, List.length_append, List.length_singleton, Nat.add_le_add_iff_right, Nat.add_sub_add_right]
  split
  next hk => rw [List.getD_append _ _ _ _ (by omega)]
  next => rfl

/-- A configured line of capacity `cap` that has received the writes `ws`: the slot `k` places behind the cursor holds the
sample written `k` writes ago (R161). -/
structure DelayLine.HoldsWrites (cap : Nat) (ws : List Word) (l : DelayLine) : Prop where
  cap_eq : l.cap.toNat = cap
  cursor_lt : l.cursor.toNat < cap
  ram_wf : l.ram.wf = true
  slot : ∀ k, 0 < k → k ≤ cap → l.ram.readWord (l.slotAt k) = writtenAgo ws k

/-- A line just configured holds +0 everywhere (R151). -/
theorem DelayLine.HoldsWrites.configure {cap : Nat} {l : DelayLine} (hwf : l.ram.wf = true) (hpos : 0 < cap)
    (hlt : cap < 2 ^ 32) : (l.configure cap).HoldsWrites cap [] where
  cap_eq := l.configure_cap hlt
  cursor_lt := hpos
  ram_wf := Memory.wf_zeroFill cap hwf
  slot k _ _ := by
    have hslot := DelayLine.slotAt_lt k (l.configure_cap_ne hpos hlt)
    rw [l.configure_cap hlt] at hslot
    rw [writtenAgo_nil]
    exact Memory.readWord_zeroFill hwf hslot

/-- A write adds its sample: the slot at the cursor is the one 1 place back now, every other slot is one place further back
(R152). -/
theorem DelayLine.HoldsWrites.write {depth cap : Nat} {ws : List Word} {l l' : DelayLine} {v : Word}
    (h : l.HoldsWrites cap ws) (hw : l.write depth v = .ok l') : l'.HoldsWrites cap (ws ++ [v]) := by
  have hadvance (k : Nat) : l'.slotAt (k + 1) = l.slotAt k :=
    DelayLine.slotAt_advance k (DelayLine.write_cap hw) (DelayLine.write_cursor hw)
  have hcursor := h.cursor_lt
  rw [← h.cap_eq] at hcursor
  have hram : l'.ram = l.ram.writeWord l.cursor.toNat v := by obtain ⟨_, _, rfl⟩ := DelayLine.write_ok hw; rfl
  refine ⟨by rw [DelayLine.write_cap hw, h.cap_eq], ?_, hram ▸ Memory.wf_writeWord _ _ h.ram_wf, fun k hk hle => ?_⟩
  · rw [DelayLine.write_cursor hw, h.cap_eq]
    exact Nat.mod_lt _ (Nat.zero_lt_of_lt h.cursor_lt)
  · obtain ⟨k, rfl⟩ := Nat.exists_eq_succ_of_ne_zero hk.ne'
    rw [hadvance, hram]
    rcases Nat.eq_zero_or_pos k with rfl | hpos
    · rw [DelayLine.slotAt_zero hcursor, Memory.readWord_writeWord_same _ _ h.ram_wf, writtenAgo_one]
    · have hne := DelayLine.slotAt_ne_cursor hpos (by rw [h.cap_eq]; omega)
      rw [Memory.readWord_writeWord_of_ne _ h.ram_wf hne, writtenAgo_succ _ _ hpos, h.slot k hpos (by omega)]

theorem DelayLine.HoldsWrites.writeAll {depth cap : Nat} {past ws : List Word} {l l' : DelayLine}
    (h : l.HoldsWrites cap past) (hw : l.writeAll depth ws = .ok l') : l'.HoldsWrites cap (past ++ ws) := by
  induction ws generalizing l past with
  | nil =>
    cases hw
    rwa [List.append_nil]
  | cons v vs ih =>
    unfold DelayLine.writeAll at hw
    split at hw
    · cases hw
    next hv =>
      have := ih (h.write hv) hw
      rwa [List.append_assoc] at this

/-! ### Reads at an integer delay -/

theorem floorToInt_of_scaled {d : Word} {n : Nat} (h : scaled d = (n : Int) * unitsPerOne) : floorToInt d = n := by
  have hmag : magnitude d = n * unitsPerOne := by
    rw [← scaled_natAbs, h, ← Nat.cast_mul, Int.natAbs_natCast]
  rw [floorToInt, hmag, Nat.mul_div_cancel _ (show 0 < unitsPerOne by decide)]

/-- At an integer delay the interpolator gives the slot itself, bit for bit (R154, R155). -/
theorem DelayLine.readAt_of_integer {depth n : Nat} {l : DelayLine} {d : Word} (hcap : l.cap ≠ 0#32)
    (hle : l.cap.toNat ≤ depth) (hd : isFinite d = true) (hn : scaled d = (n : Int) * unitsPerOne) :
    l.readAt depth d = .ok (l.ram.readWord (l.slotAt n)) := by
  have hfrac : feq (delayFraction d) fZero = true := by
    rw [delayFraction, floorToInt_of_scaled hn]
    exact delay_fraction_zero hd hn
  rw [DelayLine.readAt_of_cap d hcap hle, interp, if_pos hfrac, floorToInt_of_scaled hn]

/-- A line's slot at an integer delay below the capacity: delay 0 is the slot `cap` places back. -/
theorem DelayLine.HoldsWrites.readWord_slotAt {cap n : Nat} {ws : List Word} {l : DelayLine} (h : l.HoldsWrites cap ws)
    (hn : n < cap) : l.ram.readWord (l.slotAt n) = writtenAgo ws (if n = 0 then cap else n) := by
  split
  next h0 =>
    subst h0
    rw [← DelayLine.slotAt_cap, h.cap_eq, h.slot cap hn le_rfl]
  next h0 => exact h.slot n (Nat.pos_of_ne_zero h0) hn.le

/-- Settles O36: the line holds its writes, so an integer delay finds the one it names. -/
theorem integerDelayReadsThePastWrite : Obligations.IntegerDelayReadsThePastWrite := by
  intro depth cap n l0 l ws d hwf hpos hlt hle hw hd hn hrange
  have hholds : l.HoldsWrites cap ws := (DelayLine.HoldsWrites.configure hwf hpos hlt).writeAll hw
  have hcap : l.cap ≠ 0#32 := by
    intro h0
    have := hholds.cap_eq
    rw [h0, BitVec.toNat_zero] at this
    omega
  rw [DelayLine.readAt_of_integer hcap (by rwa [hholds.cap_eq]) hd hn, hholds.readWord_slotAt (by omega), writtenAgo]

end Sys2Proof.Machine
end

section
/-! PROOFS. The range of a delay (41_delay_buffer.md R153) and the three commands of the delay line (R158 to R160). -/

namespace Sys2Proof.Machine

/-! ### The range of a delay (R153) -/

theorem inRange_iff {d : Word} {cap : Nat} : inRange d cap = true ↔
    isFinite d = true ∧ 0 ≤ scaled d ∧ scaled d ≤ ((cap : Int) - 1) * unitsPerOne := by
  simp [inRange, and_assoc]

theorem floatValue_nonneg_iff (v : Word) : 0 ≤ floatValue v ↔ 0 ≤ scaled v := by
  rw [floatValue_eq, le_div_iff₀ (by positivity), zero_mul, Int.cast_nonneg_iff]

theorem floatValue_le_intCast_iff (v : Word) (n : Int) : floatValue v ≤ n ↔ scaled v ≤ n * unitsPerOne := by
  rw [floatValue_eq, div_le_iff₀ (by positivity), ← unitsPerOne_cast]
  exact_mod_cast Iff.rfl

/-- Settles O38: both bounds are whole numbers of units of 2^-149, so the comparison of units is that of values. -/
theorem inRangeComparesExactly : Obligations.InRangeComparesExactly := by
  intro d cap _
  constructor
  · intro hd
    have hbound := floatValue_le_intCast_iff d ((cap : Int) - 1)
    push_cast at hbound
    rw [inRange_iff, floatValue_nonneg_iff, hbound]
    exact and_iff_right hd
  · intro hd
    simp [inRange, hd]

/-! ### `DL_CONFIGURE` (R158) -/

theorem execDlConfigure_of_ok {s : State} {c : Channel} (h : capacityOk s.memDepth (sint s.operands.arg0) = true) :
    execDlConfigure c s = .next (s.setLine c ((s.lines.get c).configure (sint s.operands.arg0).toNat)) := if_pos h

theorem execDlConfigure_of_not_ok {s : State} {c : Channel} (h : ¬ capacityOk s.memDepth (sint s.operands.arg0) = true) :
    execDlConfigure c s = .next (s.raise .invalidCapacity) := if_neg h

/-- A word that is positive as an int32 is that number (R8). -/
theorem toWord_sint {v : Word} (h : 0 < sint v) : toWord (sint v).toNat = v := by
  rw [toWord, ← BitVec.ofInt_natCast, Int.toNat_of_nonneg h.le, BitVec.ofInt_toInt]

/-- Settles O27: the accepted capacities are those of `capacityOk`, and the zero-fill says what each byte reads. -/
theorem dlConfigureSizesAndZeroFills : Obligations.DlConfigureSizesAndZeroFills := by
  intro s c cap
  refine ⟨fun hwf hpos hle => ?_, fun hbad => ?_⟩
  · have hok := capacityOk_iff.2 ⟨hpos, hle⟩
    refine ⟨_, execDlConfigure_of_ok hok, toWord_sint hpos, rfl, fun i hi => ?_, fun a ha => ?_⟩
    · exact Memory.readWord_zeroFill hwf (Int.lt_toNat.2 hi)
    · exact (Memory.readByte_zeroFill _ _ hwf).trans (if_neg (by simp only [sint]; omega))
  · refine execDlConfigure_of_not_ok fun hok => ?_
    obtain ⟨hpos, hle⟩ := capacityOk_iff.1 hok
    exact hbad.elim (not_le.2 hpos) (not_lt.2 hle)

/-! ### `DL_WRITE` (R159) -/

theorem execDlWrite_of_unconfigured {s : State} {c : Channel} (h : (s.lines.get c).cap = 0#32) :
    execDlWrite c s = .next (s.raise .unconfigured) := if_pos h

theorem execDlWrite_of_ready {s : State} {c : Channel} (h : LineReady s.memDepth (s.lines.get c)) :
    execDlWrite c s = .next (s.setLine c { s.lines.get c with
      ram := (s.lines.get c).ram.writeWord (uint (s.lines.get c).cursor) s.operands.arg0
      cursor := toWord ((uint (s.lines.get c).cursor + 1) % uint (s.lines.get c).cap) }) := by
  rw [execDlWrite, if_neg h.cap_ne, State.dlWrite_of_ready _ h, outcomeOf]

/-- Settles O28: the line written is the one of R152, and the RAM's laws say what each byte of it reads. -/
theorem dlWriteStoresAtTheCursor : Obligations.DlWriteStoresAtTheCursor := by
  intro s c
  refine ⟨fun hwf hready => ?_, fun hcap => execDlWrite_of_unconfigured hcap⟩
  exact ⟨_, execDlWrite_of_ready hready, rfl, toWord_mod_toNat _ hready.cap_ne, Memory.readWord_writeWord_same _ _ hwf,
    fun a ha => Memory.readByte_writeWord_outside _ hwf ha⟩

/-! ### `DL_READ` (R160) -/

theorem execDlRead_of_unconfigured {s : State} {c : Channel} (h : (s.lines.get c).cap = 0#32) :
    execDlRead c s = .next (s.raise .unconfigured) := if_pos h

theorem execDlRead_of_read {s t : State} {c : Channel} {y : Word} (hcap : (s.lines.get c).cap ≠ 0#32)
    (h : s.dlRead c s.operands.arg0 = .ok (t, y)) : execDlRead c s = .next (t.setResult y) := by
  rw [execDlRead, if_neg hcap, h]

/-- Out of range the read raises `RANGE` and takes a free draw, whatever the RAM (R156, log 1). -/
theorem State.dlRead_of_not_inRange {s : State} {c : Channel} {d : Word} (h : inRange d (uint (s.lines.get c).cap) = false) :
    s.dlRead c d = .ok (s.raise .range).draw := by
  rw [State.dlRead, h]
  rfl

/-- The slot one sample older than the one at delay `n` (R154). -/
theorem DelayLine.slotAt_succ (l : DelayLine) (n : Nat) :
    l.slotAt (n + 1) = (((uint l.cursor : Int) - n - 1) % (uint l.cap : Int)).toNat := by
  rw [DelayLine.slotAt, Int.natCast_succ, sub_sub]

/-- Settles O29: the read in range, out of range and of an unconfigured line. -/
theorem dlReadInterpolates : Obligations.DlReadInterpolates := by
  intro s c l d n f a b
  refine ⟨fun hcap hle hin => ?_, fun hcap hout => ?_, fun hcap => execDlRead_of_unconfigured hcap⟩
  · have hread : s.dlRead c d = .ok (s, interp a b f) := by
      rw [State.dlRead_of_cap d hle, if_pos hin, DelayLine.slotAt_succ]
      rfl
    exact execDlRead_of_read hcap hread
  · exact execDlRead_of_read hcap (State.dlRead_of_not_inRange hout)

end Sys2Proof.Machine
end

section
/-! PROOFS. The smoothed parameter and its follower (42_smoothing.md): what a call of `SPNext` does and where many calls
land, the length `RampSteps` gives, and the five commands. -/

namespace Sys2Proof.Machine

/-! ### One call of `SPNext` (R185) -/

theorem Smoothed.overshoots_iff {p : Smoothed} {c : Word} : p.overshoots c = true ↔
    (fgt p.step 0#32 = true ∧ fgt c p.tgt = true) ∨ (flt p.step 0#32 = true ∧ flt c p.tgt = true) := by
  simp [Smoothed.overshoots, fZero]

theorem flt_irrefl (v : Word) : flt v v = false := by simp [flt]

/-- The target itself is never past the target. -/
theorem Smoothed.not_overshoots_tgt (p : Smoothed) : p.overshoots p.tgt = false := by
  simp [Smoothed.overshoots, fgt, flt_irrefl]

/-- A step that is not the last one goes on by the increment, or to the target where that is past it. -/
theorem Smoothed.next_cur_of_ne_one {p : Smoothed} (h0 : p.cnt ≠ 0#32) (h1 : p.cnt ≠ 1#32) :
    p.next.cur = if p.overshoots (fadd p.cur p.step) = true then p.tgt else fadd p.cur p.step := by
  have hleft : p.cnt - 1#32 ≠ 0#32 := by bv_omega
  simp only [Smoothed.next, if_neg h0, if_neg hleft]

/-- A step takes the parameter to its target or to a value that is not past it. -/
theorem Smoothed.not_overshoots_next {p : Smoothed} (h0 : p.cnt ≠ 0#32) : p.overshoots p.next.cur = false := by
  by_cases h1 : p.cnt = 1#32
  · rw [Smoothed.next_last h1, p.not_overshoots_tgt]
  · rw [Smoothed.next_cur_of_ne_one h0 h1]
    split
    next => exact p.not_overshoots_tgt
    next h => exact Bool.eq_false_iff.2 h

/-- Settles O40: past the target is what `SPNext` rules out, at the last step and before it. -/
theorem rampNeverOvershoots : Obligations.RampNeverOvershoots := by
  intro p h0
  have h := p.not_overshoots_next h0
  rwa [Bool.eq_false_iff, ne_eq, Smoothed.overshoots_iff, not_or] at h

/-! ### Many calls of `SPNext` (R186) -/

theorem Smoothed.nextTimes_tgt (m : Nat) (p : Smoothed) : (p.nextTimes m).tgt = p.tgt := by
  induction m with
  | zero => rfl
  | succ m ih => rw [Smoothed.nextTimes, Smoothed.next_tgt, ih]

theorem Smoothed.nextTimes_cnt (m : Nat) (p : Smoothed) : (p.nextTimes m).cnt.toNat = p.cnt.toNat - m := by
  induction m with
  | zero => rfl
  | succ m ih => rw [Smoothed.nextTimes, Smoothed.next_cnt, ih, Nat.sub_sub]

/-- A parameter that is at its target once no step is left: a ramp ends nowhere else. -/
def Smoothed.EndsAtTarget (p : Smoothed) : Prop := p.cnt = 0#32 → p.cur = p.tgt

theorem Smoothed.EndsAtTarget.next {p : Smoothed} (h : p.EndsAtTarget) : p.next.EndsAtTarget := by
  intro hdone
  by_cases h0 : p.cnt = 0#32
  · rw [Smoothed.next_idle h0, h h0]
  · have hlast : p.cnt = 1#32 := by
      have hcnt := p.next_cnt
      rw [hdone, BitVec.toNat_zero] at hcnt
      bv_omega
    rw [Smoothed.next_last hlast, Smoothed.next_tgt]

theorem Smoothed.EndsAtTarget.nextTimes {p : Smoothed} (h : p.EndsAtTarget) (m : Nat) :
    (p.nextTimes m).EndsAtTarget := by
  induction m with
  | zero => exact h
  | succ m ih => exact ih.next

/-- Settles O39: a running ramp ends at its target only, and its steps are used up one by one. -/
theorem rampLandsOnItsTarget : Obligations.RampLandsOnItsTarget := by
  intro p m hrun hm
  have hdone : (p.nextTimes m).cnt = 0#32 :=
    BitVec.eq_of_toNat_eq ((p.nextTimes_cnt m).trans (Nat.sub_eq_zero_of_le hm))
  have hends : p.EndsAtTarget := fun h0 => absurd h0 hrun
  exact ⟨(hends.nextTimes m hdone).trans (p.nextTimes_tgt m), hdone, p.nextTimes_tgt m⟩

/-! ### The ramp length (R181) -/

/-- A NaN is not ordered, and neither a negative value nor a zero is greater than 0 (R11). -/
theorem fgt_zero_iff {v : Word} : fgt v 0#32 = true ↔ isNaN v = false ∧ 0 < scaled v := by
  have hnan : isNaN 0#32 = false := by decide
  have hval : scaled 0#32 = 0 := by decide
  simp [fgt, flt, hnan, hval]

theorem magBits_ne_zero {b : Nat} (h : b ≠ 0) : magBits b ≠ 0 := by
  rw [magBits]
  split
  · omega
  · positivity

/-- A positive integer converts to a positive value: it is far above the half unit that rounds to 0 (R12). -/
theorem fgt_zero_i2f {n : Int} (h : 0 < n) : fgt (i2f n) 0#32 = true := by
  have hlt := roundUnits_lt (n.natAbs * unitsPerOne) 1
  have hne : roundUnits (n.natAbs * unitsPerOne) 1 ≠ 0 := by
    have hone : 2 ^ 149 ≤ n.natAbs * unitsPerOne := Nat.le_mul_of_pos_left _ (Int.natAbs_pos.2 h.ne')
    have hlog : 149 ≤ Nat.log2 (n.natAbs * unitsPerOne) := (Nat.le_log2 (by omega)).2 hone
    simp only [roundUnits, Nat.div_one]
    omega
  have hneg : decide (n < 0) = false := decide_eq_false h.not_gt
  rw [fgt_zero_iff, i2f, hneg, scaled_of_pos (signBit_packFloat _ hlt), magnitude_packFloat _ hlt]
  exact ⟨isNaN_packFloat _ (roundUnits_le _ _), Int.natCast_pos.2 (Nat.pos_of_ne_zero (magBits_ne_zero hne))⟩

/-- The product of two positive values is a positive-signed number, infinity included (R10). -/
theorem fmul_of_pos {a b : Word} (ha : fgt a 0#32 = true) (hb : fgt b 0#32 = true) :
    ∃ bits ≤ 0x7F800000, fmul a b = packFloat false bits := by
  obtain ⟨hna, hpa⟩ := fgt_zero_iff.1 ha
  obtain ⟨hnb, hpb⟩ := fgt_zero_iff.1 hb
  obtain ⟨hsa, hma⟩ := signBit_of_scaled_pos hpa
  obtain ⟨hsb, hmb⟩ := signBit_of_scaled_pos hpb
  by_cases hinf : (isInf a || isInf b) = true
  · exact ⟨_, le_rfl, by simp [fmul, hna, hnb, hinf, isZero, hma, hmb, hsa, hsb]⟩
  · exact ⟨_, roundUnits_le (magnitude a * magnitude b) unitsPerOne, by simp [fmul, hna, hnb, hinf, hsa, hsb]⟩

/-- A positive-signed number is at least 2^32 when its magnitude is. -/
theorem fge_two_pow_32_packFloat {bits : Nat} (h : bits ≤ 0x7F800000) :
    fge (packFloat false bits) 0x4F800000#32 = decide (2 ^ 32 * unitsPerOne ≤ magnitude (packFloat false bits)) := by
  have hnan : isNaN 0x4F800000#32 = false := by decide
  have hval : scaled 0x4F800000#32 = ((2 ^ 32 * unitsPerOne : Nat) : Int) := by decide
  simp only [fge, fle, hnan, isNaN_packFloat _ h, hval, scaled_of_pos (signBit_packFloat false (by omega : bits < 2 ^ 31)),
    Int.ofNat_le, Bool.not_false, Bool.true_and]

/-- An infinity is above every finite value, 2^32 among them. -/
theorem magnitude_of_isInf {v : Word} (h : isInf v = true) : 2 ^ 32 * unitsPerOne ≤ magnitude v := by
  rw [magnitude_eq, (isInf_iff v).1 h]
  decide

theorem rampLength_of_ge {p : Word} (h : 2 ^ 32 * unitsPerOne ≤ magnitude p) : rampLength p = 0xFFFFFFFF#32 :=
  if_pos (by rw [decide_eq_true h, Bool.or_true])

theorem rampLength_of_lt {p : Word} (h : magnitude p < 2 ^ 32 * unitsPerOne) :
    (rampLength p).toNat = max 1 (floorToInt p) := by
  have hfin : isInf p = false := Bool.eq_false_iff.2 fun hi => absurd (magnitude_of_isInf hi) h.not_ge
  have hfloor : floorToInt p < 2 ^ 32 := (Nat.div_lt_iff_lt_mul (show 0 < unitsPerOne by decide)).2 h
  rw [rampLength, hfin, decide_eq_false h.not_ge, if_neg (by decide)]
  split
  next h0 => rw [h0]; rfl
  next h0 =>
    rw [BitVec.toNat_ofNat, Nat.mod_eq_of_lt hfloor]
    omega

theorem rampSteps_of_invalid {t : Word} {sr : Int} (h : fgt t 0#32 = false ∨ sr ≤ 0) : rampSteps t sr = (1#32, true) :=
  if_pos (by simpa [fZero] using h)

theorem rampSteps_of_valid {t : Word} {sr : Int} (ht : fgt t 0#32 = true) (hsr : 0 < sr) :
    rampSteps t sr = (rampLength (fmul t (i2f sr)), false) :=
  if_neg (by simpa [fZero, ht] using hsr)

/-! ### The commands -/

/-- Settles O22: `SPInit` (R183) writes every field from `ARG0` but the length. -/
theorem spInitJumpsToTheValue : Obligations.SpInitJumpsToTheValue := fun _ _ => rfl

theorem Smoothed.setTarget_of_feq {p : Smoothed} {v : Word} (h : feq v p.tgt = true) : p.setTarget v = p := if_pos h

theorem Smoothed.setTarget_of_not_feq {p : Smoothed} {v : Word} (h : feq v p.tgt = false) :
    p.setTarget v =
      { cur := p.cur, tgt := v, step := fdiv (fsub v p.cur) (i2f p.n.toNat), cnt := p.n, n := p.n } :=
  if_neg (by rw [h]; decide)

theorem feq_of_isNaN {v : Word} (w : Word) (h : isNaN v = true) : feq v w = false := by simp [feq, h]

/-- `SP_SETTARGET` writes parameter `k` alone (R189). -/
theorem exec_spSetTarget (s : State) (k : Param) :
    exec (.spSetTarget k) s = .next (s.setSp k ((s.sp.get k).setTarget s.operands.arg0)) := rfl

/-- Settles O23: an equal target writes the parameter back as it was. -/
theorem spSetTargetStartsARamp : Obligations.SpSetTargetStartsARamp := by
  intro s k p v q
  refine ⟨fun heq => ?_, fun hne => ?_, fun hnan => feq_of_isNaN _ hnan⟩
  · rw [exec_spSetTarget, Smoothed.setTarget_of_feq heq, State.setSp, PerParam.set_get]
  · rw [exec_spSetTarget, Smoothed.setTarget_of_not_feq hne]
    rfl

/-- `coef(k)` by the class of the parameter (R58). -/
theorem State.coef_eq (s : State) (k : Param) :
    s.coef k = if k = .delayLeft ∨ k = .delayRight then s.coefD else s.coefM := by
  cases k <;> rfl

/-- Settles O26: the state and the value of `OPStep`, with `RESULT` the value. -/
theorem opStepFollowsTwoCalls : Obligations.OpStepFollowsTwoCalls := by
  intro s k p1 p2 coef y
  have hvalue : (s.opStep k).2 = y := by
    rw [State.opStep_value, State.coef_eq]
    rfl
  have hexec : exec (.opStep k) s = .next ((s.opStep k).1.setResult (s.opStep k).2) := rfl
  rw [hexec, State.opStep_state, hvalue]
  rfl

/-- Settles O24: the parameter after one call of `SPNext`, whose current value goes to `RESULT`. -/
theorem spNextTakesOneStep : Obligations.SpNextTakesOneStep := by
  intro s k
  refine ⟨(s.sp.get k).next, rfl, fun h0 => Smoothed.next_idle h0, fun h0 => ?_⟩
  have hcnt : (s.sp.get k).next.cnt.toNat + 1 = (s.sp.get k).cnt.toNat := by
    rw [Smoothed.next_cnt]
    bv_omega
  refine ⟨Smoothed.next_tgt _, Smoothed.next_step _, Smoothed.next_n _, hcnt, fun h1 => Smoothed.next_last h1,
    fun h1 => ?_⟩
  intro p c
  have hcur : p.next.cur = if p.overshoots c = true then p.tgt else c := Smoothed.next_cur_of_ne_one h0 h1
  split
  next hpast => rw [hcur, if_pos (Smoothed.overshoots_iff.2 hpast)]
  next hpast => rw [hcur, if_neg (mt Smoothed.overshoots_iff.1 hpast)]

/-- `SP_RESET` installs what `RampSteps` answers (R187). -/
theorem exec_spReset (s : State) (k : Param) {n : Word} {invalid : Bool}
    (h : rampSteps s.operands.arg0 (sint s.sampleRate) = (n, invalid)) :
    exec (.spReset k) s = .next { s with
      sp := s.sp.set k ((s.sp.get k).restart n)
      errors := if invalid then raiseBit s.errors .invalidRamp else s.errors } := by
  have hexec : exec (.spReset k) s = .next (s.spReset k s.operands.arg0 (sint s.sampleRate)) := rfl
  rw [hexec, State.spReset_state, h]

/-- Settles O25: an invalid time or rate gives length 1 and the error; a valid product has no sign, so the bound on its
magnitude is the comparison with 2^32. -/
theorem spResetInstallsTheRampLength : Obligations.SpResetInstallsTheRampLength := by
  intro s k
  by_cases hvalid : fgt s.operands.arg0 0#32 = true ∧ 0 < sint s.sampleRate
  · obtain ⟨ht, hsr⟩ := hvalid
    refine ⟨_, _, exec_spReset s k (rampSteps_of_valid ht hsr), fun hbad => ?_, fun _ => ⟨rfl, ?_⟩⟩
    · rcases hbad with hbad | hbad
      · exact absurd ht (Bool.eq_false_iff.1 hbad)
      · exact absurd hbad hsr.not_ge
    · obtain ⟨bits, hbits, hp⟩ := fmul_of_pos ht (fgt_zero_i2f hsr)
      rw [hp, fge_two_pow_32_packFloat hbits]
      exact ⟨fun hge => rampLength_of_ge (of_decide_eq_true hge),
        fun hlt => rampLength_of_lt (Nat.not_le.1 (of_decide_eq_false hlt))⟩
  · have hbad : fgt s.operands.arg0 0#32 = false ∨ sint s.sampleRate ≤ 0 := by
      rwa [not_and_or, Bool.not_eq_true, not_lt] at hvalid
    exact ⟨_, _, exec_spReset s k (rampSteps_of_invalid hbad), fun _ => ⟨rfl, rfl⟩, fun hgood => absurd hgood hvalid⟩

end Sys2Proof.Machine
end

section
/-! PROOFS. The chorus LFO and the sine unit (43_lfo.md): the modulation with the index term and without it, the phase
within [0, 2π) from step to step, and a `FRAME` that does not see where its block began. -/

namespace Sys2Proof.Machine

/-! ### The sine unit (R224, R226) -/

theorem canonicalNaN_of_isNaN {v : Word} (h : isNaN v = true) : canonicalNaN v = quietNaN := if_pos h

theorem canonicalNaN_of_not_isNaN {v : Word} (h : isNaN v = false) : canonicalNaN v = v :=
  if_neg (Bool.eq_false_iff.1 h)

theorem exec_sinEval (s : State) : exec .sinEval s = .next (s.setResult (sin32 s.operands.arg0)) := rfl

/-- Settles O18: the sine unit's raw value where that is no NaN, and the NaN of R10 where it is one. -/
theorem sinEvalWritesTheSine : Obligations.SinEvalWritesTheSine := fun s =>
  ⟨sin32 s.operands.arg0, exec_sinEval s, canonicalNaN_of_not_isNaN, canonicalNaN_of_isNaN⟩

/-! ### The modulation and the phase (R221 to R223) -/

/-- Without the index term the sine's argument is the phase alone (R221). -/
theorem lfoArg_without_idxTerm (srf ph rate idx : Word) : lfoArg srf ph rate idx false = ph := rfl

theorem phaseStep_eq (srf ph rate : Word) :
    phaseStep srf ph rate = wrapPhase (fadd ph (phaseIncrement srf rate)) := rfl

theorem wrapPhase_of_ge {p : Word} (h : fge p twoPi = true) : wrapPhase p = fsub p twoPi := if_pos h

theorem wrapPhase_of_not_ge {p : Word} (h : fge p twoPi = false) : wrapPhase p = p := if_neg (Bool.eq_false_iff.1 h)

/-- `LFO_ADVANCE.c` moves phase `c` and writes `RESULT` with the modulation at the phase before (R222, R225). -/
theorem exec_lfoAdvance (s : State) (c : Channel) : exec (.lfoAdvance c) s = .next { s with
    regs := { s.regs with
      result := fmul (fmul s.operands.arg1 s.snap.depthScale)
        (sin32 (lfoArg s.sampleRateF (s.phase.get c) s.operands.arg0 s.operands.arg2 s.snap.idxTerm)) }
    phase := s.phase.set c (phaseStep s.sampleRateF (s.phase.get c) s.operands.arg0) } := rfl

/-- Settles O21: the sine's argument and the phase step, written out. -/
theorem lfoAdvanceModulatesThenSteps : Obligations.LfoAdvanceModulatesThenSteps := by
  intro s c rate depth idx ph a arg p ph'
  have harg : lfoArg s.sampleRateF ph rate idx s.snap.idxTerm = arg := rfl
  have hphase : phaseStep s.sampleRateF ph rate = ph' := rfl
  rw [exec_lfoAdvance, harg, hphase]

/-! ### The order of the finite patterns (R9, R11) -/

/-- Bits 30:0 order the magnitudes: the next pattern adds one to the significand, the carry into the exponent included. -/
theorem magBits_mono : Monotone magBits := by
  refine monotone_nat_of_le_succ fun b => ?_
  obtain ⟨k, m, rfl, hmag, hm, hk⟩ := magBits_split b
  rw [hmag, Nat.add_assoc, magBits_of_split (by omega) (by omega)]
  exact Nat.mul_le_mul_right _ (Nat.le_succ m)

theorem flt_iff_floatValue {a b : Word} (ha : isFinite a = true) (hb : isFinite b = true) :
    flt a b = true ↔ floatValue a < floatValue b := by
  rw [floatValue_eq, floatValue_eq, div_lt_div_iff_of_pos_right (by positivity), Int.cast_lt]
  simp [flt, isNaN_of_isFinite ha, isNaN_of_isFinite hb]

theorem fge_iff_floatValue {a b : Word} (ha : isFinite a = true) (hb : isFinite b = true) :
    fge a b = true ↔ floatValue b ≤ floatValue a := by
  rw [floatValue_eq, floatValue_eq, div_le_div_iff_of_pos_right (by positivity), Int.cast_le]
  simp [fge, fle, isNaN_of_isFinite ha, isNaN_of_isFinite hb]

/-! ### Rounding keeps the bounds that are binary32 values (R10) -/

/-- A finite value is below the border of overflow (R10). -/
theorem abs_floatValue_lt {c : Word} (hc : isFinite c = true) : |floatValue c| < 2 ^ 128 - 2 ^ 103 := by
  have hmag : magnitude c ≤ (2 ^ 24 - 1) * 2 ^ 253 := by
    rw [magnitude_eq]
    exact magBits_mono (b := 0x7F7FFFFF) (Nat.le_of_lt_succ ((isFinite_iff c).1 hc))
  have habs : |floatValue c| = (magnitude c : ℚ) / 2 ^ 149 := by
    rw [floatValue_eq, abs_div, abs_of_pos (by positivity : (0 : ℚ) < 2 ^ 149), ← Int.cast_abs, Int.abs_eq_natAbs,
      scaled_natAbs, Int.cast_natCast]
  rw [habs, div_lt_iff₀ (by positivity)]
  calc (magnitude c : ℚ) ≤ ((2 ^ 24 - 1) * 2 ^ 253 : Nat) := Nat.cast_le.2 hmag
    _ < (2 ^ 128 - 2 ^ 103) * 2 ^ 149 := by norm_num

/-- A number between two binary32 values rounds to one between them: each of the two is as near as the result or less. -/
theorem RoundsTo.between {x : ℚ} {lo r hi : Word} (h : RoundsTo x r) (hlo : isFinite lo = true) (hhi : isFinite hi = true)
    (hge : floatValue lo ≤ x) (hle : x ≤ floatValue hi) :
    isFinite r = true ∧ floatValue lo ≤ floatValue r ∧ floatValue r ≤ floatValue hi := by
  have hfin : isFinite r = true := by
    refine h.finite (abs_lt.2 ⟨?_, ?_⟩)
    · exact (abs_lt.1 (abs_floatValue_lt hlo)).1.trans_le hge
    · exact hle.trans_lt (abs_lt.1 (abs_floatValue_lt hhi)).2
  have hnearLo := h.nearest hfin lo hlo
  have hnearHi := h.nearest hfin hi hhi
  rw [abs_of_nonpos (sub_nonpos.2 hge)] at hnearLo
  rw [abs_of_nonneg (sub_nonneg.2 hle)] at hnearHi
  exact ⟨hfin, by linarith [neg_abs_le (floatValue r - x)], by linarith [le_abs_self (floatValue r - x)]⟩

/-! ### The phase stays within [0, 2π) (R223) -/

/-- The last binary32 value below 2π. -/
def belowTwoPi : Word := 0x40C90FDA#32

/-- Twice `belowTwoPi`: the same significand, one exponent higher. -/
def twiceBelowTwoPi : Word := 0x41490FDA#32

theorem floatValue_zero : floatValue 0#32 = 0 := by
  rw [floatValue_eq, show scaled 0#32 = 0 by decide, Int.cast_zero, zero_div]

theorem floatValue_belowTwoPi : floatValue belowTwoPi = 0xC90FDA / 2 ^ 21 := by
  rw [floatValue_eq, show scaled belowTwoPi = 0xC90FDA * 2 ^ 128 by decide]
  norm_num

theorem floatValue_twiceBelowTwoPi : floatValue twiceBelowTwoPi = 2 * floatValue belowTwoPi := by
  rw [floatValue_belowTwoPi, floatValue_eq, show scaled twiceBelowTwoPi = 0xC90FDA * 2 ^ 129 by decide]
  norm_num

theorem floatValue_twoPi : floatValue twoPi = 0xC90FDB / 2 ^ 21 := by
  rw [floatValue_eq, show scaled twoPi = 0xC90FDB * 2 ^ 128 by decide]
  norm_num

theorem belowTwoPi_lt : floatValue belowTwoPi < floatValue twoPi := by
  rw [floatValue_belowTwoPi, floatValue_twoPi]
  norm_num

/-- A phase in [0, 2π): a finite pattern from 0 to the last value below 2π. -/
structure PhaseInRange (v : Word) : Prop where
  finite : isFinite v = true
  nonneg : 0 ≤ floatValue v
  le : floatValue v ≤ floatValue belowTwoPi

theorem scaled_eq_magnitude {v : Word} (h : 0 ≤ scaled v) : scaled v = magnitude v := by
  rw [← scaled_natAbs, Int.natAbs_of_nonneg h]

/-- No pattern lies between `belowTwoPi` and 2π. -/
theorem absBits_le_belowTwoPi {v : Word} (hnonneg : 0 ≤ scaled v) (hlt : scaled v < scaled twoPi) :
    absBits v ≤ absBits belowTwoPi := by
  by_contra hgt
  have hmono : magnitude twoPi ≤ magnitude v := by
    rw [magnitude_eq, magnitude_eq]
    exact magBits_mono (Nat.succ_le_of_lt (Nat.lt_of_not_le hgt))
  rw [scaled_eq_magnitude hnonneg, scaled_eq_magnitude (v := twoPi) (by decide)] at hlt
  omega

/-- The comparisons with 0 and 2π say that a word is a phase in range. -/
theorem phaseInRange_iff {v : Word} : PhaseInRange v ↔ fge v 0#32 = true ∧ flt v twoPi = true := by
  have hzero : isFinite 0#32 = true := by decide
  have htwoPi : isFinite twoPi = true := by decide
  constructor
  · intro ⟨hfin, hnonneg, hle⟩
    rw [fge_iff_floatValue hfin hzero, flt_iff_floatValue hfin htwoPi, floatValue_zero]
    exact ⟨hnonneg, hle.trans_lt belowTwoPi_lt⟩
  · rintro ⟨hge, hlt⟩
    have hnonneg : 0 ≤ scaled v := by
      simp only [fge, fle, Bool.and_eq_true, decide_eq_true_eq] at hge
      exact hge.2
    have hbelow : scaled v < scaled twoPi := by
      simp only [flt, Bool.and_eq_true, decide_eq_true_eq] at hlt
      exact hlt.2
    have hbits := absBits_le_belowTwoPi hnonneg hbelow
    refine ⟨(isFinite_iff v).2 (hbits.trans_lt (by decide)), (floatValue_nonneg_iff v).2 hnonneg, ?_⟩
    rw [floatValue_eq, floatValue_eq, div_le_div_iff_of_pos_right (by positivity), Int.cast_le, scaled_eq_magnitude hnonneg,
      scaled_eq_magnitude (v := belowTwoPi) (by decide), magnitude_eq, magnitude_eq, Int.ofNat_le]
    exact magBits_mono hbits

/-- A sum of two phases in range is at most twice the last value below 2π, which is itself a binary32 value. -/
theorem PhaseInRange.sum_bounds {a b : Word} (ha : PhaseInRange a) (hb : PhaseInRange b) :
    isFinite (fadd a b) = true ∧ 0 ≤ floatValue (fadd a b) ∧ floatValue (fadd a b) ≤ 2 * floatValue belowTwoPi := by
  rw [← floatValue_zero, ← floatValue_twiceBelowTwoPi]
  refine (fadd_roundsTo ha.finite hb.finite).between (by decide) (by decide) ?_ ?_
  · rw [floatValue_zero]
    exact add_nonneg ha.nonneg hb.nonneg
  · rw [floatValue_twiceBelowTwoPi, two_mul]
    exact add_le_add ha.le hb.le

/-- A finite word from 2π to twice the last value below it is in range once 2π is subtracted. -/
theorem phaseInRange_fsub_twoPi {p : Word} (hfin : isFinite p = true) (hge : floatValue twoPi ≤ floatValue p)
    (hle : floatValue p ≤ 2 * floatValue belowTwoPi) : PhaseInRange (fsub p twoPi) := by
  have hnonneg : floatValue 0#32 ≤ floatValue p - floatValue twoPi := by
    rw [floatValue_zero]
    exact sub_nonneg.2 hge
  have hbelow : floatValue p - floatValue twoPi ≤ floatValue belowTwoPi := by linarith [belowTwoPi_lt]
  obtain ⟨hfin', hge', hle'⟩ :=
    (fsub_roundsTo hfin (b := twoPi) (by decide)).between (by decide) (by decide) hnonneg hbelow
  exact ⟨hfin', floatValue_zero ▸ hge', hle'⟩

/-- One step keeps the phase in range: a sum at or above 2π loses 2π, a smaller one stays. -/
theorem PhaseInRange.step {srf ph rate : Word} (hph : PhaseInRange ph)
    (hinc : PhaseInRange (phaseIncrement srf rate)) : PhaseInRange (phaseStep srf ph rate) := by
  obtain ⟨hfin, hnonneg, hle⟩ := hph.sum_bounds hinc
  rw [phaseStep_eq]
  cases hwrap : fge (fadd ph (phaseIncrement srf rate)) twoPi with
  | true =>
    rw [wrapPhase_of_ge hwrap]
    exact phaseInRange_fsub_twoPi hfin ((fge_iff_floatValue hfin (by decide)).1 hwrap) hle
  | false =>
    rw [wrapPhase_of_not_ge hwrap, phaseInRange_iff, fge_iff_floatValue hfin (by decide),
      flt_iff_floatValue hfin (by decide), floatValue_zero, ← not_le, ← fge_iff_floatValue hfin (by decide)]
    exact ⟨hnonneg, Bool.eq_false_iff.1 hwrap⟩

/-- Settles O41: the hypotheses and the conclusion are the range of a phase, which a step keeps. -/
theorem phaseStaysBelowTwoPi : Obligations.PhaseStaysBelowTwoPi := by
  intro srf ph rate hph0 hph hinc0 hinc
  exact phaseInRange_iff.1 ((phaseInRange_iff.2 ⟨hph0, hph⟩).step (phaseInRange_iff.2 ⟨hinc0, hinc⟩))

/-! ### A `FRAME` and the sample index (R221, R227, R286) -/

/-- `s` with another sample index (R60). -/
def State.withBlockIdx (b : Word) (s : State) : State := { s with blockIdx := b }

/-- With the index term off no sample index reaches the modulation (R221). -/
theorem modulation_without_idxTerm (srf ph rate depth scale idx : Word) :
    modulation srf ph rate depth scale idx false = fmul (fmul depth scale) (sin32 ph) := by
  rw [modulation, lfoArg_without_idxTerm]

section
variable (s : State) (b : Word)

@[simp] theorem State.withBlockIdx_snap : (s.withBlockIdx b).snap = s.snap := rfl
@[simp] theorem State.withBlockIdx_lines : (s.withBlockIdx b).lines = s.lines := rfl
@[simp] theorem State.withBlockIdx_memDepth : (s.withBlockIdx b).memDepth = s.memDepth := rfl
@[simp] theorem State.withBlockIdx_sampleRateF : (s.withBlockIdx b).sampleRateF = s.sampleRateF := rfl
@[simp] theorem State.withBlockIdx_coefD : (s.withBlockIdx b).coefD = s.coefD := rfl
@[simp] theorem State.withBlockIdx_coefM : (s.withBlockIdx b).coefM = s.coefM := rfl
@[simp] theorem State.withBlockIdx_sp : (s.withBlockIdx b).sp = s.sp := rfl
@[simp] theorem State.withBlockIdx_ops : (s.withBlockIdx b).ops = s.ops := rfl
@[simp] theorem State.withBlockIdx_phase : (s.withBlockIdx b).phase = s.phase := rfl

theorem State.withBlockIdx_dlWrite (c : Channel) (x : Word) :
    (s.withBlockIdx b).dlWrite c x = (s.dlWrite c x).map (State.withBlockIdx b) := by
  rw [State.dlWrite, State.dlWrite, State.withBlockIdx_lines, State.withBlockIdx_memDepth]
  cases (s.lines.get c).write s.memDepth x <;> rfl

theorem State.withBlockIdx_dlRead (c : Channel) (d : Word) :
    (s.withBlockIdx b).dlRead c d = (s.dlRead c d).map (Prod.map (State.withBlockIdx b) id) := by
  rw [State.dlRead, State.dlRead, State.withBlockIdx_lines, State.withBlockIdx_memDepth]
  split
  · cases (s.lines.get c).readAt s.memDepth d <;> rfl
  · rfl

theorem State.withBlockIdx_frameShared :
    (s.withBlockIdx b).frameShared = Prod.map (State.withBlockIdx b) id s.frameShared := by
  have hwords : (s.withBlockIdx b).frameShared.2 = s.frameShared.2 := by simp [State.frameShared_words]
  refine Prod.ext ?_ hwords
  rw [Prod.map_fst, State.frameShared_state, State.frameShared_state, hwords]
  rfl

end

section
variable {s : State} (b : Word) (h : s.snap.idxTerm = false)
include h

/-- The one place where a `FRAME` takes the sample index is the modulation of the delay time (R288). -/
theorem State.withBlockIdx_delayTime (c : Channel) (depthF rateF : Word) :
    (s.withBlockIdx b).delayTime c depthF rateF = Prod.map (State.withBlockIdx b) id (s.delayTime c depthF rateF) := by
  have hvalue : ((s.withBlockIdx b).delayTime c depthF rateF).2 = (s.delayTime c depthF rateF).2 := by
    simp [State.delayTime_channelDelay, channelDelay, State.folds, h, modulation_without_idxTerm]
  refine Prod.ext ?_ hvalue
  rw [Prod.map_fst, State.delayTime_state, State.delayTime_state, hvalue]
  rfl

theorem State.withBlockIdx_channelStep (c : Channel) (x depthF rateF : Word) :
    (s.withBlockIdx b).channelStep c x depthF rateF =
      (s.channelStep c x depthF rateF).map (Prod.map (State.withBlockIdx b) id) := by
  rw [State.channelStep, State.channelStep, State.withBlockIdx_delayTime b h]
  simp only [Prod.map_fst, Prod.map_snd, id, State.withBlockIdx_dlRead, State.withBlockIdx_sampleRateF]
  cases (s.delayTime c depthF rateF).1.dlRead c (delaySamples (s.delayTime c depthF rateF).2 s.sampleRateF) with
  | error f => rfl
  | ok read =>
    simp only [Except.map, Prod.map, State.withBlockIdx_dlWrite]
    cases read.1.dlWrite c x <;> rfl

theorem State.withBlockIdx_frameChannel (c : Channel) (x depthF rateF : Word) :
    (s.withBlockIdx b).frameChannel c x depthF rateF =
      (s.frameChannel c x depthF rateF).map (State.withBlockIdx b) := by
  rw [State.frameChannel, State.frameChannel, State.withBlockIdx_channelStep b h]
  cases s.channelStep c x depthF rateF with
  | error f => rfl
  | ok out => cases c <;> rfl

end

theorem State.frameShared_snap (s : State) : s.frameShared.1.snap = s.snap := by rw [State.frameShared_state]

theorem State.frameChannel_snap {s t : State} {c : Channel} {x depthF rateF : Word}
    (h : s.frameChannel c x depthF rateF = .ok t) : t.snap = s.snap := by
  obtain ⟨_, _, _, _, _, rfl⟩ := State.frameChannel_ok h
  exact State.setOut_snap ..

/-- With the index term off, a `FRAME` from another sample index answers the same but for the index (R227). -/
theorem State.frame_withBlockIdx {s t : State} {r : HostRegs} (b : Word) (hterm : s.snap.idxTerm = false)
    (h : s.frame r = .ok t) : (s.withBlockIdx b).frame r = .ok (t.withBlockIdx (b + 1#32)) := by
  have hshared : s.frameShared.1.snap.idxTerm = false := by rw [State.frameShared_snap, hterm]
  rw [State.frame] at h ⊢
  rw [State.withBlockIdx_frameShared]
  simp only [Prod.map_fst, Prod.map_snd, id, State.withBlockIdx_frameChannel b hshared]
  cases hleft : s.frameShared.1.frameChannel .left (r.input .left) s.frameShared.2.1 s.frameShared.2.2 with
  | error f => simp [hleft] at h
  | ok s1 =>
    have hterm1 : s1.snap.idxTerm = false := by rw [State.frameChannel_snap hleft, hshared]
    simp only [hleft, Except.map, State.withBlockIdx_frameChannel b hterm1] at h ⊢
    cases hright : s1.frameChannel .right (r.input .right) s.frameShared.2.1 s.frameShared.2.2 with
    | error f => simp [hright] at h
    | ok s2 =>
      simp only [hright, Except.ok.injEq] at h
      rw [← h]
      rfl

/-- Settles O42: a `FRAME` takes the sample index in the index term alone, and moves it on by one. -/
theorem frameIgnoresTheBlockWithIndexTermOff : Obligations.FrameIgnoresTheBlockWithIndexTermOff := by
  intro s t b hterm hprep hframe
  have hanswer := State.frame_withBlockIdx b hterm (exec_frame_ok hprep hframe)
  calc execFrame (s.withBlockIdx b) = outcomeOf ((s.withBlockIdx b).frame s.operands) := if_pos hprep
    _ = .next (t.withBlockIdx (b + 1#32)) := by rw [hanswer, outcomeOf]

end Sys2Proof.Machine
end

section
/-! PROOFS. The output mixer (44_mixer.md): `MIX` written out, and the mix at the ratio 1.0, where one product is by 1.0
and drops out. -/

namespace Sys2Proof.Machine

/-! ### NaN operands and multiplication by 1.0 (R10) -/

theorem fadd_of_isNaN_right (a : Word) {b : Word} (h : isNaN b = true) : fadd a b = quietNaN :=
  if_pos (by rw [h, Bool.or_true])

theorem fmul_of_isNaN_right (a : Word) {b : Word} (h : isNaN b = true) : fmul a b = quietNaN :=
  if_pos (by rw [h, Bool.or_true])

theorem isZero_of_isInf {v : Word} (h : isInf v = true) : isZero v = false := by
  have hmag : magnitude v ≠ 0 := by
    rw [magnitude_eq, (isInf_iff v).1 h]
    decide
  simpa [isZero] using hmag

theorem isNaN_of_isInf {v : Word} (h : isInf v = true) : isNaN v = false := by
  rw [isInf_iff] at h
  rw [Bool.eq_false_iff, ne_eq, isNaN_iff]
  omega

/-- An infinity is its sign with the infinite magnitude (R9). -/
theorem packFloat_of_isInf {v : Word} (h : isInf v = true) : packFloat (signBit v) 0x7F800000 = v := by
  rw [← (isInf_iff v).1 h, packFloat_eta]

theorem fmul_fOne_of_isInf {v : Word} (h : isInf v = true) : fmul fOne v = v := by
  have hone : isNaN fOne = false ∧ isZero fOne = false ∧ signBit fOne = false := by decide
  obtain ⟨hnan, hzero, hsign⟩ := hone
  calc fmul fOne v = packFloat (signBit v) 0x7F800000 := by
        simp [fmul, hnan, hzero, hsign, h, isNaN_of_isInf h, isZero_of_isInf h]
    _ = v := packFloat_of_isInf h

/-- A finite magnitude counted in units of 1.0 is its own rounding, subnormal or not. -/
theorem fmul_fOne_of_isFinite {v : Word} (h : isFinite v = true) : fmul fOne v = v := by
  have hone : isFinite fOne = true ∧ magnitude fOne = unitsPerOne ∧ signBit fOne = false := by decide
  obtain ⟨hfin, hmag, hsign⟩ := hone
  have hround : roundUnits (unitsPerOne * magnitude v) unitsPerOne = absBits v := by
    rw [Nat.mul_comm, magnitude_eq, roundUnits_exact ((isFinite_iff v).1 h) (by decide)]
  rw [fmul_finite hfin h, hmag, hsign, hround, Bool.false_bne, packFloat_eta]

theorem fmul_fOne {v : Word} (h : isNaN v = false) : fmul fOne v = v := by
  cases hinf : isInf v with
  | true => exact fmul_fOne_of_isInf hinf
  | false => exact fmul_fOne_of_isFinite (isFinite_of_not h hinf)

/-- Under a sum a factor 1.0 drops out for every pattern: a NaN gives `quietNaN` with the factor and without it. -/
theorem fadd_fmul_fOne (a v : Word) : fadd a (fmul fOne v) = fadd a v := by
  cases hnan : isNaN v with
  | true => rw [fmul_of_isNaN_right _ hnan, fadd_of_isNaN_right a hnan, fadd_of_isNaN_right a (by decide)]
  | false => rw [fmul_fOne hnan]

/-! ### The mix (R250, R251) -/

theorem mixOf_eq (x y dw : Word) : mixOf x y dw = fadd (fmul (wetScale dw) x) (fmul dw y) := rfl

theorem exec_mix (s : State) :
    exec .mix s = .next (s.setResult (mixOf s.operands.arg0 s.operands.arg1 s.snap.dryWet)) := rfl

/-- At the ratio 1.0 the input's scale is 0.5 exactly (R253). -/
theorem wetScale_fOne : wetScale fOne = fHalf := by decide

/-- At the ratio 1.0 the mix is half the input plus the delayed sample (R250). -/
theorem mixOf_fOne (x y : Word) : mixOf x y fOne = fadd (fmul fHalf x) y := by
  rw [mixOf_eq, wetScale_fOne, fadd_fmul_fOne]

/-- Settles O20: at the ratio 1.0 the input is scaled by 0.5, and the factor 1.0 drops out under the sum. -/
theorem mixAtResetRatioIsHalfInputPlusDelayed : Obligations.MixAtResetRatioIsHalfInputPlusDelayed := by
  intro s hratio
  have hone : s.snap.dryWet = fOne := hratio
  rw [exec_mix, hone, mixOf_fOne]
  rfl

/-- Settles O19: the mix and the result register, written out. -/
theorem mixWritesTheMix : Obligations.MixWritesTheMix := by
  intro s dw ws y
  have hmix : mixOf s.operands.arg0 s.operands.arg1 s.snap.dryWet = y := rfl
  rw [exec_mix, hmix]
  rfl

end Sys2Proof.Machine
end

section
/-! PROOFS. The sequencer (45_engine.md): `NOP` and `RELEASE`, what `PREPARE` and `BLOCK_START` set up, and what a `FRAME`
does to each channel and to what the channels share. -/

namespace Sys2Proof.Machine

/-! ### The errors these commands raise (R320) -/

theorem State.raise_notPrepared (s : State) : s.raise .notPrepared = { s with errors := s.errors ||| 0x04#7 } := rfl

theorem State.raise_invalidCapacity (s : State) :
    s.raise .invalidCapacity = { s with errors := s.errors ||| 0x10#7 } := rfl

theorem raiseBit_invalidRamp (errors : BitVec 7) : raiseBit errors .invalidRamp = errors ||| 0x20#7 := rfl

theorem raiseBit_range (errors : BitVec 7) : raiseBit errors .range = errors ||| 0x40#7 := rfl

/-- Once `RANGE` is raised its bit is set (R323). -/
theorem getLsbD_raiseBit_range (errors : BitVec 7) : (raiseBit errors .range).getLsbD 6 = true := by
  rw [raiseBit_range, BitVec.getLsbD_or, show (0x40#7).getLsbD 6 = true by decide, Bool.or_true]

/-! ### `NOP` and `RELEASE` (R282, R284) -/

theorem exec_nop (s : State) : exec .nop s = .next s := rfl

theorem exec_release (s : State) : exec .release s = .next { s with prepared := false } := rfl

/-- On an idle block with nothing in flight a completion undoes an issue (R89, R92). -/
theorem State.complete_latch {s : State} (v : Word) (hidle : s.busy = false) (hnone : s.pending = none) :
    (s.latch v).complete = s := by
  rw [State.complete, ← hidle, ← hnone]
  rfl

/-- While a latched command is in flight `STATUS` shows `BUSY` (R34, R89). -/
theorem State.latch_status_busy (s : State) (v : Word) : (s.latch v).status.getLsbD 0 = true := by
  rw [State.status, getLsbD_statusWord, if_pos rfl, State.latch_busy]

/-- Settles O16: the write latches the word of `NOP`, whose execution is its completion alone. -/
theorem nopIsTheIssueHandshake : Obligations.NopIsTheIssueHandshake := by
  intro s
  refine ⟨exec_nop s, fun hidle hnone => ?_⟩
  have hissue : s.busWrite 0x008#12 0#32 = s.latch 0#32 :=
    (s.busWrite_cmd 0#32).trans (if_neg (Bool.eq_false_iff.1 hidle))
  have hdecode : decode 0#32 = .ok .nop := decode_encode .nop
  rw [hissue, engineTurn_of_pending (State.latch_pending s 0#32), hdecode, executePending, exec_nop]
  exact ⟨s.latch_status_busy 0#32, congrArg _ (State.complete_latch 0#32 hidle hnone)⟩

theorem execBlockStart_unprepared {s : State} (h : s.prepared = false) : execBlockStart s = .next (s.raise .notPrepared) :=
  if_neg (Bool.eq_false_iff.1 h)

theorem execFrame_unprepared {s : State} (h : s.prepared = false) : execFrame s = .next (s.raise .notPrepared) :=
  if_neg (Bool.eq_false_iff.1 h)

/-- Settles O17: both commands check the flag that `RELEASE` clears before they do anything. -/
theorem releaseStopsStreamingUntilPrepare : Obligations.ReleaseStopsStreamingUntilPrepare := by
  refine ⟨exec_release, fun s hunprepared => ?_⟩
  rw [← State.raise_notPrepared]
  exact ⟨execBlockStart_unprepared hunprepared, execFrame_unprepared hunprepared⟩

/-! ### `PREPARE` (R283) -/

theorem execPrepare_of_ok {s : State}
    (h : capacityOk s.memDepth (prepareCapacity (sint s.operands.cfgSampleRate)) = true) :
    execPrepare s = .next (s.prepareAll s.operands) := if_pos h

theorem execPrepare_of_not_ok {s : State}
    (h : ¬ capacityOk s.memDepth (prepareCapacity (sint s.operands.cfgSampleRate)) = true) :
    execPrepare s = .next (s.raise .invalidCapacity) := if_neg h

/-- Settles O32: the rates named are those whose capacity `PREPARE` does not accept. -/
theorem prepareRefusesABadRate : Obligations.PrepareRefusesABadRate := by
  intro s hbad
  rw [← State.raise_invalidCapacity]
  refine execPrepare_of_not_ok fun hok => ?_
  obtain ⟨hpos, hle⟩ := capacityOk_iff.1 hok
  simp only [prepareCapacity, sint] at hpos hle
  omega

/-- Parameter `k` as `PREPARE` leaves it: settled at the snapshot target, with the ramp length of its ramp time (R283). -/
def HostRegs.preparedParam (r : HostRegs) (k : Param) : Smoothed where
  cur := (snapshotOf r).targets.get k
  tgt := (snapshotOf r).targets.get k
  step := 0#32
  cnt := 0#32
  n := (rampSteps (r.rampTime k) (sint r.cfgSampleRate)).1

theorem HostRegs.rampTime_eq (r : HostRegs) (k : Param) :
    r.rampTime k = if k = .delayLeft ∨ k = .delayRight then r.cfgRampDelay else r.cfgRampMod := by
  cases k <;> rfl

/-- An error raised for each invalid one of four parameters, where `a` says that the first two are valid and `b` that the last
two are: its bit is set unless all are valid (R323). -/
theorem raiseBit_four (errors : BitVec 7) (e : Error) (a b : Bool) :
    (let e1 := if !a then raiseBit errors e else errors
     let e2 := if !a then raiseBit e1 e else e1
     let e3 := if !b then raiseBit e2 e else e2
     if !b then raiseBit e3 e else e3) = if a = true ∧ b = true then errors else raiseBit errors e := by
  cases a <;> cases b <;> simp [raiseBit, BitVec.or_assoc]

/-- What `PREPARE` leaves at a positive rate: the configuration, every parameter and follower at its target, the start
phases, and `INVALID_RAMP` where one of the two ramp times is not positive (R283). -/
theorem State.prepareAll_state (s : State) {r : HostRegs} (h : 0 < sint r.cfgSampleRate) :
    s.prepareAll r = { s.prepareConfig r with
      sp := ⟨r.preparedParam .delayLeft, r.preparedParam .delayRight, r.preparedParam .depth, r.preparedParam .rate⟩
      ops := (snapshotOf r).targets
      errors := if fgt r.cfgRampDelay 0#32 = true ∧ fgt r.cfgRampMod 0#32 = true then s.errors
        else raiseBit s.errors .invalidRamp
      phase := ⟨r.cfgPhase0L, r.cfgPhase0R⟩
      blockIdx := 0#32
      prepared := true } := by
  rw [← raiseBit_four]
  simp only [State.prepareAll, State.prepareParam_state, rampSteps_invalid _ h]
  rfl

theorem State.prepareAll_param (s : State) {r : HostRegs} (h : 0 < sint r.cfgSampleRate) (k : Param) :
    (s.prepareAll r).sp.get k = r.preparedParam k ∧ (s.prepareAll r).ops.get k = (snapshotOf r).targets.get k := by
  rw [s.prepareAll_state h]
  cases k <;> exact ⟨rfl, rfl⟩

theorem State.prepareAll_lines (s : State) (r : HostRegs) (c : Channel) :
    (s.prepareAll r).lines.get c = (s.lines.get c).configure (prepareCapacity (sint r.cfgSampleRate)).toNat := by
  rw [← s.prepareConfig_line r c]
  simp only [State.prepareAll, State.prepareParam_lines]

/-- The lines after `PREPARE` at a positive rate: the capacity, which fits a word, is set as it stands, and a line reads 0 below
it and as before past it (R151, R283). -/
theorem State.prepareAll_line {s : State} {r : HostRegs} (h : 0 < sint r.cfgSampleRate) (c : Channel)
    (hwf : (s.lines.get c).ram.wf = true) :
    let sr := sint r.cfgSampleRate
    let l := (s.prepareAll r).lines.get c
    (l.cap.toNat : Int) = 2 * sr ∧ l.cursor = 0#32 ∧ (∀ i : Nat, (i : Int) < 2 * sr → l.ram.readWord i = 0#32) ∧
      ∀ a : Nat, 8 * sr ≤ (a : Int) → l.ram.readByte a = (s.lines.get c).ram.readByte a := by
  intro sr l
  have hl : l = (s.lines.get c).configure (prepareCapacity sr).toNat := s.prepareAll_lines r c
  have hword : sr < 2 ^ 31 := BitVec.toInt_lt (x := r.cfgSampleRate)
  have hpos : 0 < sr := h
  have hcap : ((prepareCapacity sr).toNat : Int) = 2 * sr := Int.toNat_of_nonneg (by simp only [prepareCapacity]; omega)
  rw [hl]
  refine ⟨?_, rfl, fun i hi => ?_, fun a ha => ?_⟩
  · rw [DelayLine.configure_cap _ (by omega), hcap]
  · exact Memory.readWord_zeroFill hwf (by omega)
  · exact (Memory.readByte_zeroFill _ _ hwf).trans (if_neg (by omega))

/-- Settles O31: an accepted rate leaves the state of `prepareAll`, read field by field. -/
theorem prepareSetsUpThePipeline : Obligations.PrepareSetsUpThePipeline := by
  intro s r sr hwf hpos hle
  have hcap : 0 < prepareCapacity sr := Int.mul_pos (by decide) hpos
  have hexec := execPrepare_of_ok (s := s) (capacityOk_iff.2 ⟨hcap, hle⟩)
  have hline := fun c => State.prepareAll_line (s := s) hpos c (hwf c)
  have hparam := s.prepareAll_param hpos
  rw [s.prepareAll_state hpos] at hexec hline hparam
  refine ⟨_, hexec, rfl, rfl, rfl, rfl, rfl, hline, rfl, rfl, rfl, rfl, rfl, rfl, rfl, rfl, rfl, fun k => ?_, rfl, rfl, rfl,
    rfl, rfl, rfl, rfl, rfl, rfl, rfl, rfl, rfl⟩
  obtain ⟨hsp, hops⟩ := hparam k
  rw [hsp, hops, ← HostRegs.rampTime_eq]
  exact ⟨rfl, rfl, rfl, rfl, rfl, rfl⟩

/-! ### `BLOCK_START` (R285, R293) -/

/-- The state `BLOCK_START` leaves on a prepared block (R285). -/
def State.blockStarted (s : State) : State :=
  let snap := snapshotOf s.operands
  { s with
    snap := snap
    sp := ⟨s.sp.delayLeft.setTarget snap.targets.delayLeft, s.sp.delayRight.setTarget snap.targets.delayRight,
      s.sp.depth.setTarget snap.targets.depth, s.sp.rate.setTarget snap.targets.rate⟩
    blockIdx := 0#32 }

theorem exec_blockStart {s : State} (h : s.prepared = true) : exec .blockStart s = .next s.blockStarted :=
  execBlockStart_prepared h

/-- Each parameter is set to its target in the new snapshot (R285). -/
theorem State.blockStarted_param (s : State) (k : Param) :
    s.blockStarted.sp.get k = (s.sp.get k).setTarget (s.blockStarted.snap.targets.get k) := by
  cases k <;> rfl

/-- Settles O33: each parameter is set to its target in the snapshot, an equal target leaving it as it was. -/
theorem blockStartSnapshotsAndRetargets : Obligations.BlockStartSnapshotsAndRetargets := by
  intro s hprep
  refine ⟨_, exec_blockStart hprep, ⟨rfl, rfl, rfl, rfl, rfl, rfl, rfl, rfl, rfl⟩, fun k => ?_, rfl, rfl⟩
  rw [State.blockStarted_param]
  exact ⟨Smoothed.setTarget_of_feq, Smoothed.setTarget_of_not_feq⟩

/-- A parameter already set to its target in the snapshot, a number, is not changed by setting it again (R184, R293). -/
theorem State.retarget_of_set {s : State} {k : Param} {p : Smoothed} (hnum : isNaN (s.snap.targets.get k) = false)
    (hset : s.sp.get k = p.setTarget (s.snap.targets.get k)) : s.retarget k = s := by
  have hsame : (s.sp.get k).setTarget (s.snap.targets.get k) = s.sp.get k := by rw [hset, Smoothed.setTarget_again hnum]
  rw [State.retarget_state, hsame, PerParam.set_get]

/-- The delay-time targets of a snapshot are converted integers, so they are numbers (R12, R281). -/
theorem snapshotOf_delay_number (r : HostRegs) (c : Channel) :
    isNaN ((snapshotOf r).targets.get (delayParam c)) = false := by
  cases c with
  | left => exact isNaN_i2f _
  | right =>
    cases hdual : r.dualDelay with
    | true => simpa [snapshotOf, hdual] using isNaN_i2f (sint r.paramDelayR)
    | false => simpa [snapshotOf, hdual] using isNaN_i2f (sint r.paramDelayL)

theorem State.blockStarted_retarget (s : State) (c : Channel) :
    s.blockStarted.retarget (delayParam c) = s.blockStarted :=
  State.retarget_of_set (snapshotOf_delay_number s.operands c) (s.blockStarted_param _)

/-- Settles O44: both delay times are set to the snapshot's targets already. -/
theorem frameRetargetAgreesWithBlockStart : Obligations.FrameRetargetAgreesWithBlockStart := by
  intro s t hprep hexec
  rw [exec_blockStart hprep] at hexec
  cases hexec
  exact ⟨s.blockStarted_retarget .left, s.blockStarted_retarget .right⟩

/-! ### What a `FRAME` computes (R286 to R290) -/

/-- The depth follower after a `FRAME` (R287). -/
def State.frameDepth (s : State) : Word := follow s.sp.depth.next.cur s.sp.depth.next.next.cur s.ops.depth s.coefM

/-- The rate follower after a `FRAME` (R287). -/
def State.frameRate (s : State) : Word := follow s.sp.rate.next.cur s.sp.rate.next.next.cur s.ops.rate s.coefM

/-- Channel `c`'s delay-time parameter once a `FRAME` has set its target (R286). -/
def State.frameParam (s : State) (c : Channel) : Smoothed :=
  (s.sp.get (delayParam c)).setTarget (s.snap.targets.get (delayParam c))

/-- The delay time in milliseconds a `FRAME` takes for channel `c` (R288, R289). -/
def State.frameDelay (s : State) (c : Channel) : Word := channelDelay s c (s.frameParam c) s.frameDepth s.frameRate

/-- That delay time in samples (R290). -/
def State.frameSamples (s : State) (c : Channel) : Word := delaySamples (s.frameDelay c) s.sampleRateF

/-- Channel `c`'s delay in a `FRAME` is in range of its line (R153, R156). -/
def State.frameInRange (s : State) (c : Channel) : Bool := inRange (s.frameSamples c) (uint (s.lines.get c).cap)

/-- `OUT_L` and `OUT_R` by channel (R37). -/
def HostRegs.output (r : HostRegs) : Channel → Word
  | .left => r.outL
  | .right => r.outR

theorem HostRegs.output_eq (r : HostRegs) (c : Channel) : r.output c = if c = .left then r.outL else r.outR := by
  cases c <;> rfl

theorem HostRegs.input_eq (r : HostRegs) (c : Channel) : r.input c = if c = .left then r.inL else r.inR := by
  cases c <;> rfl

/-- What a `FRAME` from `s` to `t` does to channel `c` (R286, R288). -/
structure FrameChannel (s t : State) (c : Channel) : Prop where
  line : (s.lines.get c).write s.memDepth (s.operands.input c) = .ok (t.lines.get c)
  param : t.sp.get (delayParam c) = (s.frameParam c).next.next
  follower : t.ops.get (delayParam c) = s.frameDelay c
  phase : t.phase.get c = phaseStep s.sampleRateF (s.phase.get c) s.frameRate
  output_mix : s.frameInRange c = true → ∃ y, (s.lines.get c).readAt s.memDepth (s.frameSamples c) = .ok y ∧
    t.regs.output c = mixOf (s.operands.input c) y s.snap.dryWet
  /-- The right channel's draw comes after the left one's, where the left one took one (log 9). -/
  output_free : s.frameInRange c = false →
    t.regs.output c = Config.freeWord (if c = .right ∧ s.frameInRange .left = false then s.draws + 1 else s.draws)

/-- What a `FRAME` from `s` to `t` does apart from its channels (R286, R287). -/
structure FrameShared (s t : State) : Prop where
  depthParam : t.sp.depth = s.sp.depth.next.next
  rateParam : t.sp.rate = s.sp.rate.next.next
  depthFollower : t.ops.depth = s.frameDepth
  rateFollower : t.ops.rate = s.frameRate
  blockIdx : t.blockIdx = s.blockIdx + 1#32
  errors : t.errors = if s.frameInRange .left && s.frameInRange .right then s.errors else raiseBit s.errors .range
  draws : s.frameInRange .left = true → s.frameInRange .right = true → t.draws = s.draws
  frame : { t with
    regs := { t.regs with outL := s.regs.outL, outR := s.regs.outR }
    errors := s.errors, lines := s.lines, sp := s.sp, ops := s.ops, phase := s.phase
    blockIdx := s.blockIdx, draws := s.draws } = s

/-- What a `FRAME` on a prepared block does, when it answers (R286 to R290). -/
theorem exec_frame_effects {s t : State} (hprep : s.prepared = true) (h : exec .frame s = .next t) :
    (∀ c, FrameChannel s t c) ∧ FrameShared s t := by
  obtain ⟨lineL, lineR, yL, yR, hwriteL, hwriteR, hreadL, hreadR, hfreeL, hfreeR, rfl⟩ :=
    State.frame_state (exec_frame_ok hprep h)
  refine ⟨fun c => ?_, ?_⟩
  · cases c with
    | left =>
      refine ⟨hwriteL, rfl, rfl, rfl, fun hin => ⟨yL, hreadL hin, ?_⟩, fun hout => ?_⟩
      · exact congrArg (channelOutput · _ yL _) hin
      · exact (congrArg (channelOutput · _ yL _) hout).trans (hfreeL hout)
    | right =>
      refine ⟨hwriteR, rfl, rfl, rfl, fun hin => ⟨yR, hreadR hin, ?_⟩, fun hout => ?_⟩
      · exact congrArg (channelOutput · _ yR _) hin
      · have hfree : yR = Config.freeWord (if s.frameInRange .left = true then s.draws else s.draws + 1) := hfreeR hout
        refine (congrArg (channelOutput · _ yR _) hout).trans (hfree.trans ?_)
        cases s.frameInRange .left <;> rfl
  · exact ⟨rfl, rfl, rfl, rfl, rfl, rfl, fun hleft hright => (if_pos hright).trans (if_pos hleft), rfl⟩

theorem exec_frame_of_ready {s : State} (hprep : s.prepared = true) (h : ∀ c, LineReady s.memDepth (s.lines.get c)) :
    ∃ t, exec .frame s = .next t := by
  obtain ⟨t, ht⟩ := State.frame_of_ready s.operands h
  exact ⟨t, (if_pos hprep).trans (congrArg outcomeOf ht)⟩

theorem DelayLine.write_ram {depth : Nat} {l l' : DelayLine} {v : Word} (h : l.write depth v = .ok l') :
    l'.ram = l.ram.writeWord l.cursor.toNat v := by
  obtain ⟨_, _, rfl⟩ := DelayLine.write_ok h
  rfl

/-- Settles O34: the lines are those of R152's write of the input, and both channels step at the followed rate. -/
theorem frameCompletesAndStoresTheInput : Obligations.FrameCompletesAndStoresTheInput := by
  intro s hprep hlines
  obtain ⟨t, ht⟩ := exec_frame_of_ready hprep fun c => (hlines c).1
  obtain ⟨hchannel, hshared⟩ := exec_frame_effects hprep ht
  refine ⟨t, ht, fun c => ?_, fun c => ⟨_, (hchannel c).phase, hshared.rateFollower.symm⟩, hshared.blockIdx, ?_,
    hshared.frame⟩
  · have hwrite := (hchannel c).line
    have hram := DelayLine.write_ram hwrite
    refine ⟨DelayLine.write_cap hwrite, DelayLine.write_cursor hwrite, ?_, fun a ha => ?_⟩
    · rw [hram, Memory.readWord_writeWord_same _ _ (hlines c).2, HostRegs.input_eq]
    · rw [State.ramByte, hram]
      exact Memory.readByte_writeWord_outside _ (hlines c).2 ha
  · rw [← raiseBit_range, hshared.errors]
    exact ite_eq_or_eq _ _ _

theorem State.folds_iff (s : State) (d : Word) : s.folds d = true ↔ s.snap.chorus = true ∧ feq d 0#32 = false := by
  simp [State.folds, fZero]

/-- Settles O35: the statement's delay is that of the pipeline, so its range is the one a `FRAME` decides by. -/
theorem frameFollowsThePipeline : Obligations.FrameFollowsThePipeline := by
  intro s t hprep _ hexec depthF rateF p d dS ok
  obtain ⟨hchannel, hshared⟩ := exec_frame_effects hprep hexec
  have hd : d = s.frameDelay := funext fun c => by
    simp only [State.frameDelay, channelDelay, State.folds_iff]
    rfl
  have hok : ok = s.frameInRange := by
    simp only [ok, dS, hd]
    rfl
  have hdS : dS = s.frameSamples := by
    simp only [dS, hd]
    rfl
  rw [hok, hdS, hd]
  refine ⟨fun c => ?_, hshared.depthFollower, hshared.rateFollower, hshared.depthParam, hshared.rateParam, ?_, ?_⟩
  · intro x out
    have hx : s.operands.input c = x := HostRegs.input_eq _ c
    have hout : t.regs.output c = out := HostRegs.output_eq _ c
    rw [← hx, ← hout]
    exact ⟨(hchannel c).follower, (hchannel c).param, (hchannel c).output_mix, (hchannel c).output_free⟩
  · intro hleft hright
    refine ⟨?_, hshared.draws hleft hright⟩
    rw [hshared.errors, hleft, hright]
    rfl
  · intro hout
    rw [hshared.errors, raiseBit_range, if_neg]
    rcases hout with h | h <;> simp [h]

/-! ### Two channels in equal states (R292) -/

section
variable {s : State} (h : s.Mirrored)
include h

theorem State.Mirrored.frameParam_eq : s.frameParam .left = s.frameParam .right := by
  simp [State.frameParam, h.sp, h.target]

theorem State.Mirrored.frameDelay_eq : s.frameDelay .left = s.frameDelay .right := by
  have hops : s.ops.get (delayParam .left) = s.ops.get (delayParam .right) := h.ops
  have hphase : s.phase.get .left = s.phase.get .right := h.phase
  rw [State.frameDelay, State.frameDelay, channelDelay, channelDelay, h.frameParam_eq, hops, hphase]

theorem State.Mirrored.frameSamples_eq : s.frameSamples .left = s.frameSamples .right := by
  rw [State.frameSamples, State.frameSamples, h.frameDelay_eq]

end

/-- A `FRAME` after which the `RANGE` bit is clear found both delays in range (R334). -/
theorem FrameShared.inRange {s t : State} (h : FrameShared s t) (hclear : t.errors.getLsbD 6 = false) (c : Channel) :
    s.frameInRange c = true := by
  have hboth : (s.frameInRange .left && s.frameInRange .right) = true := by
    by_contra hout
    rw [h.errors, if_neg hout, getLsbD_raiseBit_range] at hclear
    cases hclear
  obtain ⟨hleft, hright⟩ := Bool.and_eq_true_iff.1 hboth
  cases c with
  | left => exact hleft
  | right => exact hright

/-- Settles O43: each effect on the left channel is the one on the right channel, the sample read among them. -/
theorem mirroredChannelsStayMirrored : Obligations.MirroredChannelsStayMirrored := by
  intro s t hprep hmirror hinput hexec hclear
  obtain ⟨hchannel, hshared⟩ := exec_frame_effects hprep hexec
  have hleft := hchannel .left
  have hright := hchannel .right
  have hline : s.lines.get .left = s.lines.get .right := hmirror.line
  have hin : s.operands.input .left = s.operands.input .right := hinput
  obtain ⟨yL, hreadL, houtL⟩ := hleft.output_mix (hshared.inRange hclear .left)
  obtain ⟨yR, hreadR, houtR⟩ := hright.output_mix (hshared.inRange hclear .right)
  have hy : yL = yR := by
    rw [hline, hmirror.frameSamples_eq, hreadR] at hreadL
    exact (Except.ok.inj hreadL).symm
  refine ⟨?_, ?_, ?_, ?_, ?_, ?_⟩
  · exact houtL.trans (by rw [hin, hy, ← houtR]; rfl)
  · exact hleft.param.trans (by rw [hmirror.frameParam_eq, ← hright.param]; rfl)
  · exact hleft.follower.trans (by rw [hmirror.frameDelay_eq, ← hright.follower]; rfl)
  · exact hleft.phase.trans (by rw [show s.phase.get .left = s.phase.get .right from hmirror.phase, ← hright.phase]; rfl)
  · have hwrite := hleft.line
    rw [hline, hin, hright.line] at hwrite
    exact (Except.ok.inj hwrite).symm
  · rw [← hshared.frame] at hmirror
    exact hmirror.target

/-! ### A channel settled at an integer delay (R291, R294) -/

theorem isFinite_magnitude_packFloat_zero (neg : Bool) :
    isFinite (packFloat neg 0) = true ∧ magnitude (packFloat neg 0) = 0 := by cases neg <;> decide

/-- A zero times a finite value is a zero (R10). -/
theorem fmul_zero_finite (neg : Bool) {b : Word} (hb : isFinite b = true) :
    ∃ neg', fmul (packFloat neg 0) b = packFloat neg' 0 := by
  obtain ⟨hfin, hmag⟩ := isFinite_magnitude_packFloat_zero neg
  refine ⟨_, (fmul_finite hfin hb).trans (congrArg (packFloat _) ?_)⟩
  rw [hmag, Nat.zero_mul]
  decide

/-- A follower that already stands at the value it is led to stays there: the difference is a zero, and so is its product
with the coefficient (R197). -/
theorem follow_settled {d coef : Word} (hd : isFinite d = true) (hne : magnitude d ≠ 0) (hcoef : isFinite coef = true) :
    follow d d d coef = d := by
  obtain ⟨neg, hdiff⟩ := fsub_of_eq hd hd rfl
  obtain ⟨neg', hprod⟩ := fmul_zero_finite neg hcoef
  obtain ⟨hfin, hmag⟩ := isFinite_magnitude_packFloat_zero neg'
  rw [follow, hdiff, hprod, fadd_zero hd hfin hmag hne]

/-- A number greater than 0 is no zero (R11). -/
theorem magnitude_ne_zero_of_fgt {d : Word} (h : fgt d 0#32 = true) : magnitude d ≠ 0 :=
  (signBit_of_scaled_pos (fgt_zero_iff.1 h).2).2

/-- Channel `c` is settled at the delay time `d`: target, parameter and follower stand there, with no step left (R291). -/
structure State.SettledAt (s : State) (c : Channel) (d : Word) : Prop where
  target : s.snap.targets.get (delayParam c) = d
  cur : (s.sp.get (delayParam c)).cur = d
  tgt : (s.sp.get (delayParam c)).tgt = d
  cnt : (s.sp.get (delayParam c)).cnt = 0#32
  follower : s.ops.get (delayParam c) = d

section
variable {s : State} {c : Channel} {d : Word} (h : s.SettledAt c d)
include h

/-- A settled parameter already stands at the target a `FRAME` sets, which leaves it as it was (R184). -/
theorem State.SettledAt.frameParam_eq (hnum : isNaN d = false) : s.frameParam c = s.sp.get (delayParam c) := by
  rw [State.frameParam, h.target]
  exact Smoothed.setTarget_of_feq (by rw [h.tgt, feq_self hnum])

/-- With chorus off a settled channel's delay time is the one it is settled at (R291). -/
theorem State.SettledAt.frameDelay_eq (hchorus : s.snap.chorus = false) (hd : isFinite d = true)
    (hpos : fgt d 0#32 = true) (hcoef : isFinite s.coefD = true) : s.frameDelay c = d := by
  have hfold (v : Word) : s.folds v = false := by rw [State.folds, hchorus, Bool.false_and]
  have hfollow := follow_settled hd (magnitude_ne_zero_of_fgt hpos) hcoef
  simp only [State.frameDelay, channelDelay, h.frameParam_eq (isNaN_of_isFinite hd), Smoothed.next_idle h.cnt, h.cur,
    h.follower, hfollow, hfold, if_neg Bool.false_ne_true]

end

theorem inRange_of_integer {d : Word} {n cap : Nat} (hd : isFinite d = true) (hn : scaled d = (n : Int) * unitsPerOne)
    (hlt : n + 1 ≤ cap) : inRange d cap = true := by
  have hunit : (0 : Int) ≤ unitsPerOne := Int.natCast_nonneg _
  refine inRange_iff.2 ⟨hd, ?_, ?_⟩
  · rw [hn]
    exact Int.mul_nonneg (Int.natCast_nonneg n) hunit
  · rw [hn]
    exact Int.mul_le_mul_of_nonneg_right (by omega) hunit

/-- Settles O45: the settled channel's delay is the integer itself, so the read gives the slot there, bit for bit. -/
theorem settledFrameOutputsTheDelayedSample : Obligations.SettledFrameOutputsTheDelayedSample := by
  intro s t c d n hprep hready hchorus hd hpos hcoef htarget hcur htgt hcnt hfollower hfin hn hlt hexec
  have hsettled : s.SettledAt c d := ⟨htarget, hcur, htgt, hcnt, hfollower⟩
  have hdelay : s.frameDelay c = d := hsettled.frameDelay_eq hchorus hd hpos hcoef
  have hparam := hsettled.frameParam_eq (isNaN_of_isFinite hd)
  have hsamples : s.frameSamples c = delaySamples d s.sampleRateF := by rw [State.frameSamples, hdelay]
  have hin : s.frameInRange c = true := by
    rw [State.frameInRange, hsamples]
    exact inRange_of_integer hfin hn hlt
  obtain ⟨hchannel, -⟩ := exec_frame_effects hprep hexec
  obtain ⟨y, hread, hout⟩ := (hchannel c).output_mix hin
  rw [hsamples, DelayLine.readAt_of_integer (hready c).cap_ne (hready c).cap_le hfin hn] at hread
  cases hread
  refine ⟨?_, ?_, ?_⟩
  · rw [← HostRegs.output_eq, ← HostRegs.input_eq, hout]
    rfl
  · rw [(hchannel c).follower, hdelay]
  · rw [(hchannel c).param, hparam, Smoothed.next_idle hcnt, Smoothed.next_idle hcnt]

end Sys2Proof.Machine
end

section
/-! PROOFS. The sticky error bits (60_exceptions.md R321, R323, R324): a turn of the engine, and a host transaction other than a
write of `STATUS`, sets at most one of them and clears none; a write of `STATUS` clears the ones it names. -/

namespace Sys2Proof.Machine

/-! ### Raising an error, and a write of `STATUS` -/

/-- The error bits after no error or one: `after` is `before`, or `before` with one error raised (R323). -/
def RaisesAtMostOne (before after : BitVec 7) : Prop := after = before ∨ ∃ e, after = raiseBit before e

theorem RaisesAtMostOne.refl (errors : BitVec 7) : RaisesAtMostOne errors errors := .inl rfl

theorem RaisesAtMostOne.raise (errors : BitVec 7) (e : Error) : RaisesAtMostOne errors (raiseBit errors e) := .inr ⟨e, rfl⟩

theorem RaisesAtMostOne.ite (errors : BitVec 7) (e : Error) (p : Prop) [Decidable p] :
    RaisesAtMostOne errors (if p then errors else raiseBit errors e) := by
  split
  · exact .refl errors
  · exact .raise errors e

/-- Raising an error clears no bit (R323). -/
theorem RaisesAtMostOne.sticky {before after : BitVec 7} (h : RaisesAtMostOne before after) : before &&& after = before := by
  rcases h with rfl | ⟨e, rfl⟩
  · exact BitVec.and_self
  · refine BitVec.eq_of_getLsbD_eq fun i _ => ?_
    rw [raiseBit, BitVec.getLsbD_and, BitVec.getLsbD_or]
    exact inf_sup_self

theorem Error.getLsbD_mask_code (e : Error) : e.mask.getLsbD (e.code - 8) = true := by
  cases e <;> rfl

/-- Once an error is raised its bit is set (R320, R323). -/
theorem getLsbD_raiseBit_code (errors : BitVec 7) (e : Error) : (raiseBit errors e).getLsbD (e.code - 8) = true := by
  rw [raiseBit, BitVec.getLsbD_or, e.getLsbD_mask_code, Bool.or_true]

/-- Bit `j` of the field is `STATUS` bit 8 + `j`, which `v` clears where its own bit there is 1 (R34, R324). -/
theorem getLsbD_clearBits (errors : BitVec 7) (v : Word) {j : Nat} (hj : j < 7) :
    (clearBits errors v).getLsbD j = (errors.getLsbD j && !v.getLsbD (8 + j)) := by
  simp [clearBits, hj]

theorem State.busWrite_status (s : State) (v : Word) :
    s.busWrite 0x00C#12 v = { s with errors := clearBits s.errors v } := by
  rw [show (0x00C#12 : Offset) = busOffset .status from rfl, State.busWrite, regAt_busOffset]

/-- Settles O11: the write replaces the error bits alone, by those `v` does not name. -/
theorem statusWriteClearsTheNamedErrors : Obligations.StatusWriteClearsTheNamedErrors := by
  intro s v
  rw [State.busWrite_status]
  exact ⟨fun j hj => getLsbD_clearBits s.errors v hj, rfl, fun e => getLsbD_raiseBit_code _ e⟩

/-! ### The commands -/

section
variable {s t : State}

theorem execPrepare_errors (h : execPrepare s = .next t) : RaisesAtMostOne s.errors t.errors := by
  by_cases hok : capacityOk s.memDepth (prepareCapacity (sint s.operands.cfgSampleRate)) = true
  · have hrate : 0 < sint s.operands.cfgSampleRate := by
      have hcap := (capacityOk_iff.1 hok).1
      rw [prepareCapacity] at hcap
      omega
    rw [execPrepare_of_ok hok, State.prepareAll_state s hrate] at h
    cases h
    exact .ite _ _ _
  · rw [execPrepare_of_not_ok hok] at h
    cases h
    exact .raise _ _

theorem execBlockStart_errors (h : execBlockStart s = .next t) : RaisesAtMostOne s.errors t.errors := by
  cases hp : s.prepared with
  | true => rw [execBlockStart_prepared hp] at h; cases h; exact .refl _
  | false => rw [execBlockStart_unprepared hp] at h; cases h; exact .raise _ _

theorem execFrame_errors (h : execFrame s = .next t) : RaisesAtMostOne s.errors t.errors := by
  cases hp : s.prepared with
  | true =>
    obtain ⟨-, hshared⟩ := exec_frame_effects hp h
    rw [hshared.errors]
    exact .ite _ _ _
  | false => rw [execFrame_unprepared hp] at h; cases h; exact .raise _ _

theorem execDlConfigure_errors {c : Channel} (h : execDlConfigure c s = .next t) : RaisesAtMostOne s.errors t.errors := by
  by_cases hok : capacityOk s.memDepth (sint s.operands.arg0) = true
  · rw [execDlConfigure_of_ok hok] at h; cases h; exact .refl _
  · rw [execDlConfigure_of_not_ok hok] at h; cases h; exact .raise _ _

theorem execDlWrite_errors {c : Channel} (h : execDlWrite c s = .next t) : RaisesAtMostOne s.errors t.errors := by
  rcases execDlWrite_ok h with ⟨_, rfl⟩ | ⟨_, _, _, rfl⟩
  · exact .raise _ _
  · exact .refl _

theorem execDlRead_errors {c : Channel} (h : execDlRead c s = .next t) : RaisesAtMostOne s.errors t.errors := by
  rcases execDlRead_ok h with ⟨_, rfl⟩ | ⟨_, s', y, hread, rfl⟩
  · exact .raise _ _
  · rcases State.dlRead_ok hread with ⟨_, rfl, _⟩ | ⟨_, rfl, _⟩
    · exact .refl _
    · exact .raise _ _

theorem State.spReset_errors (s : State) (k : Param) (x : Word) (sr : Int) :
    RaisesAtMostOne s.errors (s.spReset k x sr).errors := by
  rw [State.spReset_state, ← ite_not]
  exact .ite _ _ _

/-- No command sets more than one error bit, and none clears one (R321, R323). -/
theorem exec_errors {i : Instr} (h : exec i s = .next t) : RaisesAtMostOne s.errors t.errors := by
  cases i with
  | prepare => exact execPrepare_errors h
  | blockStart => exact execBlockStart_errors h
  | frame => exact execFrame_errors h
  | dlConfigure c => exact execDlConfigure_errors h
  | dlWrite c => exact execDlWrite_errors h
  | dlRead c => exact execDlRead_errors h
  | spReset k => cases h; exact s.spReset_errors k _ _
  | opStep k => cases h; rw [State.setResult_errors, State.opStep_state]; exact .refl _
  | nop | release | spInit | spSetTarget | spNext | lfoAdvance | sinEval | mix => cases h; exact .refl _

/-! ### The turns -/

/-- What the execution of a decoded word leaves, when it answers (R92, R126): `ILLEGAL_CMD` raised, or the command's effect;
completed either way. -/
theorem executePending_next {d : Except Illegal Instr} (h : executePending d s = .next t) :
    ((∃ e, d = .error e) ∧ t = (s.raise .illegalCmd).complete) ∨
    ∃ i t', d = .ok i ∧ exec i s = .next t' ∧ t = t'.complete := by
  cases d with
  | error e => cases h; exact .inl ⟨⟨e, rfl⟩, rfl⟩
  | ok i =>
    rw [executePending] at h
    split at h
    next t' hexec => cases h; exact .inr ⟨i, t', rfl, hexec, rfl⟩
    next => cases h
    next => cases h

theorem engineTurn_errors (h : engineTurn s = .next t) : RaisesAtMostOne s.errors t.errors := by
  cases hp : s.pending with
  | none => rw [engineTurn_of_idle hp] at h; cases h; exact .refl _
  | some p =>
    rw [engineTurn_of_pending hp] at h
    rcases executePending_next h with ⟨_, rfl⟩ | ⟨i, t', _, hexec, rfl⟩
    · exact .raise _ _
    · rw [State.complete_errors]; exact exec_errors hexec

/-- The issue of a command raises `OVERRUN` or nothing (R89). -/
theorem State.issue_errors (s : State) (v : Word) : RaisesAtMostOne s.errors (s.issue v).errors := by
  unfold State.issue
  split
  · exact .raise _ _
  · exact .refl _

theorem State.busWrite_errors (s : State) {off : Offset} (v : Word) (hstatus : off ≠ 0x00C#12) :
    RaisesAtMostOne s.errors (s.busWrite off v).errors := by
  rcases s.busWrite_cases off v with h | ⟨_, h⟩ | ⟨hoff, _⟩ | ⟨r, h⟩
  · rw [h]; exact .refl _
  · rw [h]; exact s.issue_errors v
  · exact absurd hoff hstatus
  · rw [h]; exact .refl _

theorem State.busRead_errors (s : State) (off : Offset) : (s.busRead off).1.errors = s.errors := by
  rcases s.busRead_state off with h | h <;> rw [h]
  rfl

theorem hostTurn_errors {x : Transaction} (hx : ∀ size off v, x = .write size off v → off ≠ 0x00C#12)
    (h : hostTurn x s = .next t) : RaisesAtMostOne s.errors t.errors := by
  cases x with
  | write size off v =>
    rw [hostTurn] at h
    split at h <;> cases h
    exact s.busWrite_errors v (hx size off v rfl)
  | read size off =>
    rw [hostTurn] at h
    split at h <;> cases h
    exact .inl (s.busRead_errors off)

/-- A step that is neither a reset nor a write of `STATUS` sets at most one error bit and clears none (R323, R324). -/
theorem step_errors (h : step s = .next t) (hreset : ∀ x rest, s.agenda ≠ .reset x :: rest)
    (hstatus : ∀ size off v rest, s.agenda = .host (.write size off v) :: rest → off ≠ 0x00C#12) :
    RaisesAtMostOne s.errors t.errors := by
  cases hagenda : s.agenda with
  | nil => exact engineTurn_errors (step_unlisted hagenda ▸ h)
  | cons turn rest =>
    rw [step_turn hagenda] at h
    cases turn with
    | host x =>
      exact hostTurn_errors (s := { s with agenda := rest })
        (fun size off v hx => hstatus size off v rest (hx ▸ hagenda)) h
    | engine => exact engineTurn_errors (s := { s with agenda := rest }) h
    | reset lost => exact absurd hagenda (hreset lost rest)

end

/-- Settles O58: such a step at most raises one error, which keeps every bit that is set. -/
theorem errorBitsAreSticky : Obligations.ErrorBitsAreSticky := fun _ _ h hreset hstatus =>
  (step_errors h hreset hstatus).sticky

end Sys2Proof.Machine
end

section
/-! PROOFS. Reset (70_reset_and_hazards.md R360 to R363): the reset state meets the invariants of the rules, and a reset event,
whatever was going on, leaves nothing of the state before it but `MEM_DEPTH`, the RAM's words and the model's own fields. -/

namespace Sys2Proof.Machine

/-! ### The reset state -/

/-- A line right after reset is within R55's invariant at every depth: unconfigured, with no byte of its RAM listed. -/
theorem lineOk_reset (depth : Nat) : LineOk depth DelayLine.reset where
  cursor_lt hcap := absurd rfl hcap
  cap_le := Nat.zero_le depth
  ram_wf := rfl
  ram_lt := nofun

/-- Settles O50, part by part: each line, parameter and register is well formed at reset, and the block is idle and not
prepared, so that nothing is asked of a command in flight or of a configured line. -/
theorem resetHasTheInvariant : Obligations.ResetHasTheInvariant where
  depth_pos := by decide
  lines c := by cases c <;> exact lineOk_reset _
  params k := by cases k <;> exact smoothedOk_reset
  reserved := reservedOk_reset
  reserved_copy := nofun
  busy_iff := rfl
  prepared_lines := nofun
  rate := (by decide : 0#32 = i2f (sint 0#32))
  mirror := nofun

/-! ### The reset event -/

/-- A turn that is a reset answers the reset block, whatever `CMD` word is lost with it (R362). -/
theorem step_reset {s : State} {lost : Option Word} {rest : List Turn} (h : s.agenda = .reset lost :: rest) :
    step s = .next { s with agenda := rest }.resetBlock :=
  step_turn h

/-- A reset event leaves each line unconfigured, with its cursor at 0 (R55, R360). -/
theorem State.resetBlock_unconfigured (s : State) (c : Channel) :
    (s.resetBlock.lines.get c).cap = 0#32 ∧ (s.resetBlock.lines.get c).cursor = 0#32 := by
  rw [State.resetBlock_line]
  exact ⟨rfl, rfl⟩

/-- Apart from `MEM_DEPTH`, the lines and the model's own fields the block is in its reset state: the command in flight is
abandoned (R362). -/
theorem State.resetBlock_eq_reset (s : State) :
    { s.resetBlock with
      memDepth := State.reset.memDepth, lines := State.reset.lines, draws := 0, agenda := [], reads := [] } = State.reset :=
  rfl

/-- Settles O53: the step answers the reset block, whose lines are unconfigured and whose other fields are those of reset. -/
theorem resetAbandonsTheCommand : Obligations.ResetAbandonsTheCommand := by
  intro s lost rest h
  obtain ⟨hcapL, hcursorL⟩ := { s with agenda := rest }.resetBlock_unconfigured .left
  obtain ⟨hcapR, hcursorR⟩ := { s with agenda := rest }.resetBlock_unconfigured .right
  exact ⟨_, step_reset h, hcapL, hcapR, hcursorL, hcursorR, State.resetBlock_eq_reset _⟩

end Sys2Proof.Machine
end
